-- ==== Sys2Proof/Word.lean ====
section
/-! DEFINITION. The value types of the GF257 codec core: bus words, bytes, field elements and the two kinds of
register array. -/

namespace Sys2Proof

/-- A word of the 32-bit bus (20_memory.md R62). -/
abbrev Word := BitVec 32

/-- A stored byte: a tag, or the low eight bits of a symbol (20_memory.md R77). -/
abbrev Byte := BitVec 8

/-- `F`, the integers 0 to 256 (00_scope.md R12). A register that holds an element of `F` holds no other value. -/
abbrev F := Fin 257

/-- The fourteen coefficients of `P` or `Q`, `c[i]` of `x^i` (00_scope.md R14, 10_state.md R38). -/
abbrev Coeffs := Vector F 14

/-- The sixteen symbol slots `SYM[0..15]` (10_state.md R22). -/
abbrev SymbolBuf := Vector F 16

end Sys2Proof
end

