-- ==== Sys2Proof/Syntax.lean ====
section
/-! DEFINITION. The command set: one constructor for each row of the opcode map (30_encoding.md R93). -/

namespace Sys2Proof

/-- A command. The small operands `F1` and `F2` are unsigned integers, 0 to 15 in a command word, and `MASK` is a
16-bit set of abscissas (30_encoding.md R90, R91). -/
inductive Instr where
  /-- No operation (R125). -/
  | nop
  /-- `R <- A + B` in the field (R140). -/
  | fadd
  /-- `R <- A - B` in the field (R141). -/
  | fsub
  /-- `R <- A * B` in the field (R142). -/
  | fmul
  /-- `R <- inv(A)` (R144). -/
  | finv
  /-- `R <- A * inv(B)` (R145). -/
  | fdiv
  /-- `R <- eval(P, A)` (R161). -/
  | peval
  /-- `P <- P + Q` (R162). -/
  | padd
  /-- `P <- P - Q` (R163). -/
  | psub
  /-- `P <- P * Q` (R165). -/
  | pmul
  /-- `P <- A * P` (R167). -/
  | pscale
  /-- `Q <- P` (R168). -/
  | pmovq
  /-- `P <- 0` (R169). -/
  | pclr
  /-- `P <-` one Lagrange basis polynomial (R194): `F1` is `one`, `MASK` is `xs`. -/
  | basis (one : Nat) (xs : BitVec 16)
  /-- `P <-` the interpolation through the selected symbols (R195). -/
  | interp (xs : BitVec 16)
  /-- `SYM[x] <- eval(P, x)` at the selected abscissas (R196). -/
  | evalsym (targets : BitVec 16)
  /-- Encode the block in place (R197). -/
  | encode
  /-- `R <-` the tag of the current codeword (R198). -/
  | taggen
  /-- `R <-` the locator value (R221). -/
  | locate
  /-- Interpolate and validate one candidate subset (R222). -/
  | validate (subset : BitVec 16)
  /-- Decode the block in place (R240). -/
  | decode
  /-- Open a session (R260): `F1` is the mode, and `F2` must be 0. -/
  | sbegin (mode : Nat) (f2 : Nat)
  /-- Encode one block of the encode session (R261): `F1` is `k`, and `F2` must be 0. -/
  | benc (k : Nat) (f2 : Nat)
  /-- Decode one block pair of the decode session (R263): `F1` is `k`, `F2` is `h`. -/
  | bdec (k : Nat) (h : Nat)
  /-- Close the session and report (R266). -/
  | send
  deriving DecidableEq, Repr

end Sys2Proof
end

