-- ==== Sys2Proof/WellFormed.lean ====
section
/-! DEFINITION. Which terms of `Instr` are commands that a word can carry. -/

namespace Sys2Proof

/-- A value of `F1` or `F2`: four bits (30_encoding.md R90, R91). -/
def fitsNibble (v : Nat) : Bool := v < 16

/-- The small operands fit their fields (30_encoding.md R90). A value that fits and that the command's own rule
forbids is well formed: it completes with `BAD_OPERAND` (R92). -/
def Instr.wf : Instr → Bool
  | .nop | .fadd | .fsub | .fmul | .finv | .fdiv => true
  | .peval | .padd | .psub | .pmul | .pscale | .pmovq | .pclr => true
  | .basis one _ => fitsNibble one
  | .interp _ | .evalsym _ | .encode | .taggen => true
  | .locate | .validate _ | .decode => true
  | .sbegin mode f2 => fitsNibble mode && fitsNibble f2
  | .benc k f2 => fitsNibble k && fitsNibble f2
  | .bdec k h => fitsNibble k && fitsNibble h
  | .send => true

/-- The instruction is well formed. -/
abbrev Instr.WellFormed (i : Instr) : Prop := i.wf = true

end Sys2Proof
end

