-- ==== Sys2Proof/Decode.lean ====
section
/-! DEFINITION. From a command word to a command and back, over the one format of 30_encoding.md R90; the opcode map
of R93 as a list of rows; and the decoder on the opcode table's numbering. -/

namespace Sys2Proof

/-! ## The fields of a command word (30_encoding.md R90) -/

/-- `OPC`, bits [7:0]. -/
def opcOf (w : Word) : BitVec 8 := w.extractLsb' 0 8

/-- `F1`, bits [11:8]. -/
def f1Of (w : Word) : BitVec 4 := w.extractLsb' 8 4

/-- `F2`, bits [15:12]. -/
def f2Of (w : Word) : BitVec 4 := w.extractLsb' 12 4

/-- `MASK`, bits [31:16]. -/
def maskFieldOf (w : Word) : BitVec 16 := w.extractLsb' 16 16

/-- The word `{MASK, F2, F1, OPC}`. -/
def packWord (mask : BitVec 16) (f2 f1 : BitVec 4) (opc : BitVec 8) : Word :=
  (mask.setWidth 32 <<< 16) ||| (f2.setWidth 32 <<< 12) ||| (f1.setWidth 32 <<< 8) ||| opc.setWidth 32

/-! ## Decoding -/

/-- Why a word is no command (30_encoding.md R95). -/
inductive DecodeError where
  /-- The opcode stands in no row of the map. -/
  | unassignedOpcode
  /-- A listed opcode with a nonzero bit in a field that its row requires to be 0. -/
  | nonzeroField
  deriving DecidableEq, Repr

/-- `i` if the fields that its row does not use are all 0 (30_encoding.md R90, R95). -/
def unusedZero (ok : Bool) (i : Instr) : Except DecodeError Instr :=
  if ok then .ok i else .error .nonzeroField

/-- The command of a word, or why it is illegal (30_encoding.md R93 to R97). It reads the word and nothing else. -/
def decode (w : Word) : Except DecodeError Instr :=
  let f1 := f1Of w
  let f2 := f2Of w
  let mask := maskFieldOf w
  let plain := f1 == 0 && f2 == 0 && mask == 0
  let maskOnly := f1 == 0 && f2 == 0
  match (opcOf w).toNat with
  | 0x00 => unusedZero plain .nop
  | 0x01 => unusedZero plain .fadd
  | 0x02 => unusedZero plain .fsub
  | 0x03 => unusedZero plain .fmul
  | 0x04 => unusedZero plain .finv
  | 0x05 => unusedZero plain .fdiv
  | 0x10 => unusedZero plain .peval
  | 0x11 => unusedZero plain .padd
  | 0x12 => unusedZero plain .psub
  | 0x13 => unusedZero plain .pmul
  | 0x14 => unusedZero plain .pscale
  | 0x15 => unusedZero plain .pmovq
  | 0x16 => unusedZero plain .pclr
  | 0x20 => unusedZero (f2 == 0) (.basis f1.toNat mask)
  | 0x21 => unusedZero maskOnly (.interp mask)
  | 0x22 => unusedZero maskOnly (.evalsym mask)
  | 0x23 => unusedZero plain .encode
  | 0x24 => unusedZero plain .taggen
  | 0x30 => unusedZero plain .locate
  | 0x31 => unusedZero maskOnly (.validate mask)
  | 0x32 => unusedZero plain .decode
  | 0x40 => unusedZero (mask == 0) (.sbegin f1.toNat f2.toNat)
  | 0x41 => unusedZero (mask == 0) (.benc f1.toNat f2.toNat)
  | 0x42 => unusedZero (mask == 0) (.bdec f1.toNat f2.toNat)
  | 0x43 => unusedZero plain .send
  | _ => .error .unassignedOpcode

/-! ## Encoding -/

/-- The opcode of a command (30_encoding.md R93). -/
def opcodeOf : Instr → BitVec 8
  | .nop => 0x00
  | .fadd => 0x01
  | .fsub => 0x02
  | .fmul => 0x03
  | .finv => 0x04
  | .fdiv => 0x05
  | .peval => 0x10
  | .padd => 0x11
  | .psub => 0x12
  | .pmul => 0x13
  | .pscale => 0x14
  | .pmovq => 0x15
  | .pclr => 0x16
  | .basis _ _ => 0x20
  | .interp _ => 0x21
  | .evalsym _ => 0x22
  | .encode => 0x23
  | .taggen => 0x24
  | .locate => 0x30
  | .validate _ => 0x31
  | .decode => 0x32
  | .sbegin _ _ => 0x40
  | .benc _ _ => 0x41
  | .bdec _ _ => 0x42
  | .send => 0x43

/-- The `MASK` field of a command, 0 where its row uses none. -/
def maskField : Instr → BitVec 16
  | .basis _ xs => xs
  | .interp xs => xs
  | .evalsym targets => targets
  | .validate subset => subset
  | _ => 0

/-- The `F1` field of a command, 0 where its row uses none. -/
def f1Field : Instr → Nat
  | .basis one _ => one
  | .sbegin mode _ => mode
  | .benc k _ => k
  | .bdec k _ => k
  | _ => 0

/-- The `F2` field of a command, 0 where its row uses none. -/
def f2Field : Instr → Nat
  | .sbegin _ f2 => f2
  | .benc _ f2 => f2
  | .bdec _ h => h
  | _ => 0

/-- The word of a well-formed command (30_encoding.md R90, R98). -/
def encode (i : Instr) : Word :=
  packWord (maskField i) (BitVec.ofNat 4 (f2Field i)) (BitVec.ofNat 4 (f1Field i)) (opcodeOf i)

/-! ## The opcode map as the spec prints it -/

/-- One row of the opcode map: a word selects it when `(word & mask) == pattern`. -/
structure OpcodeRow where
  mnemonic : String
  pattern : Word
  mask : Word
  deriving DecidableEq, Repr

/-- The word selects the row (30_encoding.md R93). -/
def OpcodeRow.selects (row : OpcodeRow) (w : Word) : Bool := (w &&& row.mask) == row.pattern

/-- Rows of the commands that use no field (30_encoding.md R93). -/
def plainRows : List OpcodeRow :=
  [⟨"NOP", 0x00, 0xFFFFFFFF⟩, ⟨"FADD", 0x01, 0xFFFFFFFF⟩, ⟨"FSUB", 0x02, 0xFFFFFFFF⟩, ⟨"FMUL", 0x03, 0xFFFFFFFF⟩,
   ⟨"FINV", 0x04, 0xFFFFFFFF⟩, ⟨"FDIV", 0x05, 0xFFFFFFFF⟩, ⟨"PEVAL", 0x10, 0xFFFFFFFF⟩, ⟨"PADD", 0x11, 0xFFFFFFFF⟩,
   ⟨"PSUB", 0x12, 0xFFFFFFFF⟩, ⟨"PMUL", 0x13, 0xFFFFFFFF⟩, ⟨"PSCALE", 0x14, 0xFFFFFFFF⟩,
   ⟨"PMOVQ", 0x15, 0xFFFFFFFF⟩, ⟨"PCLR", 0x16, 0xFFFFFFFF⟩, ⟨"ENCODE", 0x23, 0xFFFFFFFF⟩,
   ⟨"TAGGEN", 0x24, 0xFFFFFFFF⟩, ⟨"LOCATE", 0x30, 0xFFFFFFFF⟩, ⟨"DECODE", 0x32, 0xFFFFFFFF⟩,
   ⟨"SEND", 0x43, 0xFFFFFFFF⟩]

/-- Rows of the commands that use a field (30_encoding.md R93). -/
def fieldRows : List OpcodeRow :=
  [⟨"BASIS", 0x20, 0x0000F0FF⟩, ⟨"INTERP", 0x21, 0x0000FFFF⟩, ⟨"EVALSYM", 0x22, 0x0000FFFF⟩,
   ⟨"VALIDATE", 0x31, 0x0000FFFF⟩, ⟨"SBEGIN", 0x40, 0xFFFF00FF⟩, ⟨"BENC", 0x41, 0xFFFF00FF⟩,
   ⟨"BDEC", 0x42, 0xFFFF00FF⟩]

/-- The opcode map (30_encoding.md R93). -/
def opcodeRows : List OpcodeRow := plainRows ++ fieldRows

/-- The mnemonic of a command (30_encoding.md R93). -/
def mnemonicOf : Instr → String
  | .nop => "NOP"
  | .fadd => "FADD"
  | .fsub => "FSUB"
  | .fmul => "FMUL"
  | .finv => "FINV"
  | .fdiv => "FDIV"
  | .peval => "PEVAL"
  | .padd => "PADD"
  | .psub => "PSUB"
  | .pmul => "PMUL"
  | .pscale => "PSCALE"
  | .pmovq => "PMOVQ"
  | .pclr => "PCLR"
  | .basis _ _ => "BASIS"
  | .interp _ => "INTERP"
  | .evalsym _ => "EVALSYM"
  | .encode => "ENCODE"
  | .taggen => "TAGGEN"
  | .locate => "LOCATE"
  | .validate _ => "VALIDATE"
  | .decode => "DECODE"
  | .sbegin _ _ => "SBEGIN"
  | .benc _ _ => "BENC"
  | .bdec _ _ => "BDEC"
  | .send => "SEND"

/-! ## The decoder on the opcode table's numbering -/

/-- The word of an instruction whose low `nbits` bits are `w`, every bit above them 0. -/
def tableWord (nbits w : Nat) : Word := BitVec.ofNat 32 (w % 2 ^ nbits)

/-- What the decoder reads from an opcode-table word. A command is one 32-bit word, so bit `i` of the table is bit `i`
of the word the host writes (20_memory.md R62). -/
def decodeTableWord (nbits w : Nat) : Option Instr := (decode (tableWord nbits w)).toOption

end Sys2Proof
end

