-- ==== Sys2Proof/Config.lean ====
section
/-! DEFINITION. What is fixed for this hardware: the parameters of 00_scope.md R8 (`NSYM` and `NCOEF` are also the
lengths of the array types of Word.lean), the identity, and the one platform parameter the spec leaves open. -/

namespace Sys2Proof.Config

/-- `MAX_DEGREE` (00_scope.md R8). -/
def maxDegree : Nat := 13

/-- `NCOEF`, the coefficient slots of a polynomial register (00_scope.md R8). -/
def ncoef : Nat := 14

/-- `N_MAX`, the most data symbols of a block (00_scope.md R8). -/
def nMax : Nat := 10

/-- `E_MAX`, the most redundant symbols of a block (00_scope.md R8). -/
def eMax : Nat := 5

/-- The constant that `ID` reads (00_scope.md R2, 10_state.md R24). -/
def idValue : Word := 0x47460107

/-- `GFC_BASE`, where a platform puts the register window in its host's byte addresses (20_memory.md R61; open, a
parameter: 93_implementation_defined.md I9; log 6). It has no body, so no proof can rest on a value of it. -/
opaque gfcBase : Nat

end Sys2Proof.Config
end

