-- ==== Sys2Proof/Machine/Field.lean ====
section
/-! DEFINITION. Arithmetic of the prime field of 257 elements (00_scope.md R12, 41_field_alu.md R143, R146): the exact
integer operation, then the reduction mod 257. -/

namespace Sys2Proof.Machine

/-- `v mod 257` of an unsigned integer (00_scope.md R12). -/
def reduce (v : Nat) : F := ⟨v % 257, Nat.mod_lt v (by decide)⟩

/-- `z mod 257` of an integer: a negative value normalises into `F` (00_scope.md R12). -/
def reduceInt (z : Int) : F := ⟨(z % 257).toNat, by omega⟩

/-- `a +f b` (00_scope.md R12). -/
def fieldAdd (a b : F) : F := reduce (a.val + b.val)

/-- `a -f b` (00_scope.md R12). -/
def fieldSub (a b : F) : F := reduceInt ((a.val : Int) - (b.val : Int))

/-- `a *f b` (00_scope.md R12). -/
def fieldMul (a b : F) : F := reduce (a.val * b.val)

/-- The loop of the Extended Euclidean Algorithm, `t0` at its end (41_field_alu.md R143). The fuel bounds the number of
turns, and `r1` falls at each one. -/
def euclid : Nat → Nat → Nat → Int → Int → Int
  | 0, _, _, t0, _ => t0
  | fuel + 1, r0, r1, t0, t1 =>
    if r1 = 0 then t0
    else euclid fuel r1 (r0 - r0 / r1 * r1) t1 (t0 - ((r0 / r1 : Nat) : Int) * t1)

/-- `inv(b)` for a nonzero `b` (41_field_alu.md R143). At 0, where there is no inverse, no command uses its value. -/
def inv (b : F) : F := reduceInt (euclid 257 257 b.val 0 1)

/-- `inv(b)` as a checked operation: no value at 0, `NoInverse` (41_field_alu.md R143). -/
def inv? (b : F) : Option F := if b = 0 then none else some (inv b)

end Sys2Proof.Machine
end

