-- ==== Sys2Proof/Machine/PolyArith.lean ====
section
/-! DEFINITION. Polynomials of degree at most 13 over the field, as coefficient arrays (00_scope.md R14,
42_polynomial.md R160, R164, R166, R170). -/

namespace Sys2Proof.Machine

/-- `c[i]`, and 0 above the array (42_polynomial.md R160: "Coefficients above `deg(c)` are 0"). -/
def coeff (p : Coeffs) (i : Nat) : F := p[i]?.getD 0

/-- The array whose slot `i` is `f i`. -/
def polyOf (f : Nat → F) : Coeffs := Vector.ofFn fun i => f i.val

/-- The zero polynomial (42_polynomial.md R169). -/
def zeroPoly : Coeffs := polyOf fun _ => 0

/-- The constant polynomial `v`. -/
def constPoly (v : F) : Coeffs := polyOf fun i => if i = 0 then v else 0

/-- `x - x0`, the array `[(-x0) mod 257, 1]` (43_interpolation_encoder.md R193). -/
def linearFactor (x0 : Nat) : Coeffs :=
  polyOf fun i => if i = 0 then reduceInt (-(x0 : Int)) else if i = 1 then 1 else 0

/-- Every coefficient is 0. -/
def isZeroPoly (c : Coeffs) : Bool := c.toList.all (· == 0)

/-- `deg(c)`: the largest `i` with `c[i] != 0`, and 0 for the zero polynomial (00_scope.md R14). -/
def deg (c : Coeffs) : Nat :=
  (List.range Config.ncoef).foldl (fun d i => if coeff c i = 0 then d else i) 0

/-- `eval(c, x)` by Horner's method, from `deg(c)` down to 0 (42_polynomial.md R160). -/
def eval (c : Coeffs) (x : F) : F :=
  (List.range (deg c + 1)).foldr (fun i acc => fieldAdd (fieldMul acc x) (coeff c i)) 0

/-- Lane-wise sum (42_polynomial.md R162, R170). -/
def polyAdd (c d : Coeffs) : Coeffs := polyOf fun i => fieldAdd (coeff c i) (coeff d i)

/-- Lane-wise difference (42_polynomial.md R163, R170). -/
def polySub (c d : Coeffs) : Coeffs := polyOf fun i => fieldSub (coeff c i) (coeff d i)

/-- Lane-wise product with a scalar (42_polynomial.md R167, R170). -/
def polyScale (v : F) (c : Coeffs) : Coeffs := polyOf fun i => fieldMul v (coeff c i)

/-- The product, where it does not overflow: lane `k` sums the products of lanes `i` and `k - i` (42_polynomial.md
R165, R170; log 7). -/
def polyMul (c d : Coeffs) : Coeffs :=
  polyOf fun k =>
    (List.range (k + 1)).foldl (fun acc i => fieldAdd acc (fieldMul (coeff c i) (coeff d (k - i)))) 0

/-- The product's true degree exceeds `MAX_DEGREE`; a zero factor never overflows (42_polynomial.md R166). -/
def mulOverflows (c d : Coeffs) : Bool :=
  !isZeroPoly c && !isZeroPoly d && decide (deg c + deg d > Config.maxDegree)

end Sys2Proof.Machine
end

