-- ==== Sys2Proof/Machine/State.lean ====
section
/-! DEFINITION. The state of the core (10_state.md R21), the host's side of the bus, and the ways a step can stop. -/

namespace Sys2Proof.Machine

/-- The error codes of `STATUS.ERR` (60_exceptions.md R300). Codes 10 to 15 are never written (R301), so they have no
constructor (log 9). -/
inductive ErrCode where
  | none | noInverse | degreeOverflow | encodingFailed | uncorrectable | fileMisaligned
  | illegalCmd | badOperand | sequence | config
  deriving DecidableEq, Repr

/-- `STATUS.DSTAT`, the decoder's return contract (10_state.md R27). -/
inductive DStat where
  /-- 0, "no error found". -/
  | clean
  /-- 1, "error found and corrected". -/
  | corrected
  /-- No decode since reset or since the last `SBEGIN`. -/
  | none
  /-- -1, "uncorrectable". -/
  | uncorrectable
  deriving DecidableEq, Repr

/-- `STATUS.SESS`, the session state machine's state (10_state.md R40). 3 is never held (45_block_codec.md R259), so it
has no constructor (log 9). -/
inductive Session where
  | idle | enc | dec
  deriving DecidableEq, Repr

/-- The fields of `CFG` (10_state.md R25). -/
structure Cfg where
  n : BitVec 4
  e : BitVec 3
  trust : Bool
  deriving DecidableEq, Repr

/-- The fields of `DINFO`; its other bits are reserved and 0 (10_state.md R36). -/
structure DInfo where
  mask : BitVec 16
  m : BitVec 4
  subs : BitVec 3
  pass : BitVec 2
  deriving DecidableEq, Repr

/-- `DINFO` after reset and after a decode that returned -1: `PASS` is 3 and all else 0 (10_state.md R36). -/
def DInfo.noneAccepted : DInfo := ⟨0, 0, 0, 3⟩

/-- One event on the core's inputs (00_scope.md R13, R19): `MemRead(addr, n)`, `MemWrite(addr, n, v)` and the reset
input. The core itself carries only words at word offsets (20_memory.md R62, R63): any other access is refused by
name. -/
inductive BusAccess where
  | read (off nbytes : Nat)
  | write (off nbytes : Nat) (v : Word)
  | reset
  deriving DecidableEq, Repr

/-- The whole state: the record of 10_state.md R21, then the host's side of the bus. -/
structure State where
  /-- `CFG` (R25). -/
  cfg : Cfg
  /-- `CMD_LAST`, the last word written to `CMD` (R26). -/
  cmdLast : Word
  /-- `STATUS.ERR` (R27). -/
  err : ErrCode
  /-- `STATUS.DSTAT` (R27). -/
  dstat : DStat
  /-- `STATUS.SESS` (R27, R40). -/
  sess : Session
  /-- `STATUS.MIS` (R27, R40). -/
  mis : Bool
  /-- `INT_PEND.DONE` (R28). -/
  pendDone : Bool
  /-- `INT_PEND.ERR` (R28). -/
  pendErr : Bool
  /-- `INT_EN.DONE` (R29). -/
  enDone : Bool
  /-- `INT_EN.ERR` (R29). -/
  enErr : Bool
  /-- `A` (R23). -/
  a : F
  /-- `B` (R23). -/
  b : F
  /-- `R` (R30). -/
  r : BitVec 16
  /-- `TAG` (R31). -/
  tag : Byte
  /-- `BLKCNT` (R32). -/
  blkcnt : Word
  /-- `BYTECNT` (R33). -/
  bytecnt : Word
  /-- `FAILCNT` (R34). -/
  failcnt : Word
  /-- The offset that `LASTFAIL` holds; it reads as 0 while `FAILCNT` is 0 (R35; log 12). -/
  lastfail : Word
  /-- `DINFO` (R36). -/
  dinfo : DInfo
  /-- `SYM[0..15]` (R22). -/
  sym : SymbolBuf
  /-- `P[0..13]` (R38). -/
  p : Coeffs
  /-- `Q[0..13]` (R39). -/
  q : Coeffs
  /-- The host's accesses that have not happened yet, the next one first (00_scope.md R18; log 1). -/
  bus : List BusAccess
  /-- The word the last bus read returned (00_scope.md R19; log 2). -/
  rdata : Word
  deriving DecidableEq, Repr

/-- Faults of a step. There are none: no bus access fails and no error stops the core (60_exceptions.md R304, R305;
log 10). -/
inductive Fault where
  deriving DecidableEq, Repr

/-- Why a step has no meaning. -/
inductive Refusal where
  /-- Raised by an arm of `exec` whose instruction has no meaning in the model yet. Safe. No arm raises it. -/
  | notModelled (mnemonic : String)
  /-- Raised by a bus access that is not a full 32-bit word. Safe: the interface cannot express one and the spec asks a
  model to refuse it (20_memory.md R62, 93_implementation_defined.md I10; log 4). -/
  | notFullWord
  /-- Raised by a word access at an offset that is no multiple of 4. Safe, as above (20_memory.md R63; log 4). -/
  | misaligned
  /-- Raised by a word access at an offset above 0x0FC. Safe, as above (20_memory.md R60; log 4). -/
  | outsideWindow
  deriving DecidableEq, Repr

/-- The outcome of a meaning or of a step. -/
abbrev Result := Host.Outcome State Fault Refusal

/-- The state right after reset: every value is the spec's (10_state.md R21, 70_reset_and_hazards.md R340). The host's
side lists no access (log 1), and `rdata` is 0 (R341; log 2). -/
def State.reset : State where
  cfg := ⟨4, 3, true⟩
  cmdLast := 0
  err := .none
  dstat := .none
  sess := .idle
  mis := false
  pendDone := false
  pendErr := false
  enDone := false
  enErr := false
  a := 0
  b := 0
  r := 0
  tag := 0
  blkcnt := 0
  bytecnt := 0
  failcnt := 0
  lastfail := 0
  dinfo := DInfo.noneAccepted
  sym := Vector.replicate 16 0
  p := Vector.replicate 14 0
  q := Vector.replicate 14 0
  bus := []
  rdata := 0

end Sys2Proof.Machine
end

