-- ==== Sys2Proof/Machine/Operands.lean ====
section
/-! DEFINITION. The operand forms of the commands: abscissa masks, symbols of the buffer, and the block geometry that
`CFG` gives (00_scope.md R9, R14, 30_encoding.md R91). -/

namespace Sys2Proof.Machine

/-- Bit `i` of a mask: abscissa `i` is selected (30_encoding.md R90). -/
def maskHas (m : BitVec 16) (i : Nat) : Bool := m.getLsbD i

/-- `bits(m)`, the selected abscissas in ascending order (00_scope.md R14). -/
def bits (m : BitVec 16) : List Nat := (List.range 16).filter (maskHas m)

/-- `popcount(m)` (00_scope.md R14). -/
def popcount (m : BitVec 16) : Nat := (bits m).length

/-- `mask(S)` (00_scope.md R14). -/
def maskOf (S : List Nat) : BitVec 16 := S.foldl (fun m i => m ||| (1#16 <<< i)) 0

/-- `v[7:0]` of a field element: the byte it is stored as (20_memory.md R77). -/
def lowByte (v : F) : Byte := BitVec.ofNat 8 v.val

/-- `{hi, lo}` of two four-bit fields (00_scope.md R11). -/
def nibbles (hi lo : BitVec 4) : Byte := (hi.setWidth 8 <<< 4) ||| lo.setWidth 8

/-- Symbol `x` of a word of symbols, 0 above its end (log 8). -/
def symbolAt (w : List F) (x : Nat) : F := w.getD x 0

/-- `N`, data symbols of a block (00_scope.md R9). -/
def Cfg.dataLen (c : Cfg) : Nat := c.n.toNat

/-- `E`, redundant symbols of a block (00_scope.md R9). -/
def Cfg.redundantLen (c : Cfg) : Nat := c.e.toNat

/-- `L = N + E`, symbols of a codeword without the tag (00_scope.md R9). -/
def Cfg.codeLen (c : Cfg) : Nat := c.dataLen + c.redundantLen

/-- A legal configuration (00_scope.md R10). -/
def Cfg.legal (c : Cfg) : Bool :=
  decide (1 ≤ c.dataLen) && decide (c.dataLen ≤ Config.nMax) &&
  decide (1 ≤ c.redundantLen) && decide (c.redundantLen ≤ Config.eMax) &&
  (!c.trust || decide (c.redundantLen ≤ c.dataLen))

/-- The mask of the data side, `mask{0..N-1}`. -/
def Cfg.dataMask (c : Cfg) : BitVec 16 := maskOf (List.range c.dataLen)

/-- All sixteen symbols. -/
def State.symbols (s : State) : List F := s.sym.toList

/-- `SYM[0..L-1]`, the codeword or received word of the configuration (44_decoder.md R220). -/
def State.received (s : State) : List F := s.symbols.take s.cfg.codeLen

/-- Some symbol of `SYM[0..k-1]` is 256, which no data byte is (43_interpolation_encoder.md R197). -/
def State.dataHas256 (s : State) (k : Nat) : Bool := (s.symbols.take k).any (· == 256)

/-- The buffer with `word[x]` in slot `x` for each `x` below its length, the other slots unchanged. -/
def writeSymbols (sym : SymbolBuf) (word : List F) : SymbolBuf :=
  Vector.ofFn fun i => (word[i.val]?).getD sym[i]

end Sys2Proof.Machine
end

