-- ==== Sys2Proof/Machine/Flags.lean ====
section
/-! DEFINITION. The flags and the words that status registers read as (10_state.md R25, R27 to R29, R36, R37, R42). -/

namespace Sys2Proof.Machine

/-- The number of an error code (60_exceptions.md R300). -/
def ErrCode.code : ErrCode → BitVec 4
  | .none => 0
  | .noInverse => 1
  | .degreeOverflow => 2
  | .encodingFailed => 3
  | .uncorrectable => 4
  | .fileMisaligned => 5
  | .illegalCmd => 6
  | .badOperand => 7
  | .sequence => 8
  | .config => 9

/-- The two bits of `STATUS.DSTAT` (10_state.md R27). -/
def DStat.code : DStat → BitVec 2
  | .clean => 0
  | .corrected => 1
  | .none => 2
  | .uncorrectable => 3

/-- The two bits of `STATUS.SESS` (10_state.md R27). -/
def Session.code : Session → BitVec 2
  | .idle => 0
  | .enc => 1
  | .dec => 2

/-- `STATUS.BUSY`: 0 at every host access (10_state.md R27, 40_command_execution.md R121). -/
def busyBit : BitVec 1 := 0

/-- A field of a register word, at the bits from `lo` up; the word is 0 elsewhere. -/
def fieldAt {width : Nat} (lo : Nat) (v : BitVec width) : Word := v.setWidth 32 <<< lo

/-- What `STATUS` reads as (10_state.md R27). -/
def statusWord (s : State) : Word :=
  fieldAt 0 busyBit ||| fieldAt 4 s.err.code ||| fieldAt 8 s.dstat.code ||| fieldAt 10 s.sess.code |||
    fieldAt 12 (BitVec.ofBool s.mis)

/-- What `CFG` reads as (10_state.md R25). -/
def cfgWord (c : Cfg) : Word := fieldAt 0 c.n ||| fieldAt 4 c.e ||| fieldAt 8 (BitVec.ofBool c.trust)

/-- The fields of a word written to `CFG`; bits [7] and [31:9] are ignored (10_state.md R25). -/
def cfgOfWord (v : Word) : Cfg := ⟨v.extractLsb' 0 4, v.extractLsb' 4 3, v.getLsbD 8⟩

/-- What `INT_PEND` reads as (10_state.md R28). -/
def intPendWord (s : State) : Word := fieldAt 0 (BitVec.ofBool s.pendDone) ||| fieldAt 1 (BitVec.ofBool s.pendErr)

/-- What `INT_EN` reads as (10_state.md R29). -/
def intEnWord (s : State) : Word := fieldAt 0 (BitVec.ofBool s.enDone) ||| fieldAt 1 (BitVec.ofBool s.enErr)

/-- What `DINFO` reads as (10_state.md R36). -/
def dinfoWord (d : DInfo) : Word := fieldAt 0 d.mask ||| fieldAt 16 d.m ||| fieldAt 20 d.subs ||| fieldAt 24 d.pass

/-- What `DEGS` reads as: computed from `P` and `Q` at each read (10_state.md R37). -/
def degsWord (s : State) : Word := fieldAt 0 (BitVec.ofNat 4 (deg s.p)) ||| fieldAt 8 (BitVec.ofNat 4 (deg s.q))

/-- What `LASTFAIL` reads as: the last failed block's offset, and 0 while `FAILCNT` is 0 (10_state.md R35; log 12). -/
def lastfailWord (s : State) : Word := if s.failcnt = 0 then 0 else s.lastfail

/-- The level output `irq` (60_exceptions.md R310). -/
def State.irq (s : State) : Bool := (s.pendDone && s.enDone) || (s.pendErr && s.enErr)

end Sys2Proof.Machine
end

