-- ==== Sys2Proof/Machine/Ops.lean ====
section
/-! DEFINITION. The shared operations of the commands: how a command completes and what an error records
(40_command_execution.md R120, 60_exceptions.md R302, R311), how the host clears a pending bit (R314), the `CFG` write
(R306), and the bookkeeping of the block codec. -/

namespace Sys2Proof.Machine

/-! ## Completion, errors, interrupts -/

/-- The end of every command: `STATUS.ERR` takes the outcome's code, `INT_PEND.DONE` is set, and `INT_PEND.ERR` is set on
an error (40_command_execution.md R120, R122; 10_state.md R28). Taking an error is nothing more: it transfers no control
and saves no other state (60_exceptions.md R302, R313). -/
def complete (e : ErrCode) (s : State) : State :=
  { s with err := e, pendDone := true, pendErr := s.pendErr || e != .none }

/-- A meaning's outcome: the command completes with code `e` on the state its rule leaves. -/
def finish (e : ErrCode) (s : State) : Result := .next (complete e s)

/-- A host write of `v` to `INT_PEND` clears the bits written as 1 (10_state.md R28). It is all there is of a return from
an error (60_exceptions.md R314). -/
def clearPending (v : Word) (s : State) : State :=
  { s with pendDone := s.pendDone && !v.getLsbD 0, pendErr := s.pendErr && !v.getLsbD 1 }

/-- A rejected `CFG` write records its code and `INT_PEND.ERR`, and nothing else (60_exceptions.md R306). -/
def rejectCfg (e : ErrCode) (s : State) : State := { s with err := e, pendErr := true }

/-- A host write of `v` to `CFG` (60_exceptions.md R306). -/
def writeCfg (v : Word) (s : State) : State :=
  if s.sess ≠ .idle then rejectCfg .sequence s
  else if !(cfgOfWord v).legal then rejectCfg .config s
  else { s with cfg := cfgOfWord v }

/-! ## Result register -/

/-- `R <- zext_16(v)` of a field element (10_state.md R30). -/
def setResultF (v : F) (s : State) : State := { s with r := BitVec.ofNat 16 v.val }

/-! ## Block-codec bookkeeping (45_block_codec.md R260 to R266) -/

/-- The state of a freshly opened session (45_block_codec.md R260). -/
def openSession (mode : Session) (s : State) : State :=
  { s with blkcnt := 0, bytecnt := 0, failcnt := 0, lastfail := 0, mis := false, dstat := .none, sess := mode }

/-- `SYM[i] <- 0` for `i` in `k..N-1`: the zero padding of a short chunk (45_block_codec.md R261, R263). -/
def padBlock (k : Nat) (s : State) : State :=
  { s with sym := Vector.ofFn fun i => if k ≤ i.val ∧ i.val < s.cfg.dataLen then 0 else s.sym[i] }

/-- One block of `k` bytes is counted, modulo 2^32 (45_block_codec.md R261, R263). -/
def countBlock (k : Nat) (s : State) : State :=
  { s with blkcnt := s.blkcnt + 1, bytecnt := s.bytecnt + BitVec.ofNat 32 k }

/-- A failed block at byte offset `off` is counted and logged (45_block_codec.md R261, R263). -/
def recordFail (off : Word) (s : State) : State := { s with failcnt := s.failcnt + 1, lastfail := off }

end Sys2Proof.Machine
end

