-- ==== Sys2Proof/Machine/Encoder.lean ====
section
/-! DEFINITION. Interpolation, encoder and tag: `BASIS`, `INTERP`, `EVALSYM`, `ENCODE`, `TAGGEN`
(43_interpolation_encoder.md R190 to R202). -/

namespace Sys2Proof.Machine

/-! ## Lagrange interpolation -/

/-- One factor of a basis polynomial: `b * (x - xi)`, `DEGREE_OVERFLOW` above degree 13 (R193). -/
def timesFactor (b : Coeffs) (xi : Nat) : Except ErrCode Coeffs :=
  if deg b + 1 > Config.maxDegree then .error .degreeOverflow else .ok (polyMul b (linearFactor xi))

/-- The product of `(x - xi)` over a list of abscissas (R193). -/
def factorProduct (xs : List Nat) : Except ErrCode Coeffs := xs.foldlM timesFactor (constPoly 1)

/-- `basis(one, m, y)` (R193). -/
def basis (one : Nat) (m : BitVec 16) (y : F) : Except ErrCode Coeffs :=
  match factorProduct ((bits m).filter (· != one)) with
  | .error e => .error e
  | .ok b =>
    match inv? (eval b (reduce one)) with
    | none => .error .noInverse
    | some n => .ok (polyScale (fieldMul y n) b)

/-- One step of the sum of basis polynomials (R199). -/
def addBasis (m : BitVec 16) (w : List F) (acc : Coeffs) (one : Nat) : Except ErrCode Coeffs :=
  match basis one m (symbolAt w one) with
  | .error e => .error e
  | .ok b => .ok (polyAdd acc b)

/-- `interp(m, s)` through the symbols of the word `w` (R199). -/
def interp (m : BitVec 16) (w : List F) : Except ErrCode Coeffs :=
  if popcount m ≥ 15 then .error .degreeOverflow else (bits m).foldlM (addBasis m w) zeroPoly

/-! ## The tag -/

/-- `parity9(v)`: the XOR of bits 0 to 8 (R190). -/
def parity9 (v : F) : Bool := (List.range 9).foldl (fun acc i => acc ^^ v.val.testBit i) false

/-- `loc(s)`: the XOR of the abscissas whose symbol has odd parity (R190). -/
def locator (w : List F) : BitVec 4 :=
  (List.range w.length).foldl (fun acc i => if parity9 (symbolAt w i) then acc ^^^ BitVec.ofNat 4 i else acc) 0

/-- One bit of the CRC (R191). -/
def crcBit (c : BitVec 16) : BitVec 16 := if c.getLsbD 15 then (c <<< 1) ^^^ 0x1021#16 else c <<< 1

/-- One byte of the CRC, most significant bit first (R191). -/
def crcByte (c : BitVec 16) (b : Byte) : BitVec 16 :=
  (List.range 8).foldl (fun c _ => crcBit c) (c ^^^ (b.setWidth 16 <<< 8))

/-- `crc16` (R191). -/
def crc16 (bytes : List Byte) : BitVec 16 := bytes.foldl crcByte 0xFFFF#16

/-- `tag(s)` of the codeword `w`, whose redundant symbols start at `n` (R192). -/
def tagOf (n : Nat) (w : List F) : Byte :=
  nibbles ((crc16 ((w.drop n).map lowByte)).extractLsb' 12 4) (locator w)

/-! ## Encoding -/

/-- `eval(p, x)` for `x` in `0..L-1` (R197). -/
def codeword (p : Coeffs) (len : Nat) : List F := (List.range len).map fun x => eval p (reduce x)

/-- The body of `ENCODE` from its interpolation on (R197): the code, and the state it leaves. -/
def encodeBody (s : State) : ErrCode × State :=
  match interp s.cfg.dataMask s.symbols with
  | .error _ => (.encodingFailed, s)
  | .ok p =>
    (.none, { s with sym := writeSymbols s.sym (codeword p s.cfg.codeLen)
                     tag := tagOf s.cfg.dataLen (codeword p s.cfg.codeLen) })

/-! ## Commands -/

/-- `P <- r`, or the error with `P` unchanged (R194, R195). -/
def loadP (r : Except ErrCode Coeffs) (s : State) : Result :=
  match r with
  | .error e => finish e s
  | .ok p => finish .none { s with p := p }

/-- `BASIS one, xs` (R194). -/
def execBasis (one : Nat) (xs : BitVec 16) (s : State) : Result :=
  if !maskHas xs one then finish .badOperand s
  else loadP (basis one xs (symbolAt s.symbols one)) s

/-- `INTERP xs` (R195). -/
def execInterp (xs : BitVec 16) (s : State) : Result := loadP (interp xs s.symbols) s

/-- `EVALSYM targets` (R196). -/
def execEvalsym (targets : BitVec 16) (s : State) : Result :=
  finish .none
    { s with sym := Vector.ofFn fun i => if maskHas targets i.val then eval s.p (reduce i.val) else s.sym[i] }

/-- `ENCODE` (R197). -/
def execEncode (s : State) : Result :=
  if s.dataHas256 s.cfg.dataLen then finish .badOperand s
  else finish (encodeBody s).1 (encodeBody s).2

/-- `TAGGEN` (R198): `TAG` is not written. -/
def execTaggen (s : State) : Result :=
  finish .none { s with r := (tagOf s.cfg.dataLen s.received).setWidth 16 }

end Sys2Proof.Machine
end

