-- ==== Sys2Proof/Machine/Decoder.lean ====
section
/-! DEFINITION. The combinatorial decoder: `LOCATE`, `VALIDATE`, `DECODE` (44_decoder.md R220 to R243). -/

namespace Sys2Proof.Machine

/-! ## One candidate -/

/-- What `cand(S, r)` returns (44_decoder.md R223). -/
structure Candidate where
  /-- The candidate polynomial. -/
  p : Coeffs
  /-- Its value at every abscissa of the codeword. -/
  c : List F
  /-- Abscissas outside the subset where it differs from the word. -/
  m : Nat
  /-- Those of them on the trusted side. -/
  tm : Nat
  deriving DecidableEq, Repr

/-- Abscissa `x` is outside the subset `S`, and the codeword `c` differs from the word `r` there (R223). -/
def mismatchAt (S : List Nat) (c r : List F) (x : Nat) : Bool :=
  !S.contains x && symbolAt c x != symbolAt r x

/-- `cand(S, r)`, no value where the interpolation fails (R223). -/
def cand (cfg : Cfg) (S : List Nat) (r : List F) : Option Candidate :=
  match interp (maskOf S) r with
  | .error _ => none
  | .ok p =>
    let c := codeword p cfg.codeLen
    some ⟨p, c, (List.range cfg.codeLen).countP (mismatchAt S c r),
      (List.range' cfg.dataLen cfg.redundantLen).countP (mismatchAt S c r)⟩

/-- The verdict on a candidate, from its mismatch counts and its codeword (R224, with R231 to R234): `sub` says that the
word carries a substitution, `t` is the received tag. -/
def accepts (cfg : Cfg) (t : Byte) (sub : Bool) (k : Candidate) : Bool :=
  if cfg.trust && decide (k.tm > 0) then false
  else if k.m ≥ cfg.redundantLen then false
  else if k.m = 0 ∧ sub = false then true
  else if (k.c.take cfg.dataLen).any (· == 256) then false
  else if cfg.trust && tagOf cfg.dataLen k.c != t then false
  else true

/-- `consider(S, r, sub)`: the candidate, if it is accepted (R224). -/
def consider (cfg : Cfg) (t : Byte) (r : List F) (sub : Bool) (S : List Nat) : Option Candidate :=
  match cand cfg S r with
  | none => none
  | some k => if accepts cfg t sub k then some k else none

/-! ## Search order -/

/-- The `k`-element sublists of a list, in lexicographic order (00_scope.md R15). -/
def choose : List Nat → Nat → List (List Nat)
  | _, 0 => [[]]
  | [], _ + 1 => []
  | x :: xs, k + 1 => (choose xs k).map (x :: ·) ++ choose xs (k + 1)

/-- An accepted candidate, its subset and the pass that found it (R235). -/
structure Accepted where
  c : List F
  m : Nat
  subset : List Nat
  pass : BitVec 2
  deriving DecidableEq, Repr

/-- The first accepted candidate among the subsets, in their order (R225, R228 to R230). -/
def searchPass (cfg : Cfg) (t : Byte) (r : List F) (sub : Bool) (pass : BitVec 2) (subsets : List (List Nat)) :
    Option Accepted :=
  subsets.findSome? fun S => (consider cfg t r sub S).map fun k => ⟨k.c, k.m, S, pass⟩

/-- The data side `D = {0..N-1}` (00_scope.md R9). -/
def dataSide (cfg : Cfg) : List Nat := List.range cfg.dataLen

/-- The trusted side `T = {N..L-1}` (00_scope.md R9). -/
def trustedSide (cfg : Cfg) : List Nat := List.range' cfg.dataLen cfg.redundantLen

/-- The locator value of a word: `loc(r) XOR t[3:0]` (R227). -/
def locatorValue (r : List F) (t : Byte) : BitVec 4 := locator r ^^^ t.extractLsb' 0 4

/-- The trust-on candidates: each `(N - E)`-subset from `U`, followed by the whole trusted side (R226). -/
def withTrusted (cfg : Cfg) (U : List (List Nat)) : List (List Nat) := U.map (· ++ trustedSide cfg)

/-- Pass 1: the data-side subsets that avoid the located abscissa (R228). -/
def avoiding (cfg : Cfg) (lv : Nat) : List (List Nat) :=
  withTrusted cfg (choose ((dataSide cfg).filter (· != lv)) (cfg.dataLen - cfg.redundantLen))

/-- Pass 2: the data-side subsets that contain the located abscissa (R229). -/
def containing (cfg : Cfg) (lv : Nat) : List (List Nat) :=
  withTrusted cfg ((choose (dataSide cfg) (cfg.dataLen - cfg.redundantLen)).filter (·.contains lv))

/-- Every data-side subset, for the unrestricted trusted search (R230). -/
def allTrusted (cfg : Cfg) : List (List Nat) :=
  withTrusted cfg (choose (dataSide cfg) (cfg.dataLen - cfg.redundantLen))

/-- `attempt(r, sub)` (R235). -/
def attempt (cfg : Cfg) (t : Byte) (r : List F) (sub : Bool) : Option Accepted :=
  if !cfg.trust then searchPass cfg t r sub 0 (choose (List.range cfg.codeLen) cfg.dataLen)
  else if (locatorValue r t).toNat < cfg.dataLen then
    match searchPass cfg t r sub 1 (avoiding cfg (locatorValue r t).toNat) with
    | some a => some a
    | none => searchPass cfg t r sub 2 (containing cfg (locatorValue r t).toNat)
  else searchPass cfg t r sub 0 (allTrusted cfg)

/-! ## Residue retry -/

/-- `Z`: the trusted-side abscissas that received 0 (R236). -/
def trustedZeros (cfg : Cfg) (ry : List F) : List Nat := (trustedSide cfg).filter fun x => symbolAt ry x == 0

/-- `dfs(Z)`: the nonempty subsets of `Z`, depth first (R237). -/
def dfs : List Nat → List (List Nat)
  | [] => []
  | z :: zs => [z] :: (dfs zs).map (z :: ·) ++ dfs zs

/-- The word with 256 at the abscissas of `sub` (R236, R238). -/
def substitute (ry : List F) (sub : List Nat) : List F :=
  (List.range ry.length).map fun x => if sub.contains x then 256 else symbolAt ry x

/-! ## The decode -/

/-- A decode that did not return -1 (R238). -/
structure Decoded where
  /-- Status 1 rather than 0. -/
  corrected : Bool
  found : Accepted
  /-- Substitutions of the accepted attempt. -/
  subs : Nat
  deriving DecidableEq, Repr

/-- One turn of the decode's loop: the attempt under the substitution set `sub` (R238). -/
def decodeWith (cfg : Cfg) (ry : List F) (t : Byte) (sub : List Nat) : Option Decoded :=
  (attempt cfg t (substitute ry sub) (!sub.isEmpty)).map fun a =>
    ⟨!(decide (a.m = 0) && sub.isEmpty), a, sub.length⟩

/-- `decode(ry, t)`, no value for -1 (R238, R243). -/
def decodeWord (cfg : Cfg) (ry : List F) (t : Byte) : Option Decoded :=
  ([] :: dfs (trustedZeros cfg ry)).findSome? (decodeWith cfg ry t)

/-- The report of an accepted decode (R240, 10_state.md R36). -/
def decodeReport (d : Decoded) : DInfo :=
  ⟨maskOf d.found.subset, BitVec.ofNat 4 d.found.m, BitVec.ofNat 3 d.subs, d.found.pass⟩

/-- The body of `DECODE` (R240): the code, and the state it leaves. -/
def decodeBody (s : State) : ErrCode × State :=
  match decodeWord s.cfg s.received s.tag with
  | none => (.uncorrectable, { s with dstat := .uncorrectable, dinfo := DInfo.noneAccepted })
  | some d =>
    (.none, { s with sym := if d.corrected then writeSymbols s.sym d.found.c else s.sym
                     dstat := if d.corrected then .corrected else .clean
                     dinfo := decodeReport d })

/-! ## Commands -/

/-- `LOCATE` (R221). -/
def execLocate (s : State) : Result :=
  finish .none { s with r := (locatorValue s.received s.tag).setWidth 16 }

/-- The mask names `N` abscissas of the codeword (R222). -/
def subsetLegal (cfg : Cfg) (m : BitVec 16) : Bool :=
  (bits m).all (fun x => decide (x < cfg.codeLen)) && decide (popcount m = cfg.dataLen)

/-- `VALIDATE subset` (R222). -/
def execValidate (subset : BitVec 16) (s : State) : Result :=
  if !subsetLegal s.cfg subset then finish .badOperand s
  else
    match cand s.cfg (bits subset) s.received with
    | none => finish .none { s with r := 0xFFFF }
    | some k =>
      finish .none { s with p := k.p, r := (nibbles (BitVec.ofNat 4 k.tm) (BitVec.ofNat 4 k.m)).setWidth 16 }

/-- `DECODE` (R240). -/
def execDecode (s : State) : Result := finish (decodeBody s).1 (decodeBody s).2

end Sys2Proof.Machine
end

