-- ==== Sys2Proof/Machine/BlockCodec.lean ====
section
/-! DEFINITION. The block codec: `SBEGIN`, `BENC`, `BDEC`, `SEND` (45_block_codec.md R259 to R266). -/

namespace Sys2Proof.Machine

/-- The session that a mode of `SBEGIN` opens (R260). -/
def sessionOfMode (mode : Nat) : Session := if mode = 0 then .enc else .dec

/-- `SBEGIN mode` (R260). -/
def execSbegin (mode f2 : Nat) (s : State) : Result :=
  if s.sess ≠ .idle then finish .sequence s
  else if mode > 1 ∨ f2 ≠ 0 then finish .badOperand s
  else finish .none (openSession (sessionOfMode mode) s)

/-- A failed block is logged under its offset, whatever the code (R261, R263). -/
def logBlock (off : Word) (e : ErrCode) (s : State) : State := if e = .none then s else recordFail off s

/-- `BENC k` (R261). -/
def execBenc (k f2 : Nat) (s : State) : Result :=
  if s.sess ≠ .enc then finish .sequence s
  else if f2 ≠ 0 ∨ k < 1 ∨ k > s.cfg.dataLen then finish .badOperand s
  else if s.dataHas256 k then finish .badOperand s
  else
    let r := encodeBody (padBlock k s)
    finish r.1 (logBlock s.bytecnt r.1 (countBlock k r.2))

/-- The operands of `BDEC` are illegal (R263): `h` is 1 for data alone, 2 for a correction record alone, 3 for both. -/
def badBlockOperands (cfg : Cfg) (k h : Nat) : Bool :=
  decide (h = 0) || decide (h > 3) || (decide (h = 2) && decide (k ≠ 0)) ||
  (decide (h ≠ 2) && (decide (k < 1) || decide (k > cfg.dataLen)))

/-- `BDEC k, h` (R263, R264). -/
def execBdec (k h : Nat) (s : State) : Result :=
  if s.sess ≠ .dec then finish .sequence s
  else if badBlockOperands s.cfg k h then finish .badOperand s
  else if h = 2 then finish .none { s with mis := true }
  else if h = 1 then finish .none { countBlock k s with mis := true }
  else
    let r := decodeBody (padBlock k (countBlock k s))
    finish r.1 (logBlock s.bytecnt r.1 r.2)

/-- The code that `SEND` reports for a closed session (R266). -/
def sessionReport (s : State) : ErrCode :=
  if s.mis then .fileMisaligned
  else if s.failcnt ≠ 0 then (if s.sess = .dec then .uncorrectable else .encodingFailed)
  else .none

/-- `SEND` (R266). -/
def execSend (s : State) : Result :=
  if s.sess = .idle then finish .sequence s
  else finish (sessionReport s) { s with sess := .idle }

end Sys2Proof.Machine
end

