-- ==== Sys2Proof/Machine/Control.lean ====
section
/-! DEFINITION. `NOP` (40_command_execution.md R125). -/

namespace Sys2Proof.Machine

/-- `NOP` (R125): it completes with `NONE` and changes nothing else. -/
def execNop (s : State) : Result := finish .none s

end Sys2Proof.Machine
end

