-- ==== Sys2Proof/Machine/FieldAlu.lean ====
section
/-! DEFINITION. The field ALU: `FADD`, `FSUB`, `FMUL`, `FINV`, `FDIV` (41_field_alu.md R140 to R145). -/

namespace Sys2Proof.Machine

/-- `FADD` (R140). -/
def execFadd (s : State) : Result := finish .none (setResultF (fieldAdd s.a s.b) s)

/-- `FSUB` (R141). -/
def execFsub (s : State) : Result := finish .none (setResultF (fieldSub s.a s.b) s)

/-- `FMUL` (R142). -/
def execFmul (s : State) : Result := finish .none (setResultF (fieldMul s.a s.b) s)

/-- `FINV` (R144): `NO_INVERSE`, with `R` unchanged, iff `A` is 0. -/
def execFinv (s : State) : Result :=
  match inv? s.a with
  | none => finish .noInverse s
  | some n => finish .none (setResultF n s)

/-- `FDIV` (R145): `NO_INVERSE`, with `R` unchanged, iff `B` is 0. -/
def execFdiv (s : State) : Result :=
  match inv? s.b with
  | none => finish .noInverse s
  | some n => finish .none (setResultF (fieldMul s.a n) s)

end Sys2Proof.Machine
end

