-- ==== Sys2Proof/Machine/Polynomial.lean ====
section
/-! DEFINITION. The polynomial engine: `PEVAL`, `PADD`, `PSUB`, `PMUL`, `PSCALE`, `PMOVQ`, `PCLR` (42_polynomial.md R161
to R169). -/

namespace Sys2Proof.Machine

/-- `PEVAL` (R161). -/
def execPeval (s : State) : Result := finish .none (setResultF (eval s.p s.a) s)

/-- `PADD` (R162). -/
def execPadd (s : State) : Result := finish .none { s with p := polyAdd s.p s.q }

/-- `PSUB` (R163). -/
def execPsub (s : State) : Result := finish .none { s with p := polySub s.p s.q }

/-- `PMUL` (R165): on `DEGREE_OVERFLOW` `P` keeps its value. -/
def execPmul (s : State) : Result :=
  if mulOverflows s.p s.q then finish .degreeOverflow s
  else finish .none { s with p := polyMul s.p s.q }

/-- `PSCALE` (R167). -/
def execPscale (s : State) : Result := finish .none { s with p := polyScale s.a s.p }

/-- `PMOVQ` (R168). -/
def execPmovq (s : State) : Result := finish .none { s with q := s.p }

/-- `PCLR` (R169). -/
def execPclr (s : State) : Result := finish .none { s with p := zeroPoly }

end Sys2Proof.Machine
end

