-- ==== Sys2Proof/Machine/Dispatch.lean ====
section
/-! DEFINITION. The meaning of each command (40_command_execution.md R120: "the command's own rule"). -/

namespace Sys2Proof.Machine

/-- `execute(cmd, w)` with the completion that follows it (40_command_execution.md R120). -/
def exec (i : Instr) (s : State) : Host.Outcome State Fault Refusal :=
  match i with
  | .nop => Sys2Proof.Machine.execNop s
  | .fadd => Sys2Proof.Machine.execFadd s
  | .fsub => Sys2Proof.Machine.execFsub s
  | .fmul => Sys2Proof.Machine.execFmul s
  | .finv => Sys2Proof.Machine.execFinv s
  | .fdiv => Sys2Proof.Machine.execFdiv s
  | .peval => Sys2Proof.Machine.execPeval s
  | .padd => Sys2Proof.Machine.execPadd s
  | .psub => Sys2Proof.Machine.execPsub s
  | .pmul => Sys2Proof.Machine.execPmul s
  | .pscale => Sys2Proof.Machine.execPscale s
  | .pmovq => Sys2Proof.Machine.execPmovq s
  | .pclr => Sys2Proof.Machine.execPclr s
  | .basis one xs => Sys2Proof.Machine.execBasis one xs s
  | .interp xs => Sys2Proof.Machine.execInterp xs s
  | .evalsym targets => Sys2Proof.Machine.execEvalsym targets s
  | .encode => Sys2Proof.Machine.execEncode s
  | .taggen => Sys2Proof.Machine.execTaggen s
  | .locate => Sys2Proof.Machine.execLocate s
  | .validate subset => Sys2Proof.Machine.execValidate subset s
  | .decode => Sys2Proof.Machine.execDecode s
  | .sbegin mode f2 => Sys2Proof.Machine.execSbegin mode f2 s
  | .benc k f2 => Sys2Proof.Machine.execBenc k f2 s
  | .bdec k h => Sys2Proof.Machine.execBdec k h s
  | .send => Sys2Proof.Machine.execSend s

end Sys2Proof.Machine
end

