-- ==== Sys2Proof/Machine/Window.lean ====
section
/-! DEFINITION. The register window: the address map of 20_memory.md R61, what a read returns (R64) and what a write
stores (R65). A write to `CMD` executes a command and stands in Bus.lean. -/

namespace Sys2Proof.Machine

/-- The registers of the window (20_memory.md R61). -/
inductive WinReg where
  | id | cfg | cmd | status | intPend | intEn | a | b | r | tag
  | blkcnt | bytecnt | failcnt | lastfail | dinfo | degs
  | sym (i : Fin 16) | p (i : Fin 14) | q (i : Fin 14)
  | reserved
  deriving DecidableEq, Repr

/-- The sixteen registers below `SYM`, in the order of their offsets (20_memory.md R61). -/
def lowRegs : List WinReg :=
  [.id, .cfg, .cmd, .status, .intPend, .intEn, .a, .b, .r, .tag, .blkcnt, .bytecnt, .failcnt, .lastfail, .dinfo, .degs]

/-- The register at a byte-style offset that is a multiple of 4 in 0x000 to 0x0FC (20_memory.md R61). -/
def regAt (off : Nat) : WinReg :=
  if off < 0x040 then lowRegs.getD (off / 4) .reserved
  else if off < 0x080 then
    if h : (off - 0x040) / 4 < 16 then .sym ⟨_, h⟩ else .reserved
  else if off < 0x0C0 then
    if h : (off - 0x080) / 4 < 14 then .p ⟨_, h⟩ else .reserved
  else
    if h : (off - 0x0C0) / 4 < 14 then .q ⟨_, h⟩ else .reserved

/-- `zext_32` of a field element. -/
def wordOfF (v : F) : Word := BitVec.ofNat 32 v.val

/-- What a read returns; it has no effect (20_memory.md R64 and the registers' own rules in 10_state.md). -/
def readReg (s : State) : WinReg → Word
  | .id => Config.idValue
  | .cfg => cfgWord s.cfg
  | .cmd => s.cmdLast
  | .status => statusWord s
  | .intPend => intPendWord s
  | .intEn => intEnWord s
  | .a => wordOfF s.a
  | .b => wordOfF s.b
  | .r => s.r.setWidth 32
  | .tag => s.tag.setWidth 32
  | .blkcnt => s.blkcnt
  | .bytecnt => s.bytecnt
  | .failcnt => s.failcnt
  | .lastfail => lastfailWord s
  | .dinfo => dinfoWord s.dinfo
  | .degs => degsWord s
  | .sym i => wordOfF s.sym[i]
  | .p i => wordOfF s.p[i]
  | .q i => wordOfF s.q[i]
  | .reserved => 0

/-- What a write of `v` stores (20_memory.md R65). Read-only registers and reserved offsets ignore it. `CMD` is absent
here: its write executes a command (40_command_execution.md R120). -/
def writeReg (v : Word) (s : State) : WinReg → State
  | .cfg => writeCfg v s
  | .intPend => clearPending v s
  | .intEn => { s with enDone := v.getLsbD 0, enErr := v.getLsbD 1 }
  | .a => { s with a := reduce v.toNat }
  | .b => { s with b := reduce v.toNat }
  | .tag => { s with tag := v.extractLsb' 0 8 }
  | .sym i => { s with sym := s.sym.set i (reduce v.toNat) }
  | .p i => { s with p := s.p.set i (reduce v.toNat) }
  | .q i => { s with q := s.q.set i (reduce v.toNat) }
  | .id | .cmd | .status | .r | .blkcnt | .bytecnt | .failcnt | .lastfail | .dinfo | .degs | .reserved => s

/-- Byte lane `j` of a register word, bits `[8j+7 : 8j]` (20_memory.md R62). -/
def byteLane (w : Word) (j : Nat) : Byte := w.extractLsb' (8 * j) 8

/-- What a byte-addressed host sees at a byte address of its own map: the little-endian lane of the register word there,
and nothing outside the window (20_memory.md R61, R62; log 6). -/
def hostByteAt (s : State) (addr : Nat) : Option Byte :=
  if Config.gfcBase ≤ addr ∧ addr < Config.gfcBase + 0x100 then
    some (byteLane (readReg s (regAt ((addr - Config.gfcBase) / 4 * 4))) ((addr - Config.gfcBase) % 4))
  else none

end Sys2Proof.Machine
end

