-- ==== Sys2Proof/Machine/Bus.lean ====
section
/-! DEFINITION. What one event on the core's inputs does: a bus read, a bus write, a command, a reset (20_memory.md R60 to
R71, 40_command_execution.md R120, 70_reset_and_hazards.md R340). -/

namespace Sys2Proof.Machine

/-- The word offset of `CMD` (20_memory.md R61). -/
def cmdOffset : Nat := 0x008

/-- A host write of `w` to `CMD`: it is kept in `CMD_LAST` and executed, or completes with `ILLEGAL_CMD` if it is no
command (40_command_execution.md R120, R123). -/
def issueCommand (w : Word) (s : State) : Result :=
  match decode w with
  | .ok i => exec i { s with cmdLast := w }
  | .error _ => finish .illegalCmd { s with cmdLast := w }

/-- `BusRead(off)`: the host receives the register's word and nothing else changes (20_memory.md R64). -/
def busRead (off : Nat) (s : State) : Result := .next { s with rdata := readReg s (regAt off) }

/-- `BusWrite(off, v)` (20_memory.md R65). -/
def busWrite (off : Nat) (v : Word) (s : State) : Result :=
  match regAt off with
  | .cmd => issueCommand v s
  | reg => .next (writeReg v s reg)

/-- Why an access is none that the interface carries (20_memory.md R60, R62, R63; log 4). -/
def accessProblem (off nbytes : Nat) : Option Refusal :=
  if nbytes ≠ 4 then some .notFullWord
  else if off % 4 ≠ 0 then some .misaligned
  else if off > 0x0FC then some .outsideWindow
  else none

/-- Reset: one step that replaces the whole state of the core; the host's accesses after it remain
(70_reset_and_hazards.md R340, R341; log 5). -/
def applyReset (s : State) : State := { State.reset with bus := s.bus }

/-- One event on the core's inputs. -/
def access (ev : BusAccess) (s : State) : Result :=
  match ev with
  | .read off nbytes =>
    match accessProblem off nbytes with
    | some e => .refused e
    | none => busRead off s
  | .write off nbytes v =>
    match accessProblem off nbytes with
    | some e => .refused e
    | none => busWrite off v s
  | .reset => .next (applyReset s)

/-- The state in which the host's next access writes the word `w` to `CMD`, before all it already holds. -/
def State.queueCommand (s : State) (w : Word) : State := { s with bus := .write cmdOffset 4 w :: s.bus }

end Sys2Proof.Machine
end

