-- ==== Sys2Proof/Machine/Step.lean ====
section
/-! DEFINITION. One step: the core reacts to the host's next access (00_scope.md R18, 20_memory.md R71). -/

namespace Sys2Proof.Machine

/-- The host's next access takes effect, whole, before any later one (20_memory.md R66, R71). With no access to come the
core is idle and nothing changes (70_reset_and_hazards.md R343; log 3). -/
def step (s : State) : Host.Outcome State Fault Refusal :=
  match s.bus with
  | [] => .next s
  | ev :: rest => access ev { s with bus := rest }

/-- `s` with the opcode-table word `w` as the host's next write to `CMD` (log 1). -/
def State.withFetchWord (s : State) (nbits w : Nat) : State := s.queueCommand (tableWord nbits w)

end Sys2Proof.Machine
end

