-- ==== Sys2Proof/Safety.lean ====
section
/-! DEFINITION. The terms in which statements speak of the core: how a command ends, the value of a polynomial as a plain
sum, the slots of the symbol buffer, what a safe run is, and the invariant of the state. -/

namespace Sys2Proof.Safety

open Sys2Proof.Machine

/-! ## How a command ends -/

/-- `s`, left by a command that succeeded: code 0 and `DONE` pending; `INT_PEND.ERR` keeps its value
(40_command_execution.md R120). -/
def succeeded (s : State) : State := { s with err := .none, pendDone := true }

/-- `s`, left by a command that ended with the error `e`: its code, and both pending bits (R120). -/
def failed (e : ErrCode) (s : State) : State := { s with err := e, pendDone := true, pendErr := true }

/-! ## Values -/

/-- The value of a polynomial at `x`: the sum of `p[i] * x^i`, mod 257 (42_polynomial.md R160). -/
def valueAt (p : Coeffs) (x : Nat) : Nat := ((List.finRange 14).map fun i => p[i].val * x ^ i.val).sum % 257

/-- Every coefficient from `k` on is 0. -/
def degreeBelow (p : Coeffs) (k : Nat) : Prop := ∀ i : Fin 14, k ≤ i.val → p[i] = 0

/-- `SYM[x]`. -/
def slot (b : SymbolBuf) (x : Nat) : F := if h : x < 16 then b[x] else 0

/-- The number of selected abscissas of a mask. -/
def countBits (m : BitVec 16) : Nat := (List.range 16).countP fun x => m.getLsbD x

/-- The number of abscissas in `lo..hi-1` with a property. -/
def countIn (lo hi : Nat) (P : Nat → Bool) : Nat := (List.range' lo (hi - lo)).countP P

/-- No data symbol of the block is 256, which is no byte (43_interpolation_encoder.md R197). -/
def dataAreBytes (s : State) : Prop := ∀ x, x < s.cfg.dataLen → slot s.sym x ≠ 256

/-- The received word is a codeword: its symbols are the values of one polynomial of degree below `N`. -/
def holdsCodeword (s : State) : Prop :=
  ∃ d : Coeffs, degreeBelow d s.cfg.dataLen ∧ ∀ x, x < s.cfg.codeLen → (slot s.sym x).val = valueAt d x

/-- The zero padding of a short chunk of `k` bytes (45_block_codec.md R261, R263). -/
def padded (k : Nat) (s : State) : State :=
  { s with sym := Vector.ofFn fun i => if k ≤ i.val ∧ i.val < s.cfg.dataLen then 0 else s.sym[i] }

/-! ## The decoder's search order -/

/-- One candidate of a decode: the trusted zeros read as 256, the subset, and the pass code it is tried under. -/
structure Trial where
  subs : List Nat
  subset : List Nat
  pass : BitVec 2
  deriving DecidableEq, Repr

/-- The received word with 256 at the abscissas of `subs` (44_decoder.md R236). -/
def wordWith (s : State) (subs : List Nat) : List F :=
  (List.range s.cfg.codeLen).map fun x => if x ∈ subs then 256 else slot s.sym x

/-- The data-side choices of one attempt with the trust policy on, in their order, with their pass codes: without the
located abscissa first, then with it, or all of them if it lies outside the data side (44_decoder.md R227 to R230). -/
def trustedOrder (cfg : Cfg) (lv : Nat) : List (List Nat × BitVec 2) :=
  let data := List.range cfg.dataLen
  let size := cfg.dataLen - cfg.redundantLen
  if lv < cfg.dataLen then
    (choose (data.filter (· != lv)) size).map (·, 1) ++ ((choose data size).filter (lv ∈ ·)).map (·, 2)
  else (choose data size).map (·, 0)

/-- The candidates of one attempt on the word that carries `subs`, in their order (44_decoder.md R225 to R230, R235). -/
def attemptOrder (s : State) (subs : List Nat) : List Trial :=
  if s.cfg.trust then
    (trustedOrder s.cfg ((locator (wordWith s subs)).toNat ^^^ (s.tag.toNat % 16))).map fun d =>
      ⟨subs, d.1 ++ List.range' s.cfg.dataLen s.cfg.redundantLen, d.2⟩
  else (choose (List.range s.cfg.codeLen) s.cfg.dataLen).map fun S => ⟨subs, S, 0⟩

/-- The candidates of a whole decode, in their order: the unmodified word, then each substitution set
(44_decoder.md R236 to R238). -/
def decodeOrder (s : State) : List Trial :=
  ([] :: dfs ((List.range' s.cfg.dataLen s.cfg.redundantLen).filter fun x => slot s.sym x == 0)).flatMap
    (attemptOrder s)

/-- The verdict on one candidate of a decode (44_decoder.md R224). -/
def verdict (s : State) (t : Trial) : Option Candidate :=
  consider s.cfg s.tag (wordWith s t.subs) (!t.subs.isEmpty) t.subset

/-! ## The numbers of the status fields -/

/-- The number of an error code, in the order of the table (60_exceptions.md R300). -/
def errNumber : ErrCode → Nat
  | .none => 0
  | .noInverse => 1
  | .degreeOverflow => 2
  | .encodingFailed => 3
  | .uncorrectable => 4
  | .fileMisaligned => 5
  | .illegalCmd => 6
  | .badOperand => 7
  | .sequence => 8
  | .config => 9

/-- The number that `STATUS.DSTAT` holds (10_state.md R27). -/
def dstatNumber : DStat → Nat
  | .clean => 0
  | .corrected => 1
  | .none => 2
  | .uncorrectable => 3

/-- The number that `STATUS.SESS` holds (10_state.md R27). -/
def sessNumber : Session → Nat
  | .idle => 0
  | .enc => 1
  | .dec => 2

/-! ## Safe runs -/

/-- An access that the core's interface can carry: a full word at a word offset of the window, or the reset input
(20_memory.md R60, R62, R63). -/
def expressible : BusAccess → Bool
  | .read off nbytes => nbytes == 4 && off % 4 == 0 && decide (off ≤ 0x0FC)
  | .write off nbytes _ => nbytes == 4 && off % 4 == 0 && decide (off ≤ 0x0FC)
  | .reset => true

/-- The host presents only accesses that the interface can carry. -/
def hostFits (s : State) : Prop := ∀ ev ∈ s.bus, expressible ev = true

/-- A safe step: it ends in a next state. -/
def safeStep (s : State) : Prop := ∃ t, step s = .next t

/-! ## The invariant -/

/-- What every state of the core that a step reaches from such a state satisfies. -/
structure CoreInv (s : State) : Prop where
  /-- "`CFG` always holds a legal configuration" (10_state.md R25). -/
  cfgLegal : s.cfg.legal = true
  /-- `R` holds a field element, a tag byte, a locator or a mismatch report, and never 0xFFFF (10_state.md R30,
  44_decoder.md R222). -/
  resultBound : s.r.toNat ≤ 256
  /-- `ENCODING_FAILED` is unreachable (43_interpolation_encoder.md R201). -/
  noEncodingFailed : s.err ≠ .encodingFailed
  /-- No block of an encode session fails (43_interpolation_encoder.md R201, 45_block_codec.md R261). -/
  encSessionClean : s.sess = .enc → s.failcnt = 0 ∧ s.mis = false
  /-- `PASS` is 3 only in the report of no accepted candidate (10_state.md R36). -/
  noPassReport : s.dinfo.pass = 3 → s.dinfo = DInfo.noneAccepted
  /-- A -1 leaves that report (44_decoder.md R240). -/
  uncorrectableReport : s.dstat = .uncorrectable → s.dinfo = DInfo.noneAccepted
  /-- Status 0 is an exact match of the unmodified word (44_decoder.md R238). -/
  cleanReport : s.dstat = .clean → s.dinfo.m = 0 ∧ s.dinfo.subs = 0 ∧ s.dinfo.pass ≠ 3
  /-- Status 1 is a mismatch correction or a residue substitution (44_decoder.md R238). -/
  correctedReport : s.dstat = .corrected → (s.dinfo.m ≠ 0 ∨ s.dinfo.subs ≠ 0) ∧ s.dinfo.pass ≠ 3
  /-- Fewer than `E_MAX` mismatches and at most `E_MAX` substitutions (44_decoder.md R231, R236). -/
  reportBounds : s.dinfo.m.toNat < 5 ∧ s.dinfo.subs.toNat ≤ 5 ∧ countBits s.dinfo.mask ≤ 10

end Sys2Proof.Safety
end

