-- ==== Sys2Proof/Certificates/Slice0/Obligations.lean ====
section
/-! DEFINITION. The statements for the provers.

Where a statement gives the whole next state of an event, it also gives the model's own two fields: that `bus` keeps the
accesses still to come is the model's choice of log 1, and that `rdata` keeps its word through a write or a command, and is
0 after a reset, is that of log 2. -/

open Sys2Proof Sys2Proof.Machine Sys2Proof.Safety

/-! ## Reset and the step -/

/-- 70_reset_and_hazards.md R340: every register of the reset record, `DEGS`, `irq`, and reset from any state. -/
def Obligations.ResetGivesTheRecord : Prop :=
  readReg State.reset .id = 0x47460107 ∧ readReg State.reset .cfg = 0x134 ∧ readReg State.reset .status = 0x200 ∧
  readReg State.reset .dinfo = 0x03000000 ∧
  (∀ reg ∈ [WinReg.cmd, .intPend, .intEn, .a, .b, .r, .tag, .blkcnt, .bytecnt, .failcnt, .lastfail, .degs],
    readReg State.reset reg = 0) ∧
  (∀ i, readReg State.reset (.sym i) = 0) ∧ (∀ i, readReg State.reset (.p i) = 0) ∧
  (∀ i, readReg State.reset (.q i) = 0) ∧ State.reset.irq = false ∧
  ∀ s rest, s.bus = .reset :: rest → step s = .next { State.reset with bus := rest }

/-- A step runs the decoded instruction: a write of a command's word to `CMD`, wherever it comes from
(40_command_execution.md R120, 10_state.md R26). That a program is the host's list of accesses, at whose head
`withFetchWord` puts a command, is the model's choice (log 1). -/
def Obligations.StepRunsTheWrittenCommand : Prop :=
  (∀ s rest w i, s.bus = .write 0x008 4 w :: rest → decode w = .ok i →
    step s = exec i { s with bus := rest, cmdLast := w }) ∧
  (∀ (s : State) nbits w i, decodeTableWord nbits w = some i →
    step (s.withFetchWord nbits w) = exec i { s with cmdLast := tableWord nbits w })

/-- 30_encoding.md R95: which words are illegal, and that an illegal word changes four registers only. -/
def Obligations.IllegalWordsAreRejected : Prop :=
  (∀ w, (∃ e, decode w = .error e) ↔ ∀ row ∈ opcodeRows, row.selects w = false) ∧
  (∀ w, (let o := (opcOf w).toNat
      (0x06 ≤ o ∧ o ≤ 0x0F) ∨ (0x17 ≤ o ∧ o ≤ 0x1F) ∨ (0x25 ≤ o ∧ o ≤ 0x2F) ∨ (0x33 ≤ o ∧ o ≤ 0x3F) ∨ 0x44 ≤ o) →
    decode w = .error .unassignedOpcode) ∧
  (∀ s rest w, s.bus = .write 0x008 4 w :: rest → (∀ row ∈ opcodeRows, row.selects w = false) →
    step s = .next (failed .illegalCmd { s with bus := rest, cmdLast := w }))

/-- An access that the interface carries ends in a next state; one that is no full word at a word offset of the window is
refused by name; and no step faults (20_memory.md R62, R63, 60_exceptions.md R304, R305). Three clauses are the model's
choices: that a step with no access left completes (log 3, from 70_reset_and_hazards.md R343 and 00_scope.md R18), that
the refusals are these named ones (log 4, from 93_implementation_defined.md I10), and that there is no fault at all, the
type of faults being empty (log 10). -/
def Obligations.ExactlyTheExpressibleAccessesComplete : Prop :=
  (∀ s, (∀ ev ∈ s.bus.head?, expressible ev = true) → safeStep s) ∧
  (∀ s ev rest, s.bus = ev :: rest → expressible ev = false →
    ∃ e ∈ [Refusal.notFullWord, .misaligned, .outsideWindow], step s = .refused e) ∧
  (∀ s f, step s ≠ .fault f)

/-! ## The encoding -/

/-- 30_encoding.md R93, R94: a command word selects a row iff `(word & mask) == match`, the row is its command's, and no
two rows select one word. -/
def Obligations.RowSelectsItsCommand : Prop :=
  (∀ w, ∀ row ∈ opcodeRows, row.selects w = true ↔ ∃ i, decode w = .ok i ∧ mnemonicOf i = row.mnemonic) ∧
  ∀ w, ∀ r1 ∈ opcodeRows, ∀ r2 ∈ opcodeRows, r1.selects w = true → r2.selects w = true → r1 = r2

/-- Decoding the encoding of a well-formed command gives the command back, with every operand at every value. -/
def Obligations.DecodeOfEncodeIsIdentity : Prop :=
  ∀ i : Instr, i.WellFormed → decode (encode i) = .ok i

/-- A legal word is the encoding of the well-formed command it decodes to. -/
def Obligations.EncodeOfDecodeIsIdentity : Prop :=
  ∀ w i, decode w = .ok i → i.WellFormed ∧ encode i = w

/-- 30_encoding.md R98: the word of each command, as arithmetic on its operands. -/
def Obligations.SyntaxGivesTheWords : Prop :=
  (∀ pr ∈ [(Instr.nop, 0x00#32), (.fadd, 0x01), (.fsub, 0x02), (.fmul, 0x03), (.finv, 0x04), (.fdiv, 0x05),
      (.peval, 0x10), (.padd, 0x11), (.psub, 0x12), (.pmul, 0x13), (.pscale, 0x14), (.pmovq, 0x15), (.pclr, 0x16),
      (.encode, 0x23), (.taggen, 0x24), (.locate, 0x30), (.decode, 0x32), (.send, 0x43),
      (.sbegin 0 0, 0x00000040), (.sbegin 1 0, 0x00000140)],
    decode pr.2 = .ok pr.1) ∧
  (∀ (mask : BitVec 16) (one : Nat), one < 16 →
    decode ((mask.setWidth 32 <<< 16) ||| (BitVec.ofNat 32 one <<< 8) ||| 0x20) = .ok (.basis one mask)) ∧
  (∀ mask : BitVec 16, decode ((mask.setWidth 32 <<< 16) ||| 0x21) = .ok (.interp mask)) ∧
  (∀ mask : BitVec 16, decode ((mask.setWidth 32 <<< 16) ||| 0x22) = .ok (.evalsym mask)) ∧
  (∀ mask : BitVec 16, decode ((mask.setWidth 32 <<< 16) ||| 0x31) = .ok (.validate mask)) ∧
  (∀ k, k < 16 → decode ((BitVec.ofNat 32 k <<< 8) ||| 0x41) = .ok (.benc k 0)) ∧
  (∀ k h, k < 16 → h < 16 →
    decode ((BitVec.ofNat 32 h <<< 12) ||| (BitVec.ofNat 32 k <<< 8) ||| 0x42) = .ok (.bdec k h))

/-- A word of each family, written out bit by bit from 30_encoding.md R90 and R93, decodes to its command. -/
def Obligations.WrittenWordsDecode : Prop :=
  decode 0b0000000000000000_0000_0000_00000000 = .ok .nop ∧
  decode 0b0000000000000000_0000_0000_00000101 = .ok .fdiv ∧
  decode 0b0000000000000000_0000_0000_00010100 = .ok .pscale ∧
  decode 0b0000000000000111_0000_0001_00100000 = .ok (.basis 1 0x0007) ∧
  decode 0b0000000001110001_0000_0000_00110001 = .ok (.validate 0x0071) ∧
  decode 0b0000000000000000_0011_0100_01000010 = .ok (.bdec 4 3)

/-! ## Completion and errors -/

/-- Every command answers a next state, with `DONE` pending, and with `INT_PEND.ERR` set on an error and otherwise kept;
it writes `STATUS.ERR`, and the previous value does not matter (40_command_execution.md R120, R122,
60_exceptions.md R311). -/
def Obligations.EveryCommandCompletes : Prop :=
  ∀ i s e, ∃ t, exec i s = .next t ∧ t.pendDone = true ∧ t.pendErr = (s.pendErr || decide (t.err ≠ .none)) ∧
    exec i { s with err := e } = .next t

/-- A command rejected with `SEQUENCE` or `BAD_OPERAND` changes the error record and nothing else; no command ends with
`ILLEGAL_CMD` or `CONFIG` (40_command_execution.md R123). -/
def Obligations.RejectedCommandsChangeNothing : Prop :=
  ∀ i s t, exec i s = .next t →
    t.err ≠ .illegalCmd ∧ t.err ≠ .config ∧ (t.err = .sequence ∨ t.err = .badOperand → t = failed t.err s)

/-- An execution error of any command but `BENC`, `BDEC` and `SEND` changes nothing beyond the error record and, for
`DECODE`, `DSTAT` and `DINFO` (40_command_execution.md R124). -/
def Obligations.ExecutionErrorsChangeNothingElse : Prop :=
  ∀ i s t, exec i s = .next t →
    t.err ∈ [ErrCode.noInverse, .degreeOverflow, .encodingFailed, .uncorrectable, .fileMisaligned] →
    (∀ k f2, i ≠ .benc k f2) → (∀ k h, i ≠ .bdec k h) → i ≠ .send →
    t = failed t.err (if i = .decode then { s with dstat := t.dstat, dinfo := t.dinfo } else s)

/-- 40_command_execution.md R125: `NOP` completes and changes nothing else, and its word is the only one with its opcode. -/
def Obligations.NopOnlyCompletes : Prop :=
  encode .nop = 0x00000000 ∧ (∀ w, opcOf w = 0x00 → w ≠ 0 → decode w = .error .nonzeroField) ∧
  ∀ s, exec .nop s = .next (succeeded s)

/-! ## Field ALU -/

/-- 41_field_alu.md R140, R141, R142: `FADD`, `FSUB`, `FMUL`. -/
def Obligations.FaddFsubFmulResults : Prop :=
  encode .fadd = 0x00000001 ∧ encode .fsub = 0x00000002 ∧ encode .fmul = 0x00000003 ∧
  ∀ s, exec .fadd s = .next (succeeded { s with r := BitVec.ofNat 16 ((s.a.val + s.b.val) % 257) }) ∧
    exec .fsub s = .next (succeeded { s with r := BitVec.ofNat 16 ((s.a.val + 257 - s.b.val) % 257) }) ∧
    exec .fmul s = .next (succeeded { s with r := BitVec.ofNat 16 ((s.a.val * s.b.val) % 257) })

/-- 41_field_alu.md R144, R145: `FINV` gives the unique inverse of a nonzero `A`, `FDIV` multiplies `A` by the inverse of
a nonzero `B`; each ends with `NO_INVERSE`, and `R` kept, iff its operand is 0. -/
def Obligations.FinvFdivResults : Prop :=
  encode .finv = 0x00000004 ∧ encode .fdiv = 0x00000005 ∧
  ∀ s, (s.a = 0 → exec .finv s = .next (failed .noInverse s)) ∧
    (s.a ≠ 0 → ∃ n, n < 257 ∧ (s.a.val * n) % 257 = 1 ∧ (∀ m, m < 257 → (s.a.val * m) % 257 = 1 → m = n) ∧
      exec .finv s = .next (succeeded { s with r := BitVec.ofNat 16 n })) ∧
    (s.b = 0 → exec .fdiv s = .next (failed .noInverse s)) ∧
    (s.b ≠ 0 → ∃ n, n < 257 ∧ (s.b.val * n) % 257 = 1 ∧
      exec .fdiv s = .next (succeeded { s with r := BitVec.ofNat 16 ((s.a.val * n) % 257) }))

/-! ## Polynomial engine -/

/-- 42_polynomial.md R161: `PEVAL` gives the value of `P` at `A`. -/
def Obligations.PevalGivesTheValue : Prop :=
  encode .peval = 0x00000010 ∧
  ∀ s, exec .peval s = .next (succeeded { s with r := BitVec.ofNat 16 (valueAt s.p s.a.val) })

/-- 42_polynomial.md R162, R163, R167, R168, R169: `PADD`, `PSUB` and `PSCALE` work lane by lane, `PMOVQ` copies `P` to
`Q`, and `PCLR` clears `P`. -/
def Obligations.LanewisePolynomialCommands : Prop :=
  encode .padd = 0x00000011 ∧ encode .psub = 0x00000012 ∧ encode .pscale = 0x00000014 ∧
  encode .pmovq = 0x00000015 ∧ encode .pclr = 0x00000016 ∧
  ∀ s, (∃ u : Coeffs, exec .padd s = .next (succeeded { s with p := u }) ∧
      ∀ i : Fin 14, u[i].val = (s.p[i].val + s.q[i].val) % 257) ∧
    (∃ u : Coeffs, exec .psub s = .next (succeeded { s with p := u }) ∧
      ∀ i : Fin 14, u[i].val = (s.p[i].val + 257 - s.q[i].val) % 257) ∧
    (∃ u : Coeffs, exec .pscale s = .next (succeeded { s with p := u }) ∧
      ∀ i : Fin 14, u[i].val = (s.a.val * s.p[i].val) % 257) ∧
    exec .pmovq s = .next (succeeded { s with q := s.p }) ∧
    exec .pclr s = .next (succeeded { s with p := Vector.replicate 14 0 })

/-- 42_polynomial.md R165: `PMUL` gives the product, by coefficients and by values, unless two nonzero coefficients meet
above degree 13; then it ends with `DEGREE_OVERFLOW` and `P` is kept. -/
def Obligations.PmulGivesTheProduct : Prop :=
  encode .pmul = 0x00000013 ∧
  ∀ s, ((∃ i j : Fin 14, s.p[i] ≠ 0 ∧ s.q[j] ≠ 0 ∧ 13 < i.val + j.val) →
      exec .pmul s = .next (failed .degreeOverflow s)) ∧
    ((∀ i j : Fin 14, s.p[i] ≠ 0 → s.q[j] ≠ 0 → i.val + j.val ≤ 13) →
      ∃ u : Coeffs, exec .pmul s = .next (succeeded { s with p := u }) ∧
        (∀ k : Fin 14, u[k].val =
          ((List.finRange 14).map fun i => if h : i.val ≤ k.val then
            s.p[i].val * (s.q[k.val - i.val]'(by omega)).val else 0).sum % 257) ∧
        ∀ x, valueAt u x = (valueAt s.p x * valueAt s.q x) % 257)

/-- 10_state.md R37: `DEGS` reads the degrees of `P` and `Q`, 0 for the zero polynomial, and 0 in its other bits,
and a write to it is ignored. -/
def Obligations.DegsReadsTheDegrees : Prop :=
  ∀ s, ∃ dp dq : Fin 14, readReg s .degs = BitVec.ofNat 32 (256 * dq.val + dp.val) ∧
    (∀ i : Fin 14, dp < i → s.p[i] = 0) ∧ (s.p[dp] ≠ 0 ∨ dp = 0) ∧
    (∀ i : Fin 14, dq < i → s.q[i] = 0) ∧ (s.q[dq] ≠ 0 ∨ dq = 0) ∧ ∀ v, writeReg v s .degs = s

/-! ## Interpolation, encoder, tag -/

/-- 43_interpolation_encoder.md R194: `BASIS` loads the polynomial that is `SYM[one]` at `one` and 0 at the other
abscissas of the mask. -/
def Obligations.BasisLoadsTheBasisPolynomial : Prop :=
  ∀ s one (xs : BitVec 16), one < 16 →
    encode (.basis one xs) = BitVec.ofNat 32 (65536 * xs.toNat + 256 * one + 0x20) ∧
    (xs.getLsbD one = false → exec (.basis one xs) s = .next (failed .badOperand s)) ∧
    (xs.getLsbD one = true → 15 ≤ countBits xs → exec (.basis one xs) s = .next (failed .degreeOverflow s)) ∧
    (xs.getLsbD one = true → countBits xs ≤ 14 →
      ∃ u : Coeffs, exec (.basis one xs) s = .next (succeeded { s with p := u }) ∧
        degreeBelow u (countBits xs) ∧
        ∀ x, x < 16 → xs.getLsbD x = true → valueAt u x = if x = one then (slot s.sym one).val else 0)

/-- 43_interpolation_encoder.md R195, R199: `INTERP` loads the one polynomial of degree below the number of points that
passes through all of them, and overflows iff there are 15 or more. -/
def Obligations.InterpLoadsTheInterpolant : Prop :=
  ∀ s (xs : BitVec 16),
    encode (.interp xs) = BitVec.ofNat 32 (65536 * xs.toNat + 0x21) ∧
    (15 ≤ countBits xs → exec (.interp xs) s = .next (failed .degreeOverflow s)) ∧
    (countBits xs ≤ 14 →
      ∃ u : Coeffs, exec (.interp xs) s = .next (succeeded { s with p := u }) ∧
        degreeBelow u (countBits xs) ∧
        (∀ x, x < 16 → xs.getLsbD x = true → valueAt u x = (slot s.sym x).val) ∧
        ∀ d : Coeffs, degreeBelow d (countBits xs) →
          (∀ x, x < 16 → xs.getLsbD x = true → valueAt d x = (slot s.sym x).val) → d = u)

/-- 43_interpolation_encoder.md R196: `EVALSYM` writes the values of `P` into the selected slots and no other. -/
def Obligations.EvalsymWritesTheValues : Prop :=
  ∀ s (targets : BitVec 16),
    encode (.evalsym targets) = BitVec.ofNat 32 (65536 * targets.toNat + 0x22) ∧
    ∃ b : SymbolBuf, exec (.evalsym targets) s = .next (succeeded { s with sym := b }) ∧
      ∀ x, x < 16 →
        (targets.getLsbD x = true → (slot b x).val = valueAt s.p x) ∧
        (targets.getLsbD x = false → slot b x = slot s.sym x)

/-- 43_interpolation_encoder.md R197, R200: in a legal configuration `ENCODE` turns the data into a codeword that begins
with the data, and writes its tag; a data symbol 256 is `BAD_OPERAND`. -/
def Obligations.EncodeWritesTheCodeword : Prop :=
  encode .encode = 0x00000023 ∧
  ∀ s, s.cfg.legal = true →
    (¬ dataAreBytes s → exec .encode s = .next (failed .badOperand s)) ∧
    (dataAreBytes s →
      ∃ (b : SymbolBuf) (d : Coeffs),
        exec .encode s = .next (succeeded
          { s with sym := b, tag := tagOf s.cfg.dataLen (b.toList.take s.cfg.codeLen) }) ∧
        degreeBelow d s.cfg.dataLen ∧
        (∀ x, x < s.cfg.codeLen → (slot b x).val = valueAt d x) ∧
        (∀ x, x < s.cfg.dataLen → slot b x = slot s.sym x) ∧
        (∀ x, s.cfg.codeLen ≤ x → x < 16 → slot b x = slot s.sym x))

/-- 43_interpolation_encoder.md R192, R198, 44_decoder.md R221: `TAGGEN` writes `{crc[15:12], loc[3:0]}` of the codeword
to `R`, and not to `TAG`; `LOCATE` writes `loc XOR TAG[3:0]` to `R`, whatever `TRUST` is. -/
def Obligations.TaggenAndLocateResults : Prop :=
  encode .taggen = 0x00000024 ∧ encode .locate = 0x00000030 ∧
  ∀ s, exec .taggen s = .next (succeeded
      { s with r := BitVec.ofNat 16 (16 * ((crc16 (((s.sym.toList.take s.cfg.codeLen).drop s.cfg.dataLen).map
            fun v => BitVec.ofNat 8 v.val)).toNat / 4096) +
          (locator (s.sym.toList.take s.cfg.codeLen)).toNat) }) ∧
    exec .locate s = .next (succeeded
      { s with r := BitVec.ofNat 16 ((locator (s.sym.toList.take s.cfg.codeLen)).toNat ^^^ (s.tag.toNat % 16)) })

/-- 43_interpolation_encoder.md R190: bit `j` of the locator says whether an odd number of abscissas with bit `j` set
carry a symbol of odd parity. -/
def Obligations.LocatorIsTheXorOfOddAbscissas : Prop :=
  ∀ (w : List F) (j : Nat), j < 4 →
    (locator w).getLsbD j = decide ((countIn 0 w.length fun x =>
      x.testBit j && decide ((countIn 0 9 fun b => (w.getD x 0).val.testBit b) % 2 = 1)) % 2 = 1)

/-- 43_interpolation_encoder.md R191: the CRC is the bit-serial division by the polynomial 0x1021, the bits of each byte
taken most significant first, from the initial value 0xFFFF. -/
def Obligations.CrcIsBitSerial : Prop :=
  ∀ bytes : List Byte, crc16 bytes =
    (bytes.flatMap fun b => (List.range 8).map fun i => b.getLsbD (7 - i)).foldl
      (fun (c : BitVec 16) bit => (c <<< 1) ^^^ (if c.getLsbD 15 ^^ bit then 0x1021 else 0)) 0xFFFF

/-! ## Decoder -/

/-- 44_decoder.md R222, in a legal configuration: `VALIDATE` loads the candidate through the subset and reports how many
symbols it contradicts, on the trusted side and in all; a mask outside the codeword or of the wrong size is
`BAD_OPERAND`. -/
def Obligations.ValidateReportsTheMismatches : Prop :=
  ∀ s (m : BitVec 16), s.cfg.legal = true →
    encode (.validate m) = BitVec.ofNat 32 (65536 * m.toNat + 0x31) ∧
    (((∃ x, s.cfg.codeLen ≤ x ∧ x < 16 ∧ m.getLsbD x = true) ∨ countBits m ≠ s.cfg.dataLen) →
      exec (.validate m) s = .next (failed .badOperand s)) ∧
    ((∀ x, x < 16 → m.getLsbD x = true → x < s.cfg.codeLen) → countBits m = s.cfg.dataLen →
      ∃ u : Coeffs,
        exec (.validate m) s = .next (succeeded { s with
          p := u
          r := BitVec.ofNat 16
            (16 * countIn s.cfg.dataLen s.cfg.codeLen (fun x => decide (valueAt u x ≠ (slot s.sym x).val)) +
              countIn 0 s.cfg.codeLen (fun x => decide (valueAt u x ≠ (slot s.sym x).val))) }) ∧
        degreeBelow u s.cfg.dataLen ∧
        ∀ x, x < 16 → m.getLsbD x = true → valueAt u x = (slot s.sym x).val)

/-- 44_decoder.md R240, its three endings and their frame: -1 changes `DSTAT`, `DINFO` and the error record; status 0
changes `DSTAT` and `DINFO`; status 1 also changes `SYM[0..L-1]`. -/
def Obligations.DecodeEndings : Prop :=
  encode .decode = 0x00000032 ∧
  ∀ s, exec .decode s = .next (failed .uncorrectable
      { s with dstat := .uncorrectable, dinfo := ⟨0, 0, 0, 3⟩ }) ∨
    (∃ di, exec .decode s = .next (succeeded { s with dstat := .clean, dinfo := di })) ∨
    (∃ di b, exec .decode s = .next (succeeded { s with dstat := .corrected, dinfo := di, sym := b }) ∧
      ∀ x, s.cfg.codeLen ≤ x → x < 16 → slot b x = slot s.sym x)

/-- A word that is a codeword decodes with status 0 and no change to `SYM`, whatever the tag: the first candidate is
exact (44_decoder.md R233, R238, R241). -/
def Obligations.CodewordsDecodeClean : Prop :=
  ∀ s, s.cfg.legal = true → holdsCodeword s →
    ∃ mask pass, pass ≠ 3 ∧
      exec .decode s = .next (succeeded { s with dstat := .clean, dinfo := ⟨mask, 0, 0, pass⟩ })

/-- 44_decoder.md R241 item 1: what `ENCODE` produces decodes with status 0 and `SYM` unchanged. -/
def Obligations.EncodedBlocksDecodeClean : Prop :=
  ∀ s, s.cfg.legal = true → dataAreBytes s →
    ∃ t u, exec .encode s = .next t ∧ exec .decode t = .next u ∧
      u.err = .none ∧ u.dstat = .clean ∧ u.sym = t.sym

/-- 44_decoder.md R241 item 2: with `E` at least 2, one wrong data symbol is corrected, in both trust modes. -/
def Obligations.OneWrongDataSymbolIsCorrected : Prop :=
  ∀ s, s.cfg.legal = true → dataAreBytes s → 2 ≤ s.cfg.redundantLen →
    ∃ t, exec .encode s = .next t ∧
      ∀ (e : Fin 16) (v : F), e.val < s.cfg.dataLen → v.val ≤ 255 → v ≠ t.sym[e] →
        ∃ u, exec .decode { t with sym := t.sym.set e v } = .next u ∧
          u.err = .none ∧ u.dstat = .corrected ∧ u.sym = t.sym

/-- 44_decoder.md R241 item 3: with at most `E - 1` wrong symbols, on the data side where the trust policy is on, and an
intact tag, the decode does not return -1. -/
def Obligations.FewErrorsAreNotUncorrectable : Prop :=
  ∀ s, s.cfg.legal = true → dataAreBytes s →
    ∃ t, exec .encode s = .next t ∧
      ∀ b : SymbolBuf, countIn 0 s.cfg.codeLen (fun x => decide (slot b x ≠ slot t.sym x)) < s.cfg.redundantLen →
        (s.cfg.trust = true → ∀ x, s.cfg.dataLen ≤ x → x < s.cfg.codeLen → slot b x = slot t.sym x) →
        ∃ u, exec .decode { t with sym := b } = .next u ∧ u.err = .none ∧ u.dstat ≠ .uncorrectable

/-- With the trust policy on, a status-1 result is verified: its tag is the received tag, its data are bytes, and it
agrees with the received trusted side except where a 0 was read as 256 (44_decoder.md R232 to R234, R239). -/
def Obligations.TrustedCorrectionsAreVerified : Prop :=
  ∀ s t, s.cfg.legal = true → s.cfg.trust = true → exec .decode s = .next t → t.dstat = .corrected →
    t.err = .none ∧ tagOf s.cfg.dataLen (t.sym.toList.take s.cfg.codeLen) = s.tag ∧ dataAreBytes t ∧
      ∀ x, s.cfg.dataLen ≤ x → x < s.cfg.codeLen →
        slot t.sym x = slot s.sym x ∨ (slot s.sym x = 0 ∧ slot t.sym x = 256)

/-- A decode that does not return -1 leaves a codeword, in either trust mode, and fewer than `E` symbols of it are
mismatch corrections (44_decoder.md R223, R231, R238). -/
def Obligations.DecodedWordsAreCodewords : Prop :=
  ∀ s t, s.cfg.legal = true → exec .decode s = .next t → t.err = .none →
    holdsCodeword t ∧ t.dinfo.m.toNat < s.cfg.redundantLen ∧
      countIn 0 s.cfg.codeLen (fun x => decide (slot t.sym x ≠ slot s.sym x)) ≤
        t.dinfo.m.toNat + t.dinfo.subs.toNat

/-- 44_decoder.md R224: when a candidate is accepted. -/
def Obligations.AcceptanceOfACandidate : Prop :=
  ∀ cfg t (r : List F) sub S k, consider cfg t r sub S = some k ↔
    cand cfg S r = some k ∧ ¬ (cfg.trust = true ∧ 0 < k.tm) ∧ k.m < cfg.redundantLen ∧
      ((k.m = 0 ∧ sub = false) ∨
        ((∀ x, x < cfg.dataLen → x < k.c.length → k.c.getD x 0 ≠ 256) ∧
          (cfg.trust = true → tagOf cfg.dataLen k.c = t)))

/-- 00_scope.md R15, 44_decoder.md R237: the `k`-subsets of an ascending list are listed once each, in lexicographic
order, and the substitution sets are its nonempty subsets, once each, depth first. -/
def Obligations.SubsetsInLexicographicOrder : Prop :=
  ∀ U : List Nat, U.Pairwise (· < ·) →
    (∀ k, (choose U k).Pairwise (List.Lex (· < ·)) ∧ ∀ S, S ∈ choose U k ↔ S.Sublist U ∧ S.length = k) ∧
    (dfs U).Pairwise (List.Lex (· < ·)) ∧ ∀ S, S ∈ dfs U ↔ S.Sublist U ∧ S ≠ []

/-- Passes 1 and 2 together consider each trusted candidate exactly once, and there are `C(N, E)` of them; with the trust
policy off there are `C(L, N)` (44_decoder.md R226, R229, R241). -/
def Obligations.PassesCoverTheCandidatesOnce : Prop :=
  ∀ cfg : Cfg, cfg.legal = true →
    (choose (List.range cfg.codeLen) cfg.dataLen).length = cfg.codeLen.choose cfg.dataLen ∧
    (cfg.trust = true →
      (∀ lv, lv < cfg.dataLen → (avoiding cfg lv ++ containing cfg lv).Perm (allTrusted cfg)) ∧
      (allTrusted cfg).length = cfg.dataLen.choose cfg.redundantLen)

/-- 44_decoder.md R225: with the trust policy off the first accepted candidate in lexicographic order wins, and its subset
and mismatch count are reported with pass 0. -/
def Obligations.TrustOffTakesTheFirstCandidate : Prop :=
  ∀ s before S after k, s.cfg.trust = false →
    choose (List.range s.cfg.codeLen) s.cfg.dataLen = before ++ S :: after →
    (∀ S' ∈ before, consider s.cfg s.tag s.received false S' = none) →
    consider s.cfg s.tag s.received false S = some k →
    exec .decode s = .next (succeeded { s with
      dstat := if k.m = 0 then .clean else .corrected
      dinfo := ⟨maskOf S, BitVec.ofNat 4 k.m, 0, 0⟩
      sym := if k.m = 0 then s.sym else writeSymbols s.sym k.c })

/-- In either trust mode, on the unmodified word and in the residue retry, the first accepted candidate in the order of
the search wins, and `DINFO` reports its subset, its mismatches, its substitutions and its pass; if none is accepted, the
decode returns -1 (44_decoder.md R225 to R230, R235 to R238, R240). -/
def Obligations.FirstAcceptedCandidateWins : Prop :=
  ∀ s, s.cfg.legal = true →
    (∀ before c after k, decodeOrder s = before ++ c :: after → (∀ b ∈ before, verdict s b = none) →
      verdict s c = some k →
      exec .decode s = .next (succeeded { s with
        dstat := if k.m = 0 ∧ c.subs = [] then .clean else .corrected
        dinfo := ⟨maskOf c.subset, BitVec.ofNat 4 k.m, BitVec.ofNat 3 c.subs.length, c.pass⟩
        sym := if k.m = 0 ∧ c.subs = [] then s.sym else writeSymbols s.sym k.c })) ∧
    ((∀ c ∈ decodeOrder s, verdict s c = none) →
      exec .decode s = .next (failed .uncorrectable { s with dstat := .uncorrectable, dinfo := ⟨0, 0, 0, 3⟩ }))

/-- The decode returns -1 exactly when every candidate of every attempt is rejected, with the unmodified word and with
each substitution (44_decoder.md R235, R236, R238). -/
def Obligations.UncorrectableIffAllRejected : Prop :=
  ∀ s, s.cfg.legal = true →
    ((∃ t, exec .decode s = .next t ∧ t.err = .uncorrectable) ↔
      ∀ sub ∈ [] :: dfs ((trustedSide s.cfg).filter fun x => slot s.sym x == 0),
        ∀ S ∈ (if s.cfg.trust then allTrusted s.cfg else choose (List.range s.cfg.codeLen) s.cfg.dataLen),
          consider s.cfg s.tag (substitute s.received sub) (!sub.isEmpty) S = none)

/-- 44_decoder.md R243: a decode is a function of `SYM[0..L-1]`, `TAG` and `CFG`. -/
def Obligations.DecodeDependsOnTheBlockOnly : Prop :=
  ∀ s1 s2, s1.cfg = s2.cfg → s1.tag = s2.tag → (∀ x, x < s1.cfg.codeLen → slot s1.sym x = slot s2.sym x) →
    ∃ t1 t2, exec .decode s1 = .next t1 ∧ exec .decode s2 = .next t2 ∧
      t1.err = t2.err ∧ t1.dstat = t2.dstat ∧ t1.dinfo = t2.dinfo ∧
      ∀ x, x < s1.cfg.codeLen → slot t1.sym x = slot t2.sym x

/-! ## Block codec -/

/-- 45_block_codec.md R260: `SBEGIN`. -/
def Obligations.SbeginOpensASession : Prop :=
  encode (.sbegin 0 0) = 0x00000040 ∧ encode (.sbegin 1 0) = 0x00000140 ∧
  ∀ s mode f2,
    (s.sess ≠ .idle → exec (.sbegin mode f2) s = .next (failed .sequence s)) ∧
    (s.sess = .idle → (1 < mode ∨ f2 ≠ 0) → exec (.sbegin mode f2) s = .next (failed .badOperand s)) ∧
    (s.sess = .idle → mode ≤ 1 → f2 = 0 →
      exec (.sbegin mode f2) s = .next (succeeded { s with
        blkcnt := 0, bytecnt := 0, failcnt := 0, lastfail := 0, mis := false, dstat := .none
        sess := if mode = 0 then .enc else .dec }))

/-- 45_block_codec.md R261, in a legal configuration: `BENC` is `ENCODE` of the zero-padded chunk, with the block counted;
`SEQUENCE` comes before `BAD_OPERAND`. -/
def Obligations.BencEncodesThePaddedChunk : Prop :=
  ∀ s k f2,
    (k < 16 → encode (.benc k 0) = BitVec.ofNat 32 (256 * k + 0x41)) ∧
    (s.sess ≠ .enc → exec (.benc k f2) s = .next (failed .sequence s)) ∧
    (s.sess = .enc → (f2 ≠ 0 ∨ k < 1 ∨ s.cfg.dataLen < k) → exec (.benc k f2) s = .next (failed .badOperand s)) ∧
    (s.sess = .enc → f2 = 0 → 1 ≤ k → k ≤ s.cfg.dataLen → (∃ x, x < k ∧ slot s.sym x = 256) →
      exec (.benc k f2) s = .next (failed .badOperand s)) ∧
    (s.cfg.legal = true → s.sess = .enc → f2 = 0 → 1 ≤ k → k ≤ s.cfg.dataLen → (∀ x, x < k → slot s.sym x ≠ 256) →
      ∃ t, exec .encode (padded k s) = .next t ∧ t.err = .none ∧
        exec (.benc k f2) s = .next { t with blkcnt := s.blkcnt + 1, bytecnt := s.bytecnt + BitVec.ofNat 32 k })

/-- `BDEC` with both halves is `DECODE` of the zero-padded block, counted, and logged if it is uncorrectable; a lone half
sets `MIS`, and data alone is counted; the rest is `SEQUENCE`, then `BAD_OPERAND` (45_block_codec.md R263). Two points
are the model's reading: the padding stays in `SYM` when the block fails (log 11), and the offset is stored also when
`FAILCNT` wraps to 0, where `LASTFAIL` reads as 0 by 10_state.md R35 (log 12). -/
def Obligations.BdecDecodesThePaddedBlock : Prop :=
  ∀ s k h,
    (k < 16 → h < 16 → encode (.bdec k h) = BitVec.ofNat 32 (4096 * h + 256 * k + 0x42)) ∧
    (s.sess ≠ .dec → exec (.bdec k h) s = .next (failed .sequence s)) ∧
    (s.sess = .dec → (h = 0 ∨ 3 < h ∨ (h = 2 ∧ k ≠ 0) ∨ (h ≠ 2 ∧ (k < 1 ∨ s.cfg.dataLen < k))) →
      exec (.bdec k h) s = .next (failed .badOperand s)) ∧
    (s.sess = .dec → h = 2 → k = 0 → exec (.bdec k h) s = .next (succeeded { s with mis := true })) ∧
    (s.sess = .dec → h = 1 → 1 ≤ k → k ≤ s.cfg.dataLen →
      exec (.bdec k h) s = .next (succeeded { s with
        mis := true, blkcnt := s.blkcnt + 1, bytecnt := s.bytecnt + BitVec.ofNat 32 k })) ∧
    (s.sess = .dec → h = 3 → 1 ≤ k → k ≤ s.cfg.dataLen →
      ∃ t, exec .decode (padded k s) = .next t ∧
        exec (.bdec k h) s = .next { t with
          blkcnt := s.blkcnt + 1
          bytecnt := s.bytecnt + BitVec.ofNat 32 k
          failcnt := if t.err = .uncorrectable then s.failcnt + 1 else s.failcnt
          lastfail := if t.err = .uncorrectable then s.bytecnt else s.lastfail })

/-- 45_block_codec.md R266: `SEND` closes the session and reports; misalignment outranks failed blocks. -/
def Obligations.SendClosesAndReports : Prop :=
  encode .send = 0x00000043 ∧
  ∀ s, (s.sess = .idle → exec .send s = .next (failed .sequence s)) ∧
    (s.sess ≠ .idle → s.mis = true → exec .send s = .next (failed .fileMisaligned { s with sess := .idle })) ∧
    (s.sess = .dec → s.mis = false → s.failcnt ≠ 0 →
      exec .send s = .next (failed .uncorrectable { s with sess := .idle })) ∧
    (s.sess = .enc → s.mis = false → s.failcnt ≠ 0 →
      exec .send s = .next (failed .encodingFailed { s with sess := .idle })) ∧
    (s.sess ≠ .idle → s.mis = false → s.failcnt = 0 → exec .send s = .next (succeeded { s with sess := .idle }))

/-- 10_state.md R40: only reset, and a write of `SBEGIN` or `SEND` to `CMD`, changes the session state, along the
transitions that the rule lists. -/
def Obligations.OnlySbeginSendAndResetChangeTheSession : Prop :=
  ∀ s t ev rest, s.bus = ev :: rest → step s = .next t → t.sess ≠ s.sess →
    (ev = .reset ∧ t.sess = .idle) ∨
    ∃ w i, ev = .write 0x008 4 w ∧ decode w = .ok i ∧
      ((s.sess = .idle ∧ ((i = .sbegin 0 0 ∧ t.sess = .enc) ∨ (i = .sbegin 1 0 ∧ t.sess = .dec))) ∨
        (s.sess ≠ .idle ∧ i = .send ∧ t.sess = .idle))

/-! ## What commands leave alone -/

/-- No command writes `A`, `B`, `CFG`, `INT_EN` or `CMD_LAST` (the write that issues a command stores the last), or
touches the host's side of the bus; every other register has its writers, and the commands not named leave it as it was
(10_state.md R22, R23, R30 to R36, R38, R39, R42, 70_reset_and_hazards.md R353). That a command keeps `bus` and `rdata`
is the model's choice (logs 1 and 2). -/
def Obligations.EachRegisterHasItsWriters : Prop :=
  ∀ i s t, exec i s = .next t →
    (t.a = s.a ∧ t.b = s.b ∧ t.cfg = s.cfg ∧ t.enDone = s.enDone ∧ t.enErr = s.enErr ∧ t.cmdLast = s.cmdLast ∧
      t.bus = s.bus ∧ t.rdata = s.rdata) ∧
    (mnemonicOf i ∉ ["FADD", "FSUB", "FMUL", "FINV", "FDIV", "PEVAL", "TAGGEN", "LOCATE", "VALIDATE"] → t.r = s.r) ∧
    (mnemonicOf i ∉ ["PADD", "PSUB", "PMUL", "PSCALE", "PCLR", "BASIS", "INTERP", "VALIDATE"] → t.p = s.p) ∧
    (mnemonicOf i ∉ ["PMOVQ"] → t.q = s.q) ∧
    (mnemonicOf i ∉ ["EVALSYM", "ENCODE", "DECODE", "BENC", "BDEC"] → t.sym = s.sym) ∧
    (mnemonicOf i ∉ ["ENCODE", "BENC"] → t.tag = s.tag) ∧
    (mnemonicOf i ∉ ["DECODE", "BDEC"] → t.dinfo = s.dinfo) ∧
    (mnemonicOf i ∉ ["DECODE", "BDEC", "SBEGIN"] → t.dstat = s.dstat) ∧
    (mnemonicOf i ∉ ["BDEC", "SBEGIN"] → t.mis = s.mis) ∧
    (mnemonicOf i ∉ ["SBEGIN", "SEND"] → t.sess = s.sess) ∧
    (mnemonicOf i ∉ ["SBEGIN", "BENC", "BDEC"] →
      t.blkcnt = s.blkcnt ∧ t.bytecnt = s.bytecnt ∧ t.failcnt = s.failcnt ∧ t.lastfail = s.lastfail)

/-- `ENCODE`, `DECODE`, `BENC` and `BDEC` neither write `SYM[L..15]` nor depend on it, in a legal configuration
(10_state.md R22). -/
def Obligations.SlotsAboveTheCodewordAreApart : Prop :=
  ∀ i s, mnemonicOf i ∈ ["ENCODE", "DECODE", "BENC", "BDEC"] → s.cfg.legal = true →
    ∀ b : SymbolBuf, (∀ x, x < s.cfg.codeLen → slot b x = slot s.sym x) →
      ∃ t u, exec i s = .next t ∧ exec i { s with sym := b } = .next u ∧
        u = { t with sym := u.sym } ∧
        (∀ x, x < s.cfg.codeLen → slot u.sym x = slot t.sym x) ∧
        (∀ x, s.cfg.codeLen ≤ x → x < 16 → slot t.sym x = slot s.sym x ∧ slot u.sym x = slot b x)

/-- 40_command_execution.md R127: only `SBEGIN`, `BENC`, `BDEC` and `SEND` read `STATUS.SESS`. -/
def Obligations.OtherCommandsIgnoreTheSession : Prop :=
  ∀ i s sess, mnemonicOf i ∉ ["SBEGIN", "BENC", "BDEC", "SEND"] →
    ∃ t, exec i s = .next t ∧ exec i { s with sess := sess } = .next { t with sess := sess }

/-- In a legal configuration no command but `SEND` ends with `ENCODING_FAILED`, and none but `FINV` and `FDIV` with
`NO_INVERSE` (43_interpolation_encoder.md R193, R201). -/
def Obligations.UnreachableErrorsDoNotOccur : Prop :=
  ∀ i s t, s.cfg.legal = true → exec i s = .next t →
    (t.err = .encodingFailed → i = .send) ∧ (t.err = .noInverse → i = .finv ∨ i = .fdiv)

/-! ## The register window -/

/-- 20_memory.md R61: the address map. -/
def Obligations.AddressMapIsTheTable : Prop :=
  (∀ pr ∈ [(0x000, WinReg.id), (0x004, .cfg), (0x008, .cmd), (0x00C, .status), (0x010, .intPend), (0x014, .intEn),
      (0x018, .a), (0x01C, .b), (0x020, .r), (0x024, .tag), (0x028, .blkcnt), (0x02C, .bytecnt), (0x030, .failcnt),
      (0x034, .lastfail), (0x038, .dinfo), (0x03C, .degs), (0x0B8, .reserved), (0x0BC, .reserved),
      (0x0F8, .reserved), (0x0FC, .reserved)], regAt pr.1 = pr.2) ∧
  (∀ i : Fin 16, regAt (0x040 + 4 * i.val) = .sym i) ∧
  (∀ i : Fin 14, regAt (0x080 + 4 * i.val) = .p i) ∧
  (∀ i : Fin 14, regAt (0x0C0 + 4 * i.val) = .q i)

/-- A read delivers the register's word and changes nothing else; what each register reads as; reserved offsets and
reserved bits read 0 (20_memory.md R64, 10_state.md R22 to R36, R38, R39). `STATUS` and `DEGS` have statements of their
own. -/
def Obligations.ReadsHaveNoEffect : Prop :=
  (∀ s rest off, s.bus = .read off 4 :: rest → off % 4 = 0 → off ≤ 0x0FC →
    step s = .next { s with bus := rest, rdata := readReg s (regAt off) }) ∧
  (∀ s, readReg s .id = 0x47460107 ∧
    readReg s .cfg = BitVec.ofNat 32
      (s.cfg.n.toNat + 16 * s.cfg.e.toNat + 256 * (if s.cfg.trust then 1 else 0)) ∧
    readReg s .cmd = s.cmdLast ∧
    readReg s .intPend = BitVec.ofNat 32 ((if s.pendDone then 1 else 0) + 2 * (if s.pendErr then 1 else 0)) ∧
    readReg s .intEn = BitVec.ofNat 32 ((if s.enDone then 1 else 0) + 2 * (if s.enErr then 1 else 0)) ∧
    readReg s .a = BitVec.ofNat 32 s.a.val ∧ readReg s .b = BitVec.ofNat 32 s.b.val ∧
    readReg s .r = BitVec.ofNat 32 s.r.toNat ∧ readReg s .tag = BitVec.ofNat 32 s.tag.toNat ∧
    readReg s .blkcnt = s.blkcnt ∧ readReg s .bytecnt = s.bytecnt ∧
    readReg s .failcnt = s.failcnt ∧ readReg s .lastfail = (if s.failcnt = 0 then 0 else s.lastfail) ∧
    readReg s .dinfo = BitVec.ofNat 32
      (s.dinfo.mask.toNat + 65536 * s.dinfo.m.toNat + 1048576 * s.dinfo.subs.toNat + 16777216 * s.dinfo.pass.toNat) ∧
    (∀ i : Fin 16, readReg s (.sym i) = BitVec.ofNat 32 s.sym[i].val) ∧
    (∀ i : Fin 14, readReg s (.p i) = BitVec.ofNat 32 s.p[i].val) ∧
    ∀ i : Fin 14, readReg s (.q i) = BitVec.ofNat 32 s.q[i].val) ∧
  (∀ s off, off ∈ [0x0B8, 0x0BC, 0x0F8, 0x0FC] → readReg s (regAt off) = 0) ∧
  ∀ s, readReg s .cfg &&& 0xFFFFFE80 = 0 ∧ readReg s .status &&& 0xFFFFE00F = 0 ∧
    readReg s .intPend &&& 0xFFFFFFFC = 0 ∧ readReg s .intEn &&& 0xFFFFFFFC = 0 ∧
    readReg s .dinfo &&& 0xFC800000 = 0 ∧ readReg s .degs &&& 0xFFFFF0F0 = 0

/-- 20_memory.md R65: what a write to each register stores, and that read-only registers and reserved offsets ignore
it. -/
def Obligations.WritesStoreWhatTheMapSays : Prop :=
  ∀ s rest off (v : Word), s.bus = .write off 4 v :: rest → off % 4 = 0 → off ≤ 0x0FC →
    (regAt off ∈ [WinReg.id, .status, .r, .blkcnt, .bytecnt, .failcnt, .lastfail, .dinfo, .degs, .reserved] →
      step s = .next { s with bus := rest }) ∧
    (regAt off = .a → step s = .next { s with bus := rest, a := reduce (v.toNat % 257) }) ∧
    (regAt off = .b → step s = .next { s with bus := rest, b := reduce (v.toNat % 257) }) ∧
    (∀ i, regAt off = .sym i → step s = .next { s with bus := rest, sym := s.sym.set i (reduce (v.toNat % 257)) }) ∧
    (∀ i, regAt off = .p i → step s = .next { s with bus := rest, p := s.p.set i (reduce (v.toNat % 257)) }) ∧
    (∀ i, regAt off = .q i → step s = .next { s with bus := rest, q := s.q.set i (reduce (v.toNat % 257)) }) ∧
    (regAt off = .tag → step s = .next { s with bus := rest, tag := v.setWidth 8 }) ∧
    (regAt off = .intEn → step s = .next { s with bus := rest, enDone := v[0], enErr := v[1] }) ∧
    (regAt off = .intPend → step s = .next { s with
      bus := rest, pendDone := s.pendDone && !v[0], pendErr := s.pendErr && !v[1] })

/-- 60_exceptions.md R306: the `CFG` write. -/
def Obligations.CfgWriteIsValidated : Prop :=
  ∀ s rest (v : Word), s.bus = .write 0x004 4 v :: rest →
    let n := v.toNat % 16
    let e := v.toNat / 16 % 8
    let trust := v.toNat / 256 % 2
    let legal := 1 ≤ n ∧ n ≤ 10 ∧ 1 ≤ e ∧ e ≤ 5 ∧ (trust = 0 ∨ e ≤ n)
    (s.sess ≠ .idle → step s = .next { s with bus := rest, err := .sequence, pendErr := true }) ∧
    (s.sess = .idle → ¬ legal → step s = .next { s with bus := rest, err := .config, pendErr := true }) ∧
    (s.sess = .idle → legal → step s = .next { s with
      bus := rest, cfg := ⟨BitVec.ofNat 4 n, BitVec.ofNat 3 e, decide (trust = 1)⟩ })

/-- 10_state.md R27: the fields of `STATUS`; `BUSY` and every reserved bit read 0. -/
def Obligations.StatusWordLayout : Prop :=
  ∀ s, readReg s .status = BitVec.ofNat 32
    (16 * errNumber s.err + 256 * dstatNumber s.dstat + 1024 * sessNumber s.sess + 4096 * (if s.mis then 1 else 0))

/-- 60_exceptions.md R310: `irq`, and how the host lowers it. -/
def Obligations.IrqIsTheMaskedPendingLevel : Prop :=
  ∀ s, (s.irq = true ↔ (s.pendDone = true ∧ s.enDone = true) ∨ (s.pendErr = true ∧ s.enErr = true)) ∧
    (writeReg 3 s .intPend).irq = false ∧ (writeReg 0 s .intEn).irq = false ∧ State.reset.irq = false

/-- Writing the same value to a data, configuration or interrupt register twice is writing it once
(20_memory.md R67). -/
def Obligations.RegisterWritesAreIdempotent : Prop :=
  ∀ s (v : Word) reg, writeReg v (writeReg v s reg) reg = writeReg v s reg

/-- A byte-addressed host sees byte `j` of the register word at `GFC_BASE + off + j`, least significant byte first
(20_memory.md R62). The base is a free value: the statement holds for every one. -/
def Obligations.HostBytesAreLittleEndian : Prop :=
  ∀ s off j, off % 4 = 0 → off ≤ 0x0FC → j < 4 →
    hostByteAt s (Config.gfcBase + off + j) =
      some (BitVec.ofNat 8 ((readReg s (regAt off)).toNat / 256 ^ j))

/-! ## The invariant -/

/-- The reset state satisfies the invariant. -/
def Obligations.ResetSatisfiesTheInvariant : Prop := CoreInv State.reset

/-- Every step keeps the invariant: the configuration stays legal, `R` never holds the invalid marker, encode sessions
never fail, and the decoder's report agrees with its status. -/
def Obligations.StepKeepsTheInvariant : Prop := ∀ s t, CoreInv s → step s = .next t → CoreInv t
end

