-- ==== Sys2Proof/Laws/Field.lean ====
section
/-! SUPPORT. The core's arithmetic is the arithmetic of the field `ZMod 257` (41_field_alu.md R146): one lemma for each
operation, so that later proofs work in the field. -/

namespace Sys2Proof.Machine

/-- An element of `F` as an element of the field. -/
def zmodOf (v : F) : ZMod 257 := (v.val : ZMod 257)

theorem zmodOf_injective : Function.Injective zmodOf := by
  intro u v h
  have h' := (ZMod.natCast_eq_natCast_iff' _ _ _).1 h
  rw [Nat.mod_eq_of_lt u.isLt, Nat.mod_eq_of_lt v.isLt] at h'
  exact Fin.ext h'

@[simp] theorem zmodOf_inj {u v : F} : zmodOf u = zmodOf v ↔ u = v := zmodOf_injective.eq_iff

@[simp] theorem zmodOf_zero : zmodOf 0 = 0 := by simp [zmodOf]

@[simp] theorem zmodOf_one : zmodOf 1 = 1 := by decide

@[simp] theorem zmodOf_reduce (v : Nat) : zmodOf (reduce v) = (v : ZMod 257) := by
  simp [zmodOf, reduce]

@[simp] theorem zmodOf_reduceInt (z : Int) : zmodOf (reduceInt z) = (z : ZMod 257) := by
  have h : ((z % 257).toNat : Int) = z % 257 := by omega
  show (((z % 257).toNat : Nat) : ZMod 257) = (z : ZMod 257)
  rw [← Int.cast_natCast, h]
  exact ZMod.intCast_mod z 257

@[simp] theorem zmodOf_fieldAdd (u v : F) : zmodOf (fieldAdd u v) = zmodOf u + zmodOf v := by
  rw [fieldAdd]; simp; simp [zmodOf]

@[simp] theorem zmodOf_fieldSub (u v : F) : zmodOf (fieldSub u v) = zmodOf u - zmodOf v := by
  rw [fieldSub]; simp; simp [zmodOf]

@[simp] theorem zmodOf_fieldMul (u v : F) : zmodOf (fieldMul u v) = zmodOf u * zmodOf v := by
  rw [fieldMul]; simp; simp [zmodOf]

theorem zmodOf_eq_zero {v : F} : zmodOf v = 0 ↔ v = 0 := by
  rw [← zmodOf_zero, zmodOf_inj]

/-- `(b * inv(b)) mod 257 = 1` for every nonzero `b` (41_field_alu.md R143). -/
theorem fieldMul_inv : ∀ b : F, b ≠ 0 → fieldMul b (inv b) = 1 := by decide +kernel

theorem zmodOf_mul_inv {b : F} (h : b ≠ 0) : zmodOf b * zmodOf (inv b) = 1 := by
  rw [← zmodOf_fieldMul, fieldMul_inv b h, zmodOf_one]

@[simp] theorem inv?_zero : inv? 0 = none := rfl

theorem inv?_of_ne {b : F} (h : b ≠ 0) : inv? b = some (inv b) := by simp [inv?, h]

theorem fact_prime_257 : Fact (Nat.Prime 257) := ⟨by norm_num⟩

/-- Abscissas are distinct in the field: they are below 257 (43_interpolation_encoder.md R193). -/
theorem natCast_inj_of_lt {x y : Nat} (hx : x < 257) (hy : y < 257) : (x : ZMod 257) = (y : ZMod 257) ↔ x = y := by
  rw [ZMod.natCast_eq_natCast_iff', Nat.mod_eq_of_lt hx, Nat.mod_eq_of_lt hy]

end Sys2Proof.Machine
end

