-- ==== Sys2Proof/Laws/Poly.lean ====
section
/-! SUPPORT. A coefficient array is a polynomial over the field: its coefficients, its value by Horner's method, its
degree, and each operation on it (42_polynomial.md R160 to R170). -/

namespace Sys2Proof.Machine

open Polynomial

theorem coeff_of_ge {p : Coeffs} {i : Nat} (h : 14 ≤ i) : coeff p i = 0 := by
  simp [coeff, h]

@[simp] theorem coeff_fin (p : Coeffs) (i : Fin 14) : coeff p i = p[i] := by
  simp [coeff]

theorem coeff_polyOf {f : Nat → F} {i : Nat} (h : i < 14) : coeff (polyOf f) i = f i := by
  simp [coeff, polyOf, h]

/-- Two arrays with the same coefficients are the same. -/
theorem coeffs_ext {p q : Coeffs} (h : ∀ i, i < 14 → coeff p i = coeff q i) : p = q := by
  apply Vector.ext
  intro i hi
  have := h i hi
  simpa [coeff, hi] using this

/-- The polynomial over the field that an array stands for. -/
noncomputable def toPoly (p : Coeffs) : (ZMod 257)[X] :=
  ∑ i ∈ Finset.range 14, C (zmodOf (coeff p i)) * X ^ i

@[simp] theorem toPoly_coeff (p : Coeffs) (i : Nat) : (toPoly p).coeff i = zmodOf (coeff p i) := by
  by_cases h : i < 14
  · simp [toPoly, coeff_C_mul, coeff_X_pow, h]
  · have h' : ∀ j ∈ Finset.range 14, (if i = j then zmodOf (coeff p j) else 0) = 0 := by
      intro j hj
      have := Finset.mem_range.1 hj
      rw [if_neg (by omega)]
    simp only [toPoly, finsetSum_coeff, coeff_C_mul, coeff_X_pow, mul_ite, mul_one, mul_zero]
    rw [Finset.sum_eq_zero h', coeff_of_ge (by omega), zmodOf_zero]

theorem toPoly_injective : Function.Injective toPoly := by
  intro p q h
  apply coeffs_ext
  intro i _
  have := congrArg (fun f => f.coeff i) h
  simpa using this

theorem natDegree_toPoly_lt (p : Coeffs) : (toPoly p).natDegree < 14 := by
  have : (toPoly p).natDegree ≤ 13 := by
    rw [natDegree_le_iff_coeff_eq_zero]
    intro i hi
    rw [toPoly_coeff, coeff_of_ge (by omega), zmodOf_zero]
  omega

/-! ## Degree -/

/-- The fold that `deg` runs: the last index below `n` with a nonzero entry, or 0. -/
theorem lastNonzero_spec (f : Nat → F) : ∀ n : Nat,
    let d := (List.range n).foldl (fun d i => if f i = 0 then d else i) 0
    (∀ i, d < i → i < n → f i = 0) ∧ (f d ≠ 0 ∨ d = 0) ∧ d ≤ n - 1 := by
  intro n
  induction n with
  | zero => simp
  | succ n ih =>
    simp only [List.range_succ, List.foldl_append, List.foldl_cons, List.foldl_nil]
    obtain ⟨h1, h2, h3⟩ := ih
    by_cases hn : f n = 0
    · simp only [hn, if_true]
      refine ⟨fun i hi hin => ?_, h2, by omega⟩
      rcases Nat.lt_succ_iff_lt_or_eq.1 hin with h | h
      · exact h1 i hi h
      · rw [h]; exact hn
    · simp only [hn, if_false]
      exact ⟨fun i hi hin => by omega, Or.inl hn, by omega⟩

/-- `deg(c)` (00_scope.md R14). -/
theorem deg_spec (p : Coeffs) :
    (∀ i, deg p < i → coeff p i = 0) ∧ (coeff p (deg p) ≠ 0 ∨ deg p = 0) ∧ deg p ≤ 13 := by
  obtain ⟨h1, h2, h3⟩ := lastNonzero_spec (coeff p) 14
  refine ⟨fun i hi => ?_, h2, h3⟩
  by_cases h : i < 14
  · exact h1 i hi h
  · exact coeff_of_ge (by omega)

theorem deg_eq_natDegree (p : Coeffs) : deg p = (toPoly p).natDegree := by
  obtain ⟨h1, h2, -⟩ := deg_spec p
  apply le_antisymm
  · rcases h2 with h | h
    · apply le_natDegree_of_ne_zero
      rw [toPoly_coeff]
      exact fun h0 => h (zmodOf_eq_zero.1 h0)
    · omega
  · rw [natDegree_le_iff_coeff_eq_zero]
    intro i hi
    rw [toPoly_coeff, h1 i hi, zmodOf_zero]

theorem isZeroPoly_iff (p : Coeffs) : isZeroPoly p = true ↔ ∀ i, coeff p i = 0 := by
  constructor
  · intro h i
    by_cases hi : i < 14
    · have h' : p[i] = 0 := by
        have := List.all_eq_true.1 h p[i] (by simp)
        simpa using this
      simpa [coeff, hi] using h'
    · exact coeff_of_ge (by omega)
  · intro h
    refine List.all_eq_true.2 fun v hv => ?_
    obtain ⟨i, hi, rfl⟩ := List.getElem_of_mem hv
    have := h i
    have hi' : i < 14 := by simpa using hi
    simpa [coeff, hi'] using this

theorem isZeroPoly_iff_toPoly (p : Coeffs) : isZeroPoly p = true ↔ toPoly p = 0 := by
  rw [isZeroPoly_iff]
  constructor
  · intro h; ext i; simp [h]
  · intro h i
    have := congrArg (fun f => f.coeff i) h
    simpa [zmodOf_eq_zero] using this

/-! ## Values -/

/-- Horner's method over an ascending range is the sum of the terms (42_polynomial.md R160). -/
theorem horner_sum (x : F) : ∀ (n : Nat) (f : Nat → F),
    zmodOf ((List.range n).foldr (fun i acc => fieldAdd (fieldMul acc x) (f i)) 0)
      = ∑ i ∈ Finset.range n, zmodOf (f i) * zmodOf x ^ i := by
  intro n
  induction n with
  | zero => intro f; simp
  | succ n ih =>
    intro f
    rw [List.range_succ_eq_map, List.foldr_cons, List.foldr_map]
    simp only [zmodOf_fieldAdd, zmodOf_fieldMul]
    rw [ih (fun i => f (i + 1)), Finset.sum_range_succ', Finset.sum_mul]
    simp [pow_succ, mul_assoc]

@[simp] theorem zmodOf_eval (p : Coeffs) (x : F) : zmodOf (eval p x) = (toPoly p).eval (zmodOf x) := by
  have h := horner_sum x (deg p + 1) (coeff p)
  rw [eval_eq_sum_range' (Nat.lt_succ_self _), ← deg_eq_natDegree]
  simpa [eval] using h

/-! ## Operations -/

@[simp] theorem toPoly_zeroPoly : toPoly zeroPoly = 0 := by
  ext i
  by_cases h : i < 14
  · simp [zeroPoly, coeff_polyOf h]
  · simp [coeff_of_ge (p := zeroPoly) (Nat.le_of_not_lt h)]

@[simp] theorem toPoly_constPoly (v : F) : toPoly (constPoly v) = C (zmodOf v) := by
  ext i
  by_cases h : i < 14
  · by_cases h0 : i = 0
    · simp [constPoly, coeff_polyOf, h0]
    · simp [constPoly, coeff_polyOf h, h0, coeff_C]
  · have h0 : i ≠ 0 := by omega
    simp [coeff_of_ge (p := constPoly v) (Nat.le_of_not_lt h), coeff_C, h0]

@[simp] theorem toPoly_linearFactor (x0 : Nat) : toPoly (linearFactor x0) = X - C (x0 : ZMod 257) := by
  ext i
  by_cases h : i < 14
  · by_cases h0 : i = 0
    · subst h0; simp [linearFactor, coeff_polyOf]
    · by_cases h1 : i = 1
      · subst h1; simp [linearFactor, coeff_polyOf]
      · simp [linearFactor, coeff_polyOf h, h0, h1, coeff_X, Ne.symm h1]
  · have h0 : i ≠ 0 := by omega
    have h1 : i ≠ 1 := by omega
    simp [coeff_of_ge (p := linearFactor x0) (Nat.le_of_not_lt h), coeff_X, h0, Ne.symm h1]

@[simp] theorem toPoly_polyAdd (p q : Coeffs) : toPoly (polyAdd p q) = toPoly p + toPoly q := by
  ext i
  by_cases h : i < 14
  · simp [polyAdd, coeff_polyOf h]
  · have h' := Nat.le_of_not_lt h
    simp [coeff_of_ge h']

@[simp] theorem toPoly_polySub (p q : Coeffs) : toPoly (polySub p q) = toPoly p - toPoly q := by
  ext i
  by_cases h : i < 14
  · simp [polySub, coeff_polyOf h]
  · have h' := Nat.le_of_not_lt h
    simp [coeff_of_ge h']

@[simp] theorem toPoly_polyScale (v : F) (p : Coeffs) : toPoly (polyScale v p) = C (zmodOf v) * toPoly p := by
  ext i
  by_cases h : i < 14
  · simp [polyScale, coeff_polyOf h]
  · have h' := Nat.le_of_not_lt h
    simp [coeff_of_ge h']

theorem zmodOf_foldl_add (f : Nat → F) : ∀ n : Nat,
    zmodOf ((List.range n).foldl (fun acc i => fieldAdd acc (f i)) 0) = ∑ i ∈ Finset.range n, zmodOf (f i) := by
  intro n
  induction n with
  | zero => simp
  | succ n ih => simp [List.range_succ, List.foldl_append, ih, Finset.sum_range_succ]

/-- Lane `k` of a product (42_polynomial.md R170). -/
theorem zmodOf_coeff_polyMul (p q : Coeffs) {k : Nat} (h : k < 14) :
    zmodOf (coeff (polyMul p q) k) = (toPoly p * toPoly q).coeff k := by
  rw [polyMul, coeff_polyOf h, zmodOf_foldl_add, Polynomial.coeff_mul,
    Finset.Nat.sum_antidiagonal_eq_sum_range_succ_mk]
  simp

theorem toPoly_polyMul_of_lt {p q : Coeffs} (h : (toPoly p * toPoly q).natDegree < 14) :
    toPoly (polyMul p q) = toPoly p * toPoly q := by
  ext k
  by_cases hk : k < 14
  · rw [toPoly_coeff, zmodOf_coeff_polyMul p q hk]
  · rw [toPoly_coeff, coeff_of_ge (Nat.le_of_not_lt hk), zmodOf_zero,
      coeff_eq_zero_of_natDegree_lt (by omega)]

/-- The overflow check of `PMUL` is the degree of the true product (42_polynomial.md R166). -/
theorem mulOverflows_eq_false_iff (p q : Coeffs) :
    mulOverflows p q = false ↔ (toPoly p * toPoly q).natDegree < 14 := by
  have := fact_prime_257
  by_cases hp : toPoly p = 0
  · simp [mulOverflows, (isZeroPoly_iff_toPoly p).2 hp, hp]
  · by_cases hq : toPoly q = 0
    · simp [mulOverflows, (isZeroPoly_iff_toPoly q).2 hq, hq]
    · have hp' : isZeroPoly p = false := by
        rw [← Bool.not_eq_true, isZeroPoly_iff_toPoly]; exact hp
      have hq' : isZeroPoly q = false := by
        rw [← Bool.not_eq_true, isZeroPoly_iff_toPoly]; exact hq
      rw [natDegree_mul hp hq]
      simp only [mulOverflows, hp', hq', deg_eq_natDegree, Config.maxDegree]
      simp
      omega

theorem toPoly_polyMul {p q : Coeffs} (h : mulOverflows p q = false) :
    toPoly (polyMul p q) = toPoly p * toPoly q :=
  toPoly_polyMul_of_lt ((mulOverflows_eq_false_iff p q).1 h)

end Sys2Proof.Machine
end

