-- ==== Sys2Proof/Laws/Interp.lean ====
section
/-! SUPPORT. What Lagrange interpolation computes: masks as ascending lists, the basis polynomials, and the one
polynomial of least degree through the selected symbols (43_interpolation_encoder.md R193, R199, R200). -/

namespace Sys2Proof.Machine

open Polynomial

/-! ## Masks and ascending lists -/

theorem mem_bits {m : BitVec 16} {x : Nat} : x ∈ bits m ↔ x < 16 ∧ maskHas m x = true := by
  simp [bits]

theorem bits_nodup (m : BitVec 16) : (bits m).Nodup := List.nodup_range.filter _

theorem bits_ascending (m : BitVec 16) : (bits m).Pairwise (· < ·) := List.pairwise_lt_range.filter _

theorem lt_of_mem_bits {m : BitVec 16} {x : Nat} (h : x ∈ bits m) : x < 16 := (mem_bits.1 h).1

theorem maskHas_foldl (x : Nat) (hx : x < 16) : ∀ (S : List Nat) (m : BitVec 16),
    maskHas (S.foldl (fun m i => m ||| (1#16 <<< i)) m) x = (maskHas m x || decide (x ∈ S)) := by
  intro S
  induction S with
  | nil => intro m; simp
  | cons i S ih =>
    intro m
    rw [List.foldl_cons, ih]
    have h : maskHas (m ||| (1#16 <<< i)) x = (maskHas m x || decide (x = i)) := by
      by_cases h1 : x < i
      · have : x ≠ i := by omega
        simp [maskHas, hx, h1, this]
      · by_cases h2 : x = i
        · subst h2; simp [maskHas, hx]
        · have : x - i ≠ 0 := by omega
          simp [maskHas, hx, h1, h2, this]
    rw [h]
    by_cases h2 : x = i <;> simp [h2]

theorem maskHas_maskOf {S : List Nat} {x : Nat} (hx : x < 16) : maskHas (maskOf S) x = decide (x ∈ S) := by
  rw [maskOf, maskHas_foldl x hx]; simp [maskHas]

/-- A subset written as its ascending list is the list of its mask's bits (00_scope.md R14, R15). -/
theorem bits_maskOf {S : List Nat} (hs : S.Pairwise (· < ·)) (h : ∀ x ∈ S, x < 16) : bits (maskOf S) = S := by
  have hs' : S.Nodup := hs.imp (fun h => Nat.ne_of_lt h)
  have hp : (bits (maskOf S)).Perm S := by
    rw [List.perm_ext_iff_of_nodup (bits_nodup _) hs']
    intro x
    rw [mem_bits]
    constructor
    · rintro ⟨hx, hm⟩; rw [maskHas_maskOf hx] at hm; simpa using hm
    · intro hx; exact ⟨h x hx, by rw [maskHas_maskOf (h x hx)]; simpa using hx⟩
  exact hp.eq_of_pairwise (fun a b _ _ hab hba => absurd hab (Nat.lt_asymm hba)) (bits_ascending _) hs

theorem popcount_maskOf {S : List Nat} (hs : S.Pairwise (· < ·)) (h : ∀ x ∈ S, x < 16) :
    popcount (maskOf S) = S.length := by rw [popcount, bits_maskOf hs h]

theorem popcount_le (m : BitVec 16) : popcount m ≤ 16 := by
  have := List.length_filter_le (maskHas m) (List.range 16)
  simpa [popcount, bits] using this

/-! ## The product of factors -/

/-- The product of `x - xi` over a list, as a polynomial over the field. -/
noncomputable def nodal (xs : List Nat) : (ZMod 257)[X] := (xs.map fun x => X - C (x : ZMod 257)).prod

theorem nodal_cons (x : Nat) (xs : List Nat) : nodal (x :: xs) = (X - C (x : ZMod 257)) * nodal xs := by simp [nodal]

theorem nodal_monic (xs : List Nat) : (nodal xs).Monic := by
  induction xs with
  | nil => simp [nodal]
  | cons x xs ih => rw [nodal_cons]; exact (monic_X_sub_C _).mul ih

theorem natDegree_nodal (xs : List Nat) : (nodal xs).natDegree = xs.length := by
  have := fact_prime_257
  induction xs with
  | nil => simp [nodal]
  | cons x xs ih =>
    rw [nodal_cons, (monic_X_sub_C _).natDegree_mul (nodal_monic xs), ih, natDegree_X_sub_C, List.length_cons]
    omega

theorem nodal_append (xs ys : List Nat) : nodal (xs ++ ys) = nodal xs * nodal ys := by simp [nodal]

theorem nodal_eval (xs : List Nat) (v : ZMod 257) : (nodal xs).eval v = (xs.map fun x : Nat => v - (x : ZMod 257)).prod := by
  induction xs with
  | nil => simp [nodal]
  | cons x xs ih =>
    simp [nodal_cons, ih]

/-- `nodal` vanishes exactly at the abscissas of its list. -/
theorem nodal_eval_eq_zero {xs : List Nat} {x : Nat} (hxs : ∀ y ∈ xs, y < 257) (hx : x < 257) :
    (nodal xs).eval (x : ZMod 257) = 0 ↔ x ∈ xs := by
  have := fact_prime_257
  rw [nodal_eval, List.prod_eq_zero_iff]
  simp only [List.mem_map, sub_eq_zero]
  constructor
  · rintro ⟨y, hy, hxy⟩
    rwa [(natCast_inj_of_lt hx (hxs y hy)).1 hxy]
  · intro h; exact ⟨x, h, rfl⟩

theorem timesFactor_ok {b : Coeffs} {x : Nat} (h : deg b ≤ 12) :
    ∃ b', timesFactor b x = .ok b' ∧ toPoly b' = toPoly b * (X - C (x : ZMod 257)) := by
  have := fact_prime_257
  refine ⟨polyMul b (linearFactor x), ?_, ?_⟩
  · have h' : ¬ (deg b + 1 > Config.maxDegree) := by simp only [Config.maxDegree]; omega
    simp [timesFactor, h']
  · rw [toPoly_polyMul_of_lt, toPoly_linearFactor]
    rw [toPoly_linearFactor]
    have := natDegree_mul_le (p := toPoly b) (q := X - C (x : ZMod 257))
    rw [natDegree_X_sub_C, ← deg_eq_natDegree] at this
    omega

theorem foldlM_timesFactor (ys : List Nat) : ∀ (xs : List Nat) (b : Coeffs),
    toPoly b = nodal ys → ys.length + xs.length ≤ 13 →
    ∃ b', xs.foldlM timesFactor b = .ok b' ∧ toPoly b' = nodal (ys ++ xs) := by
  intro xs
  induction xs generalizing ys with
  | nil => intro b hb _; exact ⟨b, rfl, by simpa using hb⟩
  | cons x xs ih =>
    intro b hb hl
    rw [List.length_cons] at hl
    have hd : deg b = ys.length := by rw [deg_eq_natDegree, hb, natDegree_nodal]
    obtain ⟨b1, h1, h2⟩ := timesFactor_ok (b := b) (x := x) (by omega)
    obtain ⟨b2, h3, h4⟩ := ih (ys ++ [x]) b1 (by rw [h2, hb, nodal_append]; simp [nodal])
      (by simp; omega)
    refine ⟨b2, ?_, by simpa using h4⟩
    rw [List.foldlM_cons, h1]
    exact h3

/-- Up to 13 factors the product is built (43_interpolation_encoder.md R193). -/
theorem factorProduct_ok {xs : List Nat} (h : xs.length ≤ 13) :
    ∃ b, factorProduct xs = .ok b ∧ toPoly b = nodal xs := by
  obtain ⟨b, h1, h2⟩ := foldlM_timesFactor [] xs (constPoly 1) (by simp [nodal]) (by simpa using h)
  exact ⟨b, h1, by simpa using h2⟩

/-- With 14 factors or more the product overflows at the 14th (43_interpolation_encoder.md R193). -/
theorem factorProduct_overflow {xs : List Nat} (h : 14 ≤ xs.length) :
    factorProduct xs = .error .degreeOverflow := by
  obtain ⟨ys, x, zs, rfl, hy⟩ : ∃ ys x zs, xs = ys ++ x :: zs ∧ ys.length = 13 := by
    refine ⟨xs.take 13, xs[13], xs.drop 14, ?_, by simp; omega⟩
    rw [← List.drop_eq_getElem_cons (by omega), List.take_append_drop]
  obtain ⟨b, h1, h2⟩ := factorProduct_ok (xs := ys) (by omega)
  have hd : deg b = 13 := by rw [deg_eq_natDegree, h2, natDegree_nodal, hy]
  rw [factorProduct, List.foldlM_append]
  rw [factorProduct] at h1
  rw [h1]
  show (x :: zs).foldlM timesFactor b = _
  rw [List.foldlM_cons]
  have : timesFactor b x = .error .degreeOverflow := by simp [timesFactor, hd, Config.maxDegree]
  rw [this]
  rfl

/-! ## Basis polynomials -/

theorem length_filter_ne {one : Nat} {m : BitVec 16} (h : one ∈ bits m) :
    ((bits m).filter (· != one)).length + 1 = popcount m := by
  have hn := bits_nodup m
  rw [← List.Nodup.erase_eq_filter hn, List.length_erase_of_mem h, popcount]
  have : 0 < (bits m).length := List.length_pos_of_mem h
  omega

/-- One basis polynomial: the given value at its own abscissa, 0 at the others, degree below the number of points
(43_interpolation_encoder.md R193). -/
theorem basis_ok {one : Nat} {m : BitVec 16} (y : F) (hone : one ∈ bits m) (hm : popcount m ≤ 14) :
    ∃ b, basis one m y = .ok b ∧ (toPoly b).natDegree ≤ popcount m - 1 ∧
      ∀ x ∈ bits m, (toPoly b).eval (x : ZMod 257) = if x = one then zmodOf y else 0 := by
  have hlen := length_filter_ne hone
  obtain ⟨b, h1, h2⟩ := factorProduct_ok (xs := (bits m).filter (· != one)) (by omega)
  have hlt : ∀ z ∈ (bits m).filter (· != one), z < 257 := fun z hz =>
    (lt_of_mem_bits (List.mem_of_mem_filter hz)).trans (by decide)
  have h16 : one < 257 := (lt_of_mem_bits hone).trans (by decide)
  have hev : zmodOf (eval b (reduce one)) ≠ 0 := by
    rw [zmodOf_eval, zmodOf_reduce, h2, Ne, nodal_eval_eq_zero hlt h16]
    simp
  have hne : eval b (reduce one) ≠ 0 := fun h0 => hev (by rw [h0, zmodOf_zero])
  refine ⟨polyScale (fieldMul y (inv (eval b (reduce one)))) b, ?_, ?_, ?_⟩
  · simp [basis, h1, inv?_of_ne hne]
  · rw [toPoly_polyScale]
    refine (natDegree_C_mul_le _ _).trans ?_
    rw [h2, natDegree_nodal]
    omega
  · intro x hx
    rw [toPoly_polyScale, eval_mul, eval_C, zmodOf_fieldMul]
    by_cases hxo : x = one
    · subst hxo
      have := zmodOf_mul_inv hne
      rw [zmodOf_eval, zmodOf_reduce] at this
      rw [if_pos rfl, mul_assoc, mul_comm (zmodOf (inv _)), this, mul_one]
    · have : (toPoly b).eval (x : ZMod 257) = 0 := by
        rw [h2, nodal_eval_eq_zero hlt ((lt_of_mem_bits hx).trans (by decide))]
        simp [hx, hxo]
      rw [if_neg hxo, this, mul_zero]

/-- Fifteen points or more overflow (43_interpolation_encoder.md R193). -/
theorem basis_overflow {one : Nat} {m : BitVec 16} (y : F) (hone : one ∈ bits m) (hm : 15 ≤ popcount m) :
    basis one m y = .error .degreeOverflow := by
  have hlen := length_filter_ne hone
  simp [basis, factorProduct_overflow (xs := (bits m).filter (· != one)) (by omega)]

/-! ## Interpolation -/

theorem foldlM_addBasis {m : BitVec 16} (hm : popcount m ≤ 14) (w : List F) : ∀ (xs : List Nat) (acc : Coeffs),
    (∀ x ∈ xs, x ∈ bits m) → xs.Nodup → (toPoly acc).natDegree ≤ popcount m - 1 →
    ∃ p, xs.foldlM (addBasis m w) acc = .ok p ∧ (toPoly p).natDegree ≤ popcount m - 1 ∧
      ∀ x ∈ bits m, (toPoly p).eval (x : ZMod 257) =
        (toPoly acc).eval (x : ZMod 257) + if x ∈ xs then zmodOf (symbolAt w x) else 0 := by
  intro xs
  induction xs with
  | nil => intro acc _ _ hd; exact ⟨acc, rfl, hd, by simp⟩
  | cons one xs ih =>
    intro acc hmem hnd hd
    obtain ⟨hnot, hnd'⟩ := List.nodup_cons.1 hnd
    obtain ⟨b, h1, h2, h3⟩ := basis_ok (symbolAt w one) (hmem one (List.mem_cons_self ..)) hm
    have hd' : (toPoly (polyAdd acc b)).natDegree ≤ popcount m - 1 := by
      rw [toPoly_polyAdd]; exact natDegree_add_le_of_degree_le hd h2
    obtain ⟨p, h4, h5, h6⟩ := ih (polyAdd acc b) (fun x hx => hmem x (List.mem_cons_of_mem _ hx)) hnd' hd'
    refine ⟨p, ?_, h5, ?_⟩
    · have : addBasis m w acc one = .ok (polyAdd acc b) := by simp [addBasis, h1]
      rw [List.foldlM_cons, this]; exact h4
    · intro x hx
      rw [h6 x hx, toPoly_polyAdd, eval_add, h3 x hx]
      by_cases hxo : x = one
      · subst hxo; simp [hnot]
      · simp [hxo]

/-- Interpolation through at most 14 points succeeds and passes through each of them, with degree below the number of
points (43_interpolation_encoder.md R199). -/
theorem interp_ok {m : BitVec 16} (hm : popcount m ≤ 14) (w : List F) :
    ∃ p, interp m w = .ok p ∧ (toPoly p).natDegree ≤ popcount m - 1 ∧ (popcount m = 0 → toPoly p = 0) ∧
      ∀ x ∈ bits m, (toPoly p).eval (x : ZMod 257) = zmodOf (symbolAt w x) := by
  obtain ⟨p, h1, h2, h3⟩ := foldlM_addBasis hm w (bits m) zeroPoly (fun _ h => h) (bits_nodup m) (by simp)
  refine ⟨p, ?_, h2, ?_, ?_⟩
  · have : ¬ (popcount m ≥ 15) := by omega
    simp [interp, this, h1]
  · intro h0
    have hb : bits m = [] := List.eq_nil_of_length_eq_zero h0
    rw [hb] at h1
    have : p = zeroPoly := by
      have h1' : (Except.ok zeroPoly : Except ErrCode Coeffs) = Except.ok p := h1
      injection h1' with h; exact h.symm
    rw [this, toPoly_zeroPoly]
  · intro x hx
    rw [h3 x hx]; simp [hx]

theorem interp_overflow {m : BitVec 16} (hm : 15 ≤ popcount m) (w : List F) :
    interp m w = .error .degreeOverflow := by simp [interp, hm]

/-- Two polynomials of degree below the number of an ascending list's abscissas that agree there are equal: the candidate
through `N` points is unique (43_interpolation_encoder.md R199). -/
theorem poly_eq_of_eval_eq {f g : (ZMod 257)[X]} {S : List Nat} (hs : S.Nodup) (hlt : ∀ x ∈ S, x < 257)
    (hf : f.degree < S.length) (hg : g.degree < S.length)
    (h : ∀ x ∈ S, f.eval (x : ZMod 257) = g.eval (x : ZMod 257)) : f = g := by
  have := fact_prime_257
  have hinj : Set.InjOn (fun x : Nat => (x : ZMod 257)) (S.toFinset : Set Nat) := by
    intro x hx y hy hxy
    have hx' : x ∈ S := by simpa using hx
    have hy' : y ∈ S := by simpa using hy
    exact (natCast_inj_of_lt (hlt x hx') (hlt y hy')).1 hxy
  have hcard : (S.toFinset).card = S.length := List.toFinset_card_of_nodup hs
  refine Polynomial.eq_of_degrees_lt_of_eval_index_eq (s := S.toFinset) (v := fun x : Nat => (x : ZMod 257)) hinj ?_ ?_ ?_
  · rw [hcard]; exact hf
  · rw [hcard]; exact hg
  · intro x hx; exact h x (by simpa using hx)

theorem degree_lt_of_interp {m : BitVec 16} {p : Coeffs} (hd : (toPoly p).natDegree ≤ popcount m - 1)
    (h0 : popcount m = 0 → toPoly p = 0) : (toPoly p).degree < popcount m := by
  by_cases h : popcount m = 0
  · rw [h0 h, degree_zero, h]; exact WithBot.bot_lt_coe _
  · refine lt_of_le_of_lt degree_le_natDegree ?_
    exact_mod_cast (by omega : (toPoly p).natDegree < popcount m)

end Sys2Proof.Machine
end

