-- ==== Sys2Proof/Laws/State.lean ====
section
/-! SUPPORT. What each shared update of the state does to each field, by `rfl`: later proofs rewrite with these and
unfold no record update. -/

namespace Sys2Proof.Machine

/-! ## `complete` -/

@[simp] theorem complete_cfg (e : ErrCode) (s : State) : (complete e s).cfg = s.cfg := rfl
@[simp] theorem complete_cmdLast (e : ErrCode) (s : State) : (complete e s).cmdLast = s.cmdLast := rfl
@[simp] theorem complete_err (e : ErrCode) (s : State) : (complete e s).err = e := rfl
@[simp] theorem complete_dstat (e : ErrCode) (s : State) : (complete e s).dstat = s.dstat := rfl
@[simp] theorem complete_sess (e : ErrCode) (s : State) : (complete e s).sess = s.sess := rfl
@[simp] theorem complete_mis (e : ErrCode) (s : State) : (complete e s).mis = s.mis := rfl
@[simp] theorem complete_pendDone (e : ErrCode) (s : State) : (complete e s).pendDone = true := rfl
@[simp] theorem complete_pendErr (e : ErrCode) (s : State) : (complete e s).pendErr = (s.pendErr || e != .none) := rfl
@[simp] theorem complete_enDone (e : ErrCode) (s : State) : (complete e s).enDone = s.enDone := rfl
@[simp] theorem complete_enErr (e : ErrCode) (s : State) : (complete e s).enErr = s.enErr := rfl
@[simp] theorem complete_a (e : ErrCode) (s : State) : (complete e s).a = s.a := rfl
@[simp] theorem complete_b (e : ErrCode) (s : State) : (complete e s).b = s.b := rfl
@[simp] theorem complete_r (e : ErrCode) (s : State) : (complete e s).r = s.r := rfl
@[simp] theorem complete_tag (e : ErrCode) (s : State) : (complete e s).tag = s.tag := rfl
@[simp] theorem complete_blkcnt (e : ErrCode) (s : State) : (complete e s).blkcnt = s.blkcnt := rfl
@[simp] theorem complete_bytecnt (e : ErrCode) (s : State) : (complete e s).bytecnt = s.bytecnt := rfl
@[simp] theorem complete_failcnt (e : ErrCode) (s : State) : (complete e s).failcnt = s.failcnt := rfl
@[simp] theorem complete_lastfail (e : ErrCode) (s : State) : (complete e s).lastfail = s.lastfail := rfl
@[simp] theorem complete_dinfo (e : ErrCode) (s : State) : (complete e s).dinfo = s.dinfo := rfl
@[simp] theorem complete_sym (e : ErrCode) (s : State) : (complete e s).sym = s.sym := rfl
@[simp] theorem complete_p (e : ErrCode) (s : State) : (complete e s).p = s.p := rfl
@[simp] theorem complete_q (e : ErrCode) (s : State) : (complete e s).q = s.q := rfl
@[simp] theorem complete_bus (e : ErrCode) (s : State) : (complete e s).bus = s.bus := rfl
@[simp] theorem complete_rdata (e : ErrCode) (s : State) : (complete e s).rdata = s.rdata := rfl

/-! ## `clearPending` -/

@[simp] theorem clearPending_cfg (v : Word) (s : State) : (clearPending v s).cfg = s.cfg := rfl
@[simp] theorem clearPending_cmdLast (v : Word) (s : State) : (clearPending v s).cmdLast = s.cmdLast := rfl
@[simp] theorem clearPending_err (v : Word) (s : State) : (clearPending v s).err = s.err := rfl
@[simp] theorem clearPending_dstat (v : Word) (s : State) : (clearPending v s).dstat = s.dstat := rfl
@[simp] theorem clearPending_sess (v : Word) (s : State) : (clearPending v s).sess = s.sess := rfl
@[simp] theorem clearPending_mis (v : Word) (s : State) : (clearPending v s).mis = s.mis := rfl
@[simp] theorem clearPending_pendDone (v : Word) (s : State) : (clearPending v s).pendDone = (s.pendDone && !v.getLsbD 0) := rfl
@[simp] theorem clearPending_pendErr (v : Word) (s : State) : (clearPending v s).pendErr = (s.pendErr && !v.getLsbD 1) := rfl
@[simp] theorem clearPending_enDone (v : Word) (s : State) : (clearPending v s).enDone = s.enDone := rfl
@[simp] theorem clearPending_enErr (v : Word) (s : State) : (clearPending v s).enErr = s.enErr := rfl
@[simp] theorem clearPending_a (v : Word) (s : State) : (clearPending v s).a = s.a := rfl
@[simp] theorem clearPending_b (v : Word) (s : State) : (clearPending v s).b = s.b := rfl
@[simp] theorem clearPending_r (v : Word) (s : State) : (clearPending v s).r = s.r := rfl
@[simp] theorem clearPending_tag (v : Word) (s : State) : (clearPending v s).tag = s.tag := rfl
@[simp] theorem clearPending_blkcnt (v : Word) (s : State) : (clearPending v s).blkcnt = s.blkcnt := rfl
@[simp] theorem clearPending_bytecnt (v : Word) (s : State) : (clearPending v s).bytecnt = s.bytecnt := rfl
@[simp] theorem clearPending_failcnt (v : Word) (s : State) : (clearPending v s).failcnt = s.failcnt := rfl
@[simp] theorem clearPending_lastfail (v : Word) (s : State) : (clearPending v s).lastfail = s.lastfail := rfl
@[simp] theorem clearPending_dinfo (v : Word) (s : State) : (clearPending v s).dinfo = s.dinfo := rfl
@[simp] theorem clearPending_sym (v : Word) (s : State) : (clearPending v s).sym = s.sym := rfl
@[simp] theorem clearPending_p (v : Word) (s : State) : (clearPending v s).p = s.p := rfl
@[simp] theorem clearPending_q (v : Word) (s : State) : (clearPending v s).q = s.q := rfl
@[simp] theorem clearPending_bus (v : Word) (s : State) : (clearPending v s).bus = s.bus := rfl
@[simp] theorem clearPending_rdata (v : Word) (s : State) : (clearPending v s).rdata = s.rdata := rfl

/-! ## `rejectCfg` -/

@[simp] theorem rejectCfg_cfg (e : ErrCode) (s : State) : (rejectCfg e s).cfg = s.cfg := rfl
@[simp] theorem rejectCfg_cmdLast (e : ErrCode) (s : State) : (rejectCfg e s).cmdLast = s.cmdLast := rfl
@[simp] theorem rejectCfg_err (e : ErrCode) (s : State) : (rejectCfg e s).err = e := rfl
@[simp] theorem rejectCfg_dstat (e : ErrCode) (s : State) : (rejectCfg e s).dstat = s.dstat := rfl
@[simp] theorem rejectCfg_sess (e : ErrCode) (s : State) : (rejectCfg e s).sess = s.sess := rfl
@[simp] theorem rejectCfg_mis (e : ErrCode) (s : State) : (rejectCfg e s).mis = s.mis := rfl
@[simp] theorem rejectCfg_pendDone (e : ErrCode) (s : State) : (rejectCfg e s).pendDone = s.pendDone := rfl
@[simp] theorem rejectCfg_pendErr (e : ErrCode) (s : State) : (rejectCfg e s).pendErr = true := rfl
@[simp] theorem rejectCfg_enDone (e : ErrCode) (s : State) : (rejectCfg e s).enDone = s.enDone := rfl
@[simp] theorem rejectCfg_enErr (e : ErrCode) (s : State) : (rejectCfg e s).enErr = s.enErr := rfl
@[simp] theorem rejectCfg_a (e : ErrCode) (s : State) : (rejectCfg e s).a = s.a := rfl
@[simp] theorem rejectCfg_b (e : ErrCode) (s : State) : (rejectCfg e s).b = s.b := rfl
@[simp] theorem rejectCfg_r (e : ErrCode) (s : State) : (rejectCfg e s).r = s.r := rfl
@[simp] theorem rejectCfg_tag (e : ErrCode) (s : State) : (rejectCfg e s).tag = s.tag := rfl
@[simp] theorem rejectCfg_blkcnt (e : ErrCode) (s : State) : (rejectCfg e s).blkcnt = s.blkcnt := rfl
@[simp] theorem rejectCfg_bytecnt (e : ErrCode) (s : State) : (rejectCfg e s).bytecnt = s.bytecnt := rfl
@[simp] theorem rejectCfg_failcnt (e : ErrCode) (s : State) : (rejectCfg e s).failcnt = s.failcnt := rfl
@[simp] theorem rejectCfg_lastfail (e : ErrCode) (s : State) : (rejectCfg e s).lastfail = s.lastfail := rfl
@[simp] theorem rejectCfg_dinfo (e : ErrCode) (s : State) : (rejectCfg e s).dinfo = s.dinfo := rfl
@[simp] theorem rejectCfg_sym (e : ErrCode) (s : State) : (rejectCfg e s).sym = s.sym := rfl
@[simp] theorem rejectCfg_p (e : ErrCode) (s : State) : (rejectCfg e s).p = s.p := rfl
@[simp] theorem rejectCfg_q (e : ErrCode) (s : State) : (rejectCfg e s).q = s.q := rfl
@[simp] theorem rejectCfg_bus (e : ErrCode) (s : State) : (rejectCfg e s).bus = s.bus := rfl
@[simp] theorem rejectCfg_rdata (e : ErrCode) (s : State) : (rejectCfg e s).rdata = s.rdata := rfl

/-! ## `setResultF` -/

@[simp] theorem setResultF_cfg (v : F) (s : State) : (setResultF v s).cfg = s.cfg := rfl
@[simp] theorem setResultF_cmdLast (v : F) (s : State) : (setResultF v s).cmdLast = s.cmdLast := rfl
@[simp] theorem setResultF_err (v : F) (s : State) : (setResultF v s).err = s.err := rfl
@[simp] theorem setResultF_dstat (v : F) (s : State) : (setResultF v s).dstat = s.dstat := rfl
@[simp] theorem setResultF_sess (v : F) (s : State) : (setResultF v s).sess = s.sess := rfl
@[simp] theorem setResultF_mis (v : F) (s : State) : (setResultF v s).mis = s.mis := rfl
@[simp] theorem setResultF_pendDone (v : F) (s : State) : (setResultF v s).pendDone = s.pendDone := rfl
@[simp] theorem setResultF_pendErr (v : F) (s : State) : (setResultF v s).pendErr = s.pendErr := rfl
@[simp] theorem setResultF_enDone (v : F) (s : State) : (setResultF v s).enDone = s.enDone := rfl
@[simp] theorem setResultF_enErr (v : F) (s : State) : (setResultF v s).enErr = s.enErr := rfl
@[simp] theorem setResultF_a (v : F) (s : State) : (setResultF v s).a = s.a := rfl
@[simp] theorem setResultF_b (v : F) (s : State) : (setResultF v s).b = s.b := rfl
@[simp] theorem setResultF_r (v : F) (s : State) : (setResultF v s).r = BitVec.ofNat 16 v.val := rfl
@[simp] theorem setResultF_tag (v : F) (s : State) : (setResultF v s).tag = s.tag := rfl
@[simp] theorem setResultF_blkcnt (v : F) (s : State) : (setResultF v s).blkcnt = s.blkcnt := rfl
@[simp] theorem setResultF_bytecnt (v : F) (s : State) : (setResultF v s).bytecnt = s.bytecnt := rfl
@[simp] theorem setResultF_failcnt (v : F) (s : State) : (setResultF v s).failcnt = s.failcnt := rfl
@[simp] theorem setResultF_lastfail (v : F) (s : State) : (setResultF v s).lastfail = s.lastfail := rfl
@[simp] theorem setResultF_dinfo (v : F) (s : State) : (setResultF v s).dinfo = s.dinfo := rfl
@[simp] theorem setResultF_sym (v : F) (s : State) : (setResultF v s).sym = s.sym := rfl
@[simp] theorem setResultF_p (v : F) (s : State) : (setResultF v s).p = s.p := rfl
@[simp] theorem setResultF_q (v : F) (s : State) : (setResultF v s).q = s.q := rfl
@[simp] theorem setResultF_bus (v : F) (s : State) : (setResultF v s).bus = s.bus := rfl
@[simp] theorem setResultF_rdata (v : F) (s : State) : (setResultF v s).rdata = s.rdata := rfl

/-! ## `openSession` -/

@[simp] theorem openSession_cfg (m : Session) (s : State) : (openSession m s).cfg = s.cfg := rfl
@[simp] theorem openSession_cmdLast (m : Session) (s : State) : (openSession m s).cmdLast = s.cmdLast := rfl
@[simp] theorem openSession_err (m : Session) (s : State) : (openSession m s).err = s.err := rfl
@[simp] theorem openSession_dstat (m : Session) (s : State) : (openSession m s).dstat = .none := rfl
@[simp] theorem openSession_sess (m : Session) (s : State) : (openSession m s).sess = m := rfl
@[simp] theorem openSession_mis (m : Session) (s : State) : (openSession m s).mis = false := rfl
@[simp] theorem openSession_pendDone (m : Session) (s : State) : (openSession m s).pendDone = s.pendDone := rfl
@[simp] theorem openSession_pendErr (m : Session) (s : State) : (openSession m s).pendErr = s.pendErr := rfl
@[simp] theorem openSession_enDone (m : Session) (s : State) : (openSession m s).enDone = s.enDone := rfl
@[simp] theorem openSession_enErr (m : Session) (s : State) : (openSession m s).enErr = s.enErr := rfl
@[simp] theorem openSession_a (m : Session) (s : State) : (openSession m s).a = s.a := rfl
@[simp] theorem openSession_b (m : Session) (s : State) : (openSession m s).b = s.b := rfl
@[simp] theorem openSession_r (m : Session) (s : State) : (openSession m s).r = s.r := rfl
@[simp] theorem openSession_tag (m : Session) (s : State) : (openSession m s).tag = s.tag := rfl
@[simp] theorem openSession_blkcnt (m : Session) (s : State) : (openSession m s).blkcnt = 0 := rfl
@[simp] theorem openSession_bytecnt (m : Session) (s : State) : (openSession m s).bytecnt = 0 := rfl
@[simp] theorem openSession_failcnt (m : Session) (s : State) : (openSession m s).failcnt = 0 := rfl
@[simp] theorem openSession_lastfail (m : Session) (s : State) : (openSession m s).lastfail = 0 := rfl
@[simp] theorem openSession_dinfo (m : Session) (s : State) : (openSession m s).dinfo = s.dinfo := rfl
@[simp] theorem openSession_sym (m : Session) (s : State) : (openSession m s).sym = s.sym := rfl
@[simp] theorem openSession_p (m : Session) (s : State) : (openSession m s).p = s.p := rfl
@[simp] theorem openSession_q (m : Session) (s : State) : (openSession m s).q = s.q := rfl
@[simp] theorem openSession_bus (m : Session) (s : State) : (openSession m s).bus = s.bus := rfl
@[simp] theorem openSession_rdata (m : Session) (s : State) : (openSession m s).rdata = s.rdata := rfl

/-! ## `padBlock` -/

@[simp] theorem padBlock_cfg (k : Nat) (s : State) : (padBlock k s).cfg = s.cfg := rfl
@[simp] theorem padBlock_cmdLast (k : Nat) (s : State) : (padBlock k s).cmdLast = s.cmdLast := rfl
@[simp] theorem padBlock_err (k : Nat) (s : State) : (padBlock k s).err = s.err := rfl
@[simp] theorem padBlock_dstat (k : Nat) (s : State) : (padBlock k s).dstat = s.dstat := rfl
@[simp] theorem padBlock_sess (k : Nat) (s : State) : (padBlock k s).sess = s.sess := rfl
@[simp] theorem padBlock_mis (k : Nat) (s : State) : (padBlock k s).mis = s.mis := rfl
@[simp] theorem padBlock_pendDone (k : Nat) (s : State) : (padBlock k s).pendDone = s.pendDone := rfl
@[simp] theorem padBlock_pendErr (k : Nat) (s : State) : (padBlock k s).pendErr = s.pendErr := rfl
@[simp] theorem padBlock_enDone (k : Nat) (s : State) : (padBlock k s).enDone = s.enDone := rfl
@[simp] theorem padBlock_enErr (k : Nat) (s : State) : (padBlock k s).enErr = s.enErr := rfl
@[simp] theorem padBlock_a (k : Nat) (s : State) : (padBlock k s).a = s.a := rfl
@[simp] theorem padBlock_b (k : Nat) (s : State) : (padBlock k s).b = s.b := rfl
@[simp] theorem padBlock_r (k : Nat) (s : State) : (padBlock k s).r = s.r := rfl
@[simp] theorem padBlock_tag (k : Nat) (s : State) : (padBlock k s).tag = s.tag := rfl
@[simp] theorem padBlock_blkcnt (k : Nat) (s : State) : (padBlock k s).blkcnt = s.blkcnt := rfl
@[simp] theorem padBlock_bytecnt (k : Nat) (s : State) : (padBlock k s).bytecnt = s.bytecnt := rfl
@[simp] theorem padBlock_failcnt (k : Nat) (s : State) : (padBlock k s).failcnt = s.failcnt := rfl
@[simp] theorem padBlock_lastfail (k : Nat) (s : State) : (padBlock k s).lastfail = s.lastfail := rfl
@[simp] theorem padBlock_dinfo (k : Nat) (s : State) : (padBlock k s).dinfo = s.dinfo := rfl
@[simp] theorem padBlock_p (k : Nat) (s : State) : (padBlock k s).p = s.p := rfl
@[simp] theorem padBlock_q (k : Nat) (s : State) : (padBlock k s).q = s.q := rfl
@[simp] theorem padBlock_bus (k : Nat) (s : State) : (padBlock k s).bus = s.bus := rfl
@[simp] theorem padBlock_rdata (k : Nat) (s : State) : (padBlock k s).rdata = s.rdata := rfl

/-! ## `countBlock` -/

@[simp] theorem countBlock_cfg (k : Nat) (s : State) : (countBlock k s).cfg = s.cfg := rfl
@[simp] theorem countBlock_cmdLast (k : Nat) (s : State) : (countBlock k s).cmdLast = s.cmdLast := rfl
@[simp] theorem countBlock_err (k : Nat) (s : State) : (countBlock k s).err = s.err := rfl
@[simp] theorem countBlock_dstat (k : Nat) (s : State) : (countBlock k s).dstat = s.dstat := rfl
@[simp] theorem countBlock_sess (k : Nat) (s : State) : (countBlock k s).sess = s.sess := rfl
@[simp] theorem countBlock_mis (k : Nat) (s : State) : (countBlock k s).mis = s.mis := rfl
@[simp] theorem countBlock_pendDone (k : Nat) (s : State) : (countBlock k s).pendDone = s.pendDone := rfl
@[simp] theorem countBlock_pendErr (k : Nat) (s : State) : (countBlock k s).pendErr = s.pendErr := rfl
@[simp] theorem countBlock_enDone (k : Nat) (s : State) : (countBlock k s).enDone = s.enDone := rfl
@[simp] theorem countBlock_enErr (k : Nat) (s : State) : (countBlock k s).enErr = s.enErr := rfl
@[simp] theorem countBlock_a (k : Nat) (s : State) : (countBlock k s).a = s.a := rfl
@[simp] theorem countBlock_b (k : Nat) (s : State) : (countBlock k s).b = s.b := rfl
@[simp] theorem countBlock_r (k : Nat) (s : State) : (countBlock k s).r = s.r := rfl
@[simp] theorem countBlock_tag (k : Nat) (s : State) : (countBlock k s).tag = s.tag := rfl
@[simp] theorem countBlock_blkcnt (k : Nat) (s : State) : (countBlock k s).blkcnt = s.blkcnt + 1 := rfl
@[simp] theorem countBlock_bytecnt (k : Nat) (s : State) : (countBlock k s).bytecnt = s.bytecnt + BitVec.ofNat 32 k := rfl
@[simp] theorem countBlock_failcnt (k : Nat) (s : State) : (countBlock k s).failcnt = s.failcnt := rfl
@[simp] theorem countBlock_lastfail (k : Nat) (s : State) : (countBlock k s).lastfail = s.lastfail := rfl
@[simp] theorem countBlock_dinfo (k : Nat) (s : State) : (countBlock k s).dinfo = s.dinfo := rfl
@[simp] theorem countBlock_sym (k : Nat) (s : State) : (countBlock k s).sym = s.sym := rfl
@[simp] theorem countBlock_p (k : Nat) (s : State) : (countBlock k s).p = s.p := rfl
@[simp] theorem countBlock_q (k : Nat) (s : State) : (countBlock k s).q = s.q := rfl
@[simp] theorem countBlock_bus (k : Nat) (s : State) : (countBlock k s).bus = s.bus := rfl
@[simp] theorem countBlock_rdata (k : Nat) (s : State) : (countBlock k s).rdata = s.rdata := rfl

/-! ## `recordFail` -/

@[simp] theorem recordFail_cfg (off : Word) (s : State) : (recordFail off s).cfg = s.cfg := rfl
@[simp] theorem recordFail_cmdLast (off : Word) (s : State) : (recordFail off s).cmdLast = s.cmdLast := rfl
@[simp] theorem recordFail_err (off : Word) (s : State) : (recordFail off s).err = s.err := rfl
@[simp] theorem recordFail_dstat (off : Word) (s : State) : (recordFail off s).dstat = s.dstat := rfl
@[simp] theorem recordFail_sess (off : Word) (s : State) : (recordFail off s).sess = s.sess := rfl
@[simp] theorem recordFail_mis (off : Word) (s : State) : (recordFail off s).mis = s.mis := rfl
@[simp] theorem recordFail_pendDone (off : Word) (s : State) : (recordFail off s).pendDone = s.pendDone := rfl
@[simp] theorem recordFail_pendErr (off : Word) (s : State) : (recordFail off s).pendErr = s.pendErr := rfl
@[simp] theorem recordFail_enDone (off : Word) (s : State) : (recordFail off s).enDone = s.enDone := rfl
@[simp] theorem recordFail_enErr (off : Word) (s : State) : (recordFail off s).enErr = s.enErr := rfl
@[simp] theorem recordFail_a (off : Word) (s : State) : (recordFail off s).a = s.a := rfl
@[simp] theorem recordFail_b (off : Word) (s : State) : (recordFail off s).b = s.b := rfl
@[simp] theorem recordFail_r (off : Word) (s : State) : (recordFail off s).r = s.r := rfl
@[simp] theorem recordFail_tag (off : Word) (s : State) : (recordFail off s).tag = s.tag := rfl
@[simp] theorem recordFail_blkcnt (off : Word) (s : State) : (recordFail off s).blkcnt = s.blkcnt := rfl
@[simp] theorem recordFail_bytecnt (off : Word) (s : State) : (recordFail off s).bytecnt = s.bytecnt := rfl
@[simp] theorem recordFail_failcnt (off : Word) (s : State) : (recordFail off s).failcnt = s.failcnt + 1 := rfl
@[simp] theorem recordFail_lastfail (off : Word) (s : State) : (recordFail off s).lastfail = off := rfl
@[simp] theorem recordFail_dinfo (off : Word) (s : State) : (recordFail off s).dinfo = s.dinfo := rfl
@[simp] theorem recordFail_sym (off : Word) (s : State) : (recordFail off s).sym = s.sym := rfl
@[simp] theorem recordFail_p (off : Word) (s : State) : (recordFail off s).p = s.p := rfl
@[simp] theorem recordFail_q (off : Word) (s : State) : (recordFail off s).q = s.q := rfl
@[simp] theorem recordFail_bus (off : Word) (s : State) : (recordFail off s).bus = s.bus := rfl
@[simp] theorem recordFail_rdata (off : Word) (s : State) : (recordFail off s).rdata = s.rdata := rfl

end Sys2Proof.Machine
end

