-- ==== Sys2Proof/Laws/Ops.lean ====
section
/-! SUPPORT. What each shared operation can do, said once: completion, `CFG` writes, loading `P`, the bodies of `ENCODE`
and `DECODE`, the access check and the step. -/

namespace Sys2Proof.Machine

/-! ## Completion -/

@[simp] theorem finish_eq_next (e : ErrCode) (s t : State) : finish e s = .next t ↔ complete e s = t := by
  simp [finish]

@[simp] theorem finish_ne_fault (e : ErrCode) (s : State) (f : Fault) : finish e s ≠ .fault f := by
  simp [finish]

@[simp] theorem finish_ne_refused (e : ErrCode) (s : State) (f : Refusal) : finish e s ≠ .refused f := by
  simp [finish]

theorem complete_success (s : State) : complete .none s = { s with err := .none, pendDone := true } := by
  simp [complete]

theorem complete_error {e : ErrCode} (h : e ≠ .none) (s : State) :
    complete e s = { s with err := e, pendDone := true, pendErr := true } := by
  simp [complete, h]

/-! ## Configuration writes (60_exceptions.md R306) -/

theorem writeCfg_cases (v : Word) (s : State) :
    (s.sess ≠ .idle ∧ writeCfg v s = rejectCfg .sequence s) ∨
    (s.sess = .idle ∧ (cfgOfWord v).legal = false ∧ writeCfg v s = rejectCfg .config s) ∨
    (s.sess = .idle ∧ (cfgOfWord v).legal = true ∧ writeCfg v s = { s with cfg := cfgOfWord v }) := by
  by_cases h : s.sess = .idle
  · cases hl : (cfgOfWord v).legal <;> simp [writeCfg, h, hl]
  · simp [writeCfg, h]

theorem legal_iff {c : Cfg} : c.legal = true ↔ 1 ≤ c.dataLen ∧ c.dataLen ≤ 10 ∧ 1 ≤ c.redundantLen ∧
    c.redundantLen ≤ 5 ∧ (c.trust = false ∨ c.redundantLen ≤ c.dataLen) := by
  simp only [Cfg.legal, Bool.and_eq_true, Bool.or_eq_true, decide_eq_true_eq, Bool.not_eq_true', and_assoc]
  rfl

/-! ## Symbols -/

theorem getElem_writeSymbols (b : SymbolBuf) (w : List F) (i : Fin 16) :
    (writeSymbols b w)[i] = if h : i.val < w.length then w[i.val] else b[i] := by
  by_cases h : i.val < w.length <;> simp [writeSymbols, h]

theorem getElem_padBlock (k : Nat) (s : State) (i : Fin 16) :
    (padBlock k s).sym[i] = if k ≤ i.val ∧ i.val < s.cfg.dataLen then 0 else s.sym[i] := by
  simp [padBlock]

@[simp] theorem codeword_length (p : Coeffs) (n : Nat) : (codeword p n).length = n := by simp [codeword]

/-! ## The bodies of commands -/

theorem loadP_cases (r : Except ErrCode Coeffs) (s : State) :
    (∃ e, r = .error e ∧ loadP r s = finish e s) ∨ (∃ p, r = .ok p ∧ loadP r s = finish .none { s with p := p }) := by
  cases r <;> simp [loadP]

/-- The data side of a configuration, as a mask: `N` points (43_interpolation_encoder.md R197). -/
theorem popcount_dataMask {c : Cfg} (h : c.dataLen ≤ 16) : popcount c.dataMask = c.dataLen := by
  rw [Cfg.dataMask, popcount_maskOf List.pairwise_lt_range, List.length_range]
  intro x hx
  have := List.mem_range.1 hx
  omega

/-- `ENCODE`'s body cannot fail on a configuration of at most 14 data symbols (43_interpolation_encoder.md R201). -/
theorem encodeBody_ok {s : State} (h : s.cfg.dataLen ≤ 14) :
    ∃ p, interp s.cfg.dataMask s.symbols = .ok p ∧
      encodeBody s = (.none, { s with sym := writeSymbols s.sym (codeword p s.cfg.codeLen)
                                      tag := tagOf s.cfg.dataLen (codeword p s.cfg.codeLen) }) := by
  obtain ⟨p, hp, -⟩ := interp_ok (m := s.cfg.dataMask) (by rw [popcount_dataMask (by omega)]; exact h) s.symbols
  exact ⟨p, hp, by simp [encodeBody, hp]⟩

theorem encodeBody_cases (s : State) :
    encodeBody s = (.encodingFailed, s) ∨
    ∃ p, encodeBody s = (.none, { s with sym := writeSymbols s.sym (codeword p s.cfg.codeLen)
                                         tag := tagOf s.cfg.dataLen (codeword p s.cfg.codeLen) }) := by
  unfold encodeBody
  split
  · exact .inl rfl
  · exact .inr ⟨_, rfl⟩

theorem decodeBody_cases (s : State) :
    (decodeWord s.cfg s.received s.tag = none ∧
      decodeBody s = (.uncorrectable, { s with dstat := .uncorrectable, dinfo := DInfo.noneAccepted })) ∨
    ∃ d, decodeWord s.cfg s.received s.tag = some d ∧
      decodeBody s = (.none, { s with sym := if d.corrected then writeSymbols s.sym d.found.c else s.sym
                                      dstat := if d.corrected then .corrected else .clean
                                      dinfo := decodeReport d }) := by
  unfold decodeBody
  split
  · exact .inl ⟨by assumption, rfl⟩
  · exact .inr ⟨_, by assumption, rfl⟩

/-! ## The bus and the step -/

theorem accessProblem_eq_none {off nbytes : Nat} :
    accessProblem off nbytes = none ↔ nbytes = 4 ∧ off % 4 = 0 ∧ off ≤ 0x0FC := by
  unfold accessProblem
  split_ifs <;> simp_all

theorem step_idle {s : State} (h : s.bus = []) : step s = .next s := by simp [step, h]

theorem step_cons {s : State} {ev : BusAccess} {rest : List BusAccess} (h : s.bus = ev :: rest) :
    step s = access ev { s with bus := rest } := by simp [step, h]

end Sys2Proof.Machine
end

