-- ==== Sys2Proof/Laws/Decoder.lean ====
section
/-! SUPPORT. The decoder's search is one search through its candidates in order: for one attempt, and for a whole decode
(44_decoder.md R235, R238). -/

namespace Sys2Proof.Safety

open Sys2Proof.Machine

theorem received_length {s : State} (h : s.cfg.legal = true) : s.received.length = s.cfg.codeLen := by
  obtain ⟨-, hn, -, he, -⟩ := legal_iff.1 h
  simp [State.received, State.symbols, Cfg.codeLen]
  omega

theorem symbolAt_received {s : State} {x : Nat} (hx : x < s.cfg.codeLen) : symbolAt s.received x = slot s.sym x := by
  by_cases h : x < 16 <;> simp [symbolAt, State.received, State.symbols, slot, hx, h]

theorem substitute_received {s : State} (h : s.cfg.legal = true) (subs : List Nat) :
    substitute s.received subs = wordWith s subs := by
  rw [substitute, wordWith, received_length h]
  exact List.map_congr_left fun x hx => by simp [symbolAt_received (List.mem_range.1 hx)]

theorem trustedZeros_received (s : State) :
    trustedZeros s.cfg s.received =
      (List.range' s.cfg.dataLen s.cfg.redundantLen).filter fun x => slot s.sym x == 0 :=
  List.filter_congr fun x hx => by
    rw [symbolAt_received]
    simp [trustedSide] at hx
    simp [Cfg.codeLen]
    omega

/-- What the search reports of an accepted candidate. -/
def foundBy (s : State) (c : Trial) : Option Accepted :=
  (verdict s c).map fun k => ⟨k.c, k.m, c.subset, c.pass⟩

theorem locatorValue_toNat (r : List F) (t : Byte) :
    (locatorValue r t).toNat = (locator r).toNat ^^^ (t.toNat % 16) := by
  simp [locatorValue]

theorem searchPass_eq_findSome? (s : State) (subs : List Nat) (pass : BitVec 2) (l : List (List Nat)) :
    searchPass s.cfg s.tag (wordWith s subs) (!subs.isEmpty) pass l =
      (l.map fun S => (⟨subs, S, pass⟩ : Trial)).findSome? (foundBy s) := by
  simp [searchPass, List.findSome?_map, Function.comp_def, foundBy, verdict]

/-- An attempt is one search through `attemptOrder`: the first pass, and the second if the first accepts nothing. -/
theorem attempt_eq_findSome? (s : State) (subs : List Nat) :
    attempt s.cfg s.tag (wordWith s subs) (!subs.isEmpty) = (attemptOrder s subs).findSome? (foundBy s) := by
  unfold attempt attemptOrder trustedOrder
  simp only [locatorValue_toNat, searchPass_eq_findSome?, avoiding, containing, allTrusted, withTrusted, trustedSide,
    dataSide]
  cases s.cfg.trust with
  | false => rfl
  | true =>
    by_cases h : (locator (wordWith s subs)).toNat ^^^ (s.tag.toNat % 16) < s.cfg.dataLen
    · simp only [h, List.map_map, Function.comp_def]
      simp only [if_true, Bool.not_true, Bool.false_eq_true, if_false, List.map_append, List.findSome?_append,
        List.map_map, Function.comp_def]
      generalize hp : List.findSome? (foundBy s) _ = first
      cases first <;> simp
    · simp [h, Function.comp_def]

theorem subs_of_mem_attemptOrder {s : State} {subs : List Nat} {c : Trial} (h : c ∈ attemptOrder s subs) :
    c.subs = subs := by
  unfold attemptOrder at h
  split at h <;> (obtain ⟨_, -, rfl⟩ := List.mem_map.1 h; rfl)

theorem findSome?_flatMap {α β γ : Type} (f : β → Option γ) (g : α → List β) (l : List α) :
    (l.flatMap g).findSome? f = l.findSome? fun a => (g a).findSome? f := by
  induction l with
  | nil => rfl
  | cons a l ih => cases h : (g a).findSome? f <;> simp [List.findSome?_append, h, ih]

theorem findSome?_congr {α β : Type} {f g : α → Option β} {l : List α} (h : ∀ a ∈ l, f a = g a) :
    l.findSome? f = l.findSome? g := by
  induction l with
  | nil => rfl
  | cons a l ih => simp [List.findSome?_cons, h a (by simp), ih fun b hb => h b (by simp [hb])]

/-- A whole decode is one search through `decodeOrder`. -/
theorem decodeWord_eq_findSome? {s : State} (h : s.cfg.legal = true) :
    decodeWord s.cfg s.received s.tag = (decodeOrder s).findSome? fun c =>
      (foundBy s c).map fun a => ⟨!(decide (a.m = 0) && c.subs.isEmpty), a, c.subs.length⟩ := by
  unfold decodeWord decodeOrder
  rw [trustedZeros_received, findSome?_flatMap]
  refine congrArg (fun f => List.findSome? f _) (funext fun subs => ?_)
  rw [decodeWith, substitute_received h, attempt_eq_findSome?, List.map_findSome?]
  exact findSome?_congr fun c hc => by simp [subs_of_mem_attemptOrder hc]

end Sys2Proof.Safety
end

