-- ==== Sys2Proof/Laws/Encoding.lean ====
section
/-! SUPPORT. Each field of a packed command word reads as what was packed (30_encoding.md R90). -/

namespace Sys2Proof

theorem opcOf_packWord (mask : BitVec 16) (f2 f1 : BitVec 4) (opc : BitVec 8) :
    opcOf (packWord mask f2 f1 opc) = opc := by
  ext i hi
  have h1 : i < 32 := by omega
  have h2 : i < 12 := by omega
  have h3 : i < 16 := by omega
  simp [opcOf, packWord, hi, h1, h2, h3]

theorem f1Of_packWord (mask : BitVec 16) (f2 f1 : BitVec 4) (opc : BitVec 8) :
    f1Of (packWord mask f2 f1 opc) = f1 := by
  ext i hi
  have h1 : 8 + i < 32 := by omega
  have h2 : 8 + i < 12 := by omega
  have h3 : 8 + i < 16 := by omega
  simp [f1Of, packWord, hi, h1, h2, h3]

theorem f2Of_packWord (mask : BitVec 16) (f2 f1 : BitVec 4) (opc : BitVec 8) :
    f2Of (packWord mask f2 f1 opc) = f2 := by
  ext i hi
  have h1 : 12 + i < 32 := by omega
  have h2 : 12 + i < 16 := by omega
  have h3 : 4 ≤ 12 + i - 8 := by omega
  have h4 : opc.getLsbD (12 + i) = false := BitVec.getLsbD_of_ge _ _ (by omega)
  simp [f2Of, packWord, hi, h1, h2, h3, h4]

theorem maskFieldOf_packWord (mask : BitVec 16) (f2 f1 : BitVec 4) (opc : BitVec 8) :
    maskFieldOf (packWord mask f2 f1 opc) = mask := by
  ext i hi
  have h1 : 16 + i < 32 := by omega
  have h3 : 4 ≤ 16 + i - 12 := by omega
  have h4 : 4 ≤ 16 + i - 8 := by omega
  have h5 : opc.getLsbD (16 + i) = false := BitVec.getLsbD_of_ge _ _ (by omega)
  simp [maskFieldOf, packWord, hi, h1, h3, h4, h5]

end Sys2Proof
end

