-- ==== Sys2Proof/Laws/PerInstr.lean ====
section
/-! SUPPORT. The family `OpcodeByte`: the low byte of every command's word is the command's opcode, whatever its operands
(30_encoding.md R90, R93). -/

namespace Sys2Proof.Laws.OpcodeByte

/-- Bits [7:0] of the word of `i` are the opcode of `i`. -/
def Statement (i : Instr) : Prop := opcOf (encode i) = opcodeOf i

theorem nop : Statement .nop := opcOf_packWord _ _ _ _
theorem fadd : Statement .fadd := opcOf_packWord _ _ _ _
theorem fsub : Statement .fsub := opcOf_packWord _ _ _ _
theorem fmul : Statement .fmul := opcOf_packWord _ _ _ _
theorem finv : Statement .finv := opcOf_packWord _ _ _ _
theorem fdiv : Statement .fdiv := opcOf_packWord _ _ _ _
theorem peval : Statement .peval := opcOf_packWord _ _ _ _
theorem padd : Statement .padd := opcOf_packWord _ _ _ _
theorem psub : Statement .psub := opcOf_packWord _ _ _ _
theorem pmul : Statement .pmul := opcOf_packWord _ _ _ _
theorem pscale : Statement .pscale := opcOf_packWord _ _ _ _
theorem pmovq : Statement .pmovq := opcOf_packWord _ _ _ _
theorem pclr : Statement .pclr := opcOf_packWord _ _ _ _
theorem basis (one : Nat) (xs : BitVec 16) : Statement (.basis one xs) := opcOf_packWord _ _ _ _
theorem interp (xs : BitVec 16) : Statement (.interp xs) := opcOf_packWord _ _ _ _
theorem evalsym (targets : BitVec 16) : Statement (.evalsym targets) := opcOf_packWord _ _ _ _
theorem encode : Statement .encode := opcOf_packWord _ _ _ _
theorem taggen : Statement .taggen := opcOf_packWord _ _ _ _
theorem locate : Statement .locate := opcOf_packWord _ _ _ _
theorem validate (subset : BitVec 16) : Statement (.validate subset) := opcOf_packWord _ _ _ _
theorem decode : Statement .decode := opcOf_packWord _ _ _ _
theorem sbegin (mode f2 : Nat) : Statement (.sbegin mode f2) := opcOf_packWord _ _ _ _
theorem benc (k f2 : Nat) : Statement (.benc k f2) := opcOf_packWord _ _ _ _
theorem bdec (k h : Nat) : Statement (.bdec k h) := opcOf_packWord _ _ _ _
theorem send : Statement .send := opcOf_packWord _ _ _ _

end Sys2Proof.Laws.OpcodeByte
end

