-- ==== Sys2Proof/Tests/Slice0.lean ====
section
/-! SUPPORT. The model's own tests: ill-formed terms, decoding, one step of each command, and a witness of the hypotheses
of each statement. An expected value is the spec's: its vector's name in 95_test_vectors.md, or the rule, is in the
comment. -/

namespace Sys2Proof.Tests

set_option Elab.async false

open Sys2Proof.Machine Sys2Proof.Safety

/-! ## Builders -/

/-- A symbol buffer that begins with the given symbols; the other slots are 0. -/
def symOf (l : List F) : SymbolBuf := Vector.ofFn fun i => l.getD i.val 0

/-- A polynomial with the given low coefficients. -/
def polyFrom (l : List F) : Coeffs := Vector.ofFn fun i => l.getD i.val 0

/-- `x^7`. -/
def x7 : Coeffs := polyFrom [0, 0, 0, 0, 0, 0, 0, 1]

/-- Reset, with symbols and a tag written. -/
def holding (l : List F) (tag : Byte) : State := { State.reset with sym := symOf l, tag := tag }

/-- The received word of DEC-T1: a codeword. -/
def intact : State := holding [29, 18, 248, 166, 247, 195, 228] 0x56

/-- The received word of DEC-T2: `SYM[1]` is wrong. -/
def damaged : State := holding [29, 76, 248, 166, 247, 195, 228] 0x56

/-- The received word of DEC-T6: a trusted symbol is wrong. -/
def hopeless : State := holding [29, 18, 248, 166, 247, 100, 228] 0x56

/-- The received word of DEC-T11: a redundant 256 was stored as 0. -/
def residue : State := holding [1, 0, 0, 0, 0, 253, 247] 0x37

/-- The data of S1, before encoding. -/
def plainData : State := { State.reset with sym := symOf [29, 18, 248, 166] }

/-- The state after a step from `s` on which the host writes the word `w` to `CMD`. -/
def afterWord (w : Nat) (s : State) : Option State :=
  match step (s.withFetchWord 32 w) with
  | .next t => some t
  | _ => none

/-- What the host reads in a register after that step. -/
def readsAfter (w : Nat) (s : State) (regs : List WinReg) : Option (List Word) :=
  (afterWord w s).map fun t => regs.map (readReg t)

/-- What the host reads in a register after a write of `v` at `off`. -/
def readsAfterWrite (off : Nat) (v : Word) (s : State) (regs : List WinReg) : Option (List Word) :=
  match step { s with bus := [.write off 4 v] } with
  | .next t => some (regs.map (readReg t))
  | _ => none

/-- The outcome is a next state with a property. -/
def endsWith (o : Result) (P : State → Prop) [DecidablePred P] : Bool :=
  match o with
  | .next t => decide (P t)
  | _ => false

theorem exists_of_endsWith {o : Result} {P : State → Prop} [DecidablePred P] (h : endsWith o P = true) :
    ∃ t, o = .next t ∧ P t := by
  cases o with
  | next t => exact ⟨t, rfl, by simpa [endsWith] using h⟩
  | fault f => simp [endsWith] at h
  | refused e => simp [endsWith] at h

/-! ## Well-formedness: each check refuses an ill-formed term -/

theorem test_wf_basis : (Instr.basis 16 0).wf = false ∧ (Instr.basis 15 0).wf = true := by decide

theorem test_wf_sbegin : (Instr.sbegin 16 0).wf = false ∧ (Instr.sbegin 0 16).wf = false := by decide

theorem test_wf_benc : (Instr.benc 16 0).wf = false ∧ (Instr.benc 1 16).wf = false := by decide

theorem test_wf_bdec : (Instr.bdec 16 1).wf = false ∧ (Instr.bdec 1 16).wf = false := by decide

/-! ## Decoding: words written out from 30_encoding.md R90 and R93, `{MASK, F2, F1, OPC}` -/

theorem test_decode_control : decode 0b0000000000000000_0000_0000_00000000 = .ok .nop := by decide

theorem test_decode_alu :
    decode 0b0000000000000000_0000_0000_00000001 = .ok .fadd ∧
    decode 0b0000000000000000_0000_0000_00000010 = .ok .fsub ∧
    decode 0b0000000000000000_0000_0000_00000011 = .ok .fmul ∧
    decode 0b0000000000000000_0000_0000_00000100 = .ok .finv ∧
    decode 0b0000000000000000_0000_0000_00000101 = .ok .fdiv := by decide

theorem test_decode_poly :
    decode 0b0000000000000000_0000_0000_00010000 = .ok .peval ∧
    decode 0b0000000000000000_0000_0000_00010001 = .ok .padd ∧
    decode 0b0000000000000000_0000_0000_00010010 = .ok .psub ∧
    decode 0b0000000000000000_0000_0000_00010011 = .ok .pmul ∧
    decode 0b0000000000000000_0000_0000_00010100 = .ok .pscale ∧
    decode 0b0000000000000000_0000_0000_00010101 = .ok .pmovq ∧
    decode 0b0000000000000000_0000_0000_00010110 = .ok .pclr := by decide

/-- The words of ENC-V1, ENC-V3, ENC-V5. -/
theorem test_decode_encoder :
    decode 0b0000000000000111_0000_0001_00100000 = .ok (.basis 1 0x0007) ∧
    decode 0b0011111111111111_0000_0000_00100001 = .ok (.interp 0x3FFF) ∧
    decode 0b0000000001110000_0000_0000_00100010 = .ok (.evalsym 0x0070) ∧
    decode 0b0000000000000000_0000_0000_00100011 = .ok .encode ∧
    decode 0b0000000000000000_0000_0000_00100100 = .ok .taggen := by decide

theorem test_decode_decoder :
    decode 0b0000000000000000_0000_0000_00110000 = .ok .locate ∧
    decode 0b0000000001110001_0000_0000_00110001 = .ok (.validate 0x0071) ∧
    decode 0b0000000000000000_0000_0000_00110010 = .ok .decode := by decide

/-- The words of BLK-V2, BLK-V4, BLK-V11, BLK-V9, BLK-V7. -/
theorem test_decode_block :
    decode 0b0000000000000000_0000_0001_01000000 = .ok (.sbegin 1 0) ∧
    decode 0b0000000000000000_0001_0000_01000000 = .ok (.sbegin 0 1) ∧
    decode 0b0000000000000000_0000_0101_01000001 = .ok (.benc 5 0) ∧
    decode 0b0000000000000000_0011_0100_01000010 = .ok (.bdec 4 3) ∧
    decode 0b0000000000000000_0000_0000_01000011 = .ok .send := by decide

/-- CMD-V2 to CMD-V5, ENC-V2d, BLK-V5. -/
theorem test_decode_illegal :
    decode 0x00000100 = .error .nonzeroField ∧ decode 0x00000006 = .error .unassignedOpcode ∧
    decode 0x00010001 = .error .nonzeroField ∧ decode 0x00000044 = .error .unassignedOpcode ∧
    decode 0x000000FF = .error .unassignedOpcode ∧ decode 0x00071020 = .error .nonzeroField ∧
    decode 0x00010040 = .error .nonzeroField := by decide

/-- The table gives every row 32 bits. -/
theorem test_decodeTableWord : decodeTableWord 32 0x00003442 = some (.bdec 4 3) := by decide

/-! ## One step of each command -/

/-- CMD-V6: `ERR` falls to 0 and the pending bits stay. -/
theorem test_nop_after_error : readsAfter 0x00 { State.reset with err := .noInverse, pendDone := true, pendErr := true }
    [.status, .intPend] = some [0x200, 3] := by decide

/-- CMD-V2. -/
theorem test_illegal_word : readsAfter 0x100 State.reset [.status, .intPend, .cmd] = some [0x260, 3, 0x100] := by decide

/-- ALU-V2. -/
theorem test_fadd : readsAfter 0x01 { State.reset with a := 256, b := 256 } [.r, .status, .intPend] =
    some [255, 0x200, 1] := by decide

/-- ALU-V6. -/
theorem test_fsub : readsAfter 0x02 { State.reset with a := 0, b := 256 } [.r] = some [1] := by decide

/-- ALU-V9. -/
theorem test_fmul : readsAfter 0x03 { State.reset with a := 16, b := 16 } [.r] = some [256] := by decide

/-- ALU-V10. -/
theorem test_finv : readsAfter 0x04 { State.reset with a := 3 } [.r] = some [86] := by decide +kernel

/-- ALU-V13, with a nonzero `R` that stays. -/
theorem test_finv_zero : readsAfter 0x04 { State.reset with r := 7 } [.r, .status, .intPend] =
    some [7, 0x210, 3] := by decide

/-- ALU-V14. -/
theorem test_fdiv : readsAfter 0x05 { State.reset with a := 5, b := 3 } [.r] = some [173] := by decide +kernel

/-- ALU-V17. -/
theorem test_fdiv_zero : readsAfter 0x05 State.reset [.status, .intPend] = some [0x210, 3] := by decide

/-- ALU-V18, the table of 41_field_alu.md R147. -/
theorem test_inverse_table : ([1, 2, 3, 4, 5, 16, 128, 255, 256] : List F).map inv =
    [1, 129, 86, 193, 103, 241, 255, 128, 256] := by decide +kernel

/-- POL-V2. -/
theorem test_peval : readsAfter 0x10 { State.reset with p := polyFrom [5, 0, 3], a := 256 } [.r] = some [8] := by
  decide +kernel

/-- POL-V6. -/
theorem test_padd : readsAfter 0x11 { State.reset with p := polyFrom [1, 2], q := polyFrom [256, 255] }
    [.p 0, .p 1, .degs] = some [0, 0, 0x100] := by decide +kernel

/-- POL-V7. -/
theorem test_psub : readsAfter 0x12 { State.reset with p := polyFrom [5, 0, 3], q := polyFrom [5, 0, 3] }
    [.p 0, .p 2, .degs] = some [0, 0, 0x200] := by decide +kernel

/-- POL-V8. -/
theorem test_pmul : readsAfter 0x13 { State.reset with p := polyFrom [5, 0, 3], q := polyFrom [1, 1] }
    [.p 0, .p 1, .p 2, .p 3, .degs] = some [5, 5, 3, 3, 0x103] := by decide +kernel

/-- POL-V9. -/
theorem test_pmul_overflow : readsAfter 0x13 { State.reset with p := x7, q := x7 } [.p 7, .status, .intPend] =
    some [1, 0x220, 3] := by decide +kernel

/-- POL-V12. -/
theorem test_pscale : readsAfter 0x14 { State.reset with p := polyFrom [5, 0, 3], a := 100 } [.p 0, .p 2] =
    some [243, 43] := by decide +kernel

/-- POL-V14, its first command. -/
theorem test_pmovq : readsAfter 0x15 { State.reset with p := polyFrom [1, 2] } [.q 0, .q 1, .degs] =
    some [1, 2, 0x101] := by decide +kernel

/-- POL-V15. -/
theorem test_pclr : readsAfter 0x16 { State.reset with p := polyFrom [5, 0, 3], q := polyFrom [1, 1] }
    [.p 0, .p 2, .q 1, .degs] = some [0, 0, 1, 0x100] := by decide +kernel

/-- ENC-V1. -/
theorem test_basis : readsAfter 0x00070120 { State.reset with sym := symOf [0, 5] } [.p 0, .p 1, .p 2] =
    some [0, 10, 252] := by decide +kernel

/-- ENC-V2b and ENC-V2c. -/
theorem test_basis_errors : readsAfter 0x00070320 State.reset [.status] = some [0x270] ∧
    readsAfter 0x7FFF0020 State.reset [.status] = some [0x220] := by decide +kernel

/-- ENC-V3: 14 points on `x^2`. -/
theorem test_interp : (afterWord 0x3FFF0021 { State.reset with
    sym := symOf [0, 1, 4, 9, 16, 25, 36, 49, 64, 81, 100, 121, 144, 169, 196, 225] }).map (·.p) =
    some (polyFrom [0, 0, 1]) := by decide +kernel

/-- ENC-V4. -/
theorem test_interp_overflow : readsAfter 0x7FFF0021 State.reset [.status, .intPend] = some [0x220, 3] := by
  decide +kernel

/-- ENC-V5. -/
theorem test_evalsym : readsAfter 0x00700022 { State.reset with p := polyFrom [29, 241, 140, 122] }
    [.sym 3, .sym 4, .sym 5, .sym 6, .sym 7] = some [0, 247, 195, 228, 0] := by decide +kernel

/-- S1 and ENC-V6, first row. -/
theorem test_encode : (afterWord 0x23 plainData).map (fun t => (t.sym, t.tag)) =
    some (symOf [29, 18, 248, 166, 247, 195, 228], 0x56) := by decide +kernel

/-- ENC-V7. -/
theorem test_encode_256 : readsAfter 0x23 { State.reset with sym := symOf [256] } [.sym 0, .sym 4, .status] =
    some [256, 0, 0x270] := by decide +kernel

/-- ENC-V8: a symbol 256 is byte 0 in the CRC and has odd parity. -/
theorem test_taggen : readsAfter 0x24 (holding [1, 0, 0, 0, 256, 253, 247] 0x99) [.r, .tag] = some [0x37, 0x99] := by
  decide +kernel

/-- ENC-V9. -/
theorem test_crc : crc16 [0x31, 0x32, 0x33, 0x34, 0x35, 0x36, 0x37, 0x38, 0x39] = 0x29B1 := by decide +kernel

/-- DEC-T3, its locator value. -/
theorem test_locate : readsAfter 0x30 (holding [29, 76, 248, 7, 247, 195, 228] 0x56) [.r] = some [2] := by
  decide +kernel

/-- DEC-V1, its second row. -/
theorem test_validate : readsAfter 0x00720031 damaged [.r, .p 0, .p 1, .p 2, .p 3] =
    some [0x0003, 145, 238, 26, 181] := by decide +kernel

/-- DEC-V1, its sixth row. -/
theorem test_validate_outside : readsAfter 0x00F00031 damaged [.r, .p 0, .status] = some [0, 0, 0x270] := by
  decide +kernel

/-- DEC-T2. -/
theorem test_decode : readsAfter 0x32 damaged [.sym 0, .sym 1, .status, .dinfo, .intPend] =
    some [29, 18, 0x100, 0x01010071, 1] := by decide +kernel

/-- DEC-T11: the residue retry. -/
theorem test_decode_residue : readsAfter 0x32 residue [.sym 0, .sym 4, .status, .dinfo] =
    some [1, 256, 0x100, 0x01100072] := by decide +kernel

/-- DEC-V2. -/
theorem test_substitution_order : dfs [4, 5, 6] = [[4], [4, 5], [4, 5, 6], [4, 6], [5], [5, 6], [6]] := by decide

/-- BLK-V2 and BLK-V3. -/
theorem test_sbegin : readsAfter 0x140 State.reset [.status] = some [0xA00] ∧
    readsAfter 0x240 State.reset [.status] = some [0x270] := by decide +kernel

/-- BLK-V13: padding overwrites 77 and 99. -/
theorem test_benc : readsAfter 0x241 { State.reset with sess := .enc, sym := symOf [0, 0, 77, 99] }
    [.sym 2, .sym 3, .tag, .blkcnt, .bytecnt] = some [0, 0, 0xC0, 1, 2] := by decide +kernel

/-- BLK-V6 and BLK-V11. -/
theorem test_benc_errors : readsAfter 0x441 State.reset [.status] = some [0x280] ∧
    readsAfter 0x541 { State.reset with sess := .enc } [.status] = some [0x670] := by decide +kernel

/-- BLK-V22, with six bytes decoded before: the failed block is logged under its own offset (R263). When `FAILCNT` wraps,
`LASTFAIL` reads 0 (R34, R35). -/
theorem test_bdec_failure : readsAfter 0x3442 { hopeless with sess := .dec, bytecnt := 6, blkcnt := 2 }
      [.status, .failcnt, .lastfail, .bytecnt, .blkcnt] = some [0xB40, 1, 6, 10, 3] ∧
    readsAfter 0x3442 { hopeless with sess := .dec, bytecnt := 6, failcnt := 0xFFFFFFFF }
      [.failcnt, .lastfail, .bytecnt] = some [0, 0, 10] := by decide +kernel

/-- BLK-V15, BLK-V16, and `BDEC 4, DATA`: R263 and R264 set `MIS`, count the block and leave `SYM` as received. -/
theorem test_bdec_lone_half : readsAfter 0x2042 { State.reset with sess := .dec } [.status, .blkcnt] =
      some [0x1A00, 0] ∧
    readsAfter 0x2142 { State.reset with sess := .dec } [.status] = some [0xA70] ∧
    readsAfter 0x1442 { damaged with sess := .dec } [.status, .blkcnt, .bytecnt, .sym 1] = some [0x1A00, 1, 4, 76] := by
  decide +kernel

/-- BLK-V24. -/
theorem test_send_misaligned : readsAfter 0x43 { State.reset with sess := .dec, mis := true } [.status] =
    some [0x1250] := by decide +kernel

/-- BLK-V7 and BLK-V25. -/
theorem test_send : readsAfter 0x43 State.reset [.status] = some [0x280] ∧
    readsAfter 0x43 { State.reset with sess := .enc } [.status] = some [0x200] := by decide +kernel

/-! ## The register window -/

/-- ALU-V19: reduction at the write. -/
theorem test_write_a : readsAfterWrite 0x018 1000 State.reset [.a] = some [229] ∧
    readsAfterWrite 0x018 257 State.reset [.a] = some [0] ∧
    readsAfterWrite 0x018 256 State.reset [.a] = some [256] := by decide +kernel

/-- CFG-V5 and CFG-V8. -/
theorem test_write_cfg :
    readsAfterWrite 0x004 0x152 State.reset [.cfg, .status, .intPend] = some [0x134, 0x290, 2] ∧
    readsAfterWrite 0x004 0xB4 State.reset [.cfg, .status, .intPend] = some [0x34, 0x200, 0] := by decide +kernel

/-- INT-V3: a 1 clears its pending bit. -/
theorem test_write_intPend :
    readsAfterWrite 0x010 1 { State.reset with pendDone := true, pendErr := true } [.intPend] = some [2] := by
  decide +kernel

/-- RST-V1: some of its reads. -/
theorem test_reset_reads : [WinReg.id, .cfg, .status, .dinfo, .degs].map (readReg State.reset) =
    [0x47460107, 0x134, 0x200, 0x03000000, 0] := by decide +kernel

/-! ## Witnesses of the statements' hypotheses

A name `test_witness_<Name>` says that the hypotheses of `Obligations.<Name>` are met together. -/

theorem test_witness_ResetGivesTheRecord :
    ∃ (s : State) (rest : List BusAccess), s.bus = .reset :: rest := ⟨{ State.reset with bus := [.reset] }, [], rfl⟩

theorem test_witness_StepRunsTheWrittenCommand :
    (∃ (s : State) (rest : List BusAccess) (w : Word) (i : Instr),
      s.bus = .write 0x008 4 w :: rest ∧ decode w = .ok i) ∧
    ∃ nbits w i, decodeTableWord nbits w = some i :=
  ⟨⟨{ State.reset with bus := [.write 0x008 4 0x3442] }, [], 0x3442, .bdec 4 3, rfl, by decide⟩,
    32, 0x3442, .bdec 4 3, by decide⟩

/-- Each range of unassigned opcodes, at both ends. -/
theorem test_witness_IllegalWordsAreRejected :
    (∀ o ∈ [0x06, 0x0F, 0x17, 0x1F, 0x25, 0x2F, 0x33, 0x3F, 0x44, 0xFF],
      decode (BitVec.ofNat 32 o) = .error .unassignedOpcode) ∧
    ∃ (s : State) (rest : List BusAccess) (w : Word),
      s.bus = .write 0x008 4 w :: rest ∧ ∀ row ∈ opcodeRows, row.selects w = false :=
  ⟨by decide, { State.reset with bus := [.write 0x008 4 0x100] }, [], 0x100, rfl, by decide⟩

/-- Each way an access can fail to fit the interface, at the last offset of the window and just outside it. -/
theorem test_witness_ExactlyTheExpressibleAccessesComplete :
    (∀ ev ∈ ({ State.reset with bus := [.read 0x0FC 4] } : State).bus.head?, expressible ev = true) ∧
    (∀ ev ∈ [BusAccess.read 0x0FC 2, .write 0x0FE 4 0, .read 0x100 4],
      ∃ (s : State) (rest : List BusAccess), s.bus = ev :: rest ∧ expressible ev = false) :=
  ⟨by decide, fun ev h => ⟨{ State.reset with bus := [ev] }, [], rfl, by revert h; revert ev; decide⟩⟩

theorem test_witness_RowSelectsItsCommand :
    ∃ w, ∃ row ∈ opcodeRows, row.selects w = true := ⟨0x3442, ⟨"BDEC", 0x42, 0xFFFF00FF⟩, by decide, by decide⟩

/-- The largest operands of each field. -/
theorem test_witness_DecodeOfEncodeIsIdentity :
    ∀ i ∈ [Instr.basis 15 0xFFFF, .sbegin 15 15, .benc 15 15, .bdec 15 15, .send], i.WellFormed := by decide

theorem test_witness_EncodeOfDecodeIsIdentity : ∃ w i, decode w = .ok i := ⟨0xFFFF0F20, .basis 15 0xFFFF, by decide⟩

/-- The largest small operands. -/
theorem test_witness_SyntaxGivesTheWords : ∃ (one k h : Nat), one = 15 ∧ k = 15 ∧ h = 15 ∧ one < 16 ∧ k < 16 ∧ h < 16 :=
  ⟨15, 15, 15, by decide⟩

/-- CMD-V2. -/
theorem test_witness_NopOnlyCompletes : ∃ w, opcOf w = 0x00 ∧ w ≠ 0 := ⟨0x100, by decide⟩

theorem test_witness_RejectedCommandsChangeNothing :
    (∃ t, exec .send State.reset = .next t ∧ t.err = .sequence) ∧
    ∃ t, exec (.sbegin 2 0) State.reset = .next t ∧ t.err = .badOperand :=
  ⟨exists_of_endsWith (by decide +kernel), exists_of_endsWith (by decide +kernel)⟩

theorem test_witness_ExecutionErrorsChangeNothingElse :
    ∃ t, exec .finv State.reset = .next t ∧ t.err = .noInverse :=
  exists_of_endsWith (by decide +kernel)

theorem test_witness_FinvFdivResults :
    State.reset.a = 0 ∧ State.reset.b = 0 ∧ ({ State.reset with a := 256, b := 1 } : State).a ≠ 0 ∧
      ({ State.reset with a := 256, b := 1 } : State).b ≠ 0 := by decide

/-- Degrees 6 and 7 do not overflow, and degrees 7 and 7 do: POL-V11, POL-V9. -/
theorem test_witness_PmulGivesTheProduct :
    (∃ s : State, ∃ i j : Fin 14, s.p[i] ≠ 0 ∧ s.q[j] ≠ 0 ∧ 13 < i.val + j.val) ∧
    ∃ s : State, ∀ i j : Fin 14, s.p[i] ≠ 0 → s.q[j] ≠ 0 → i.val + j.val ≤ 13 :=
  ⟨⟨{ State.reset with p := x7, q := x7 }, 7, 7, by decide +kernel⟩,
    ⟨{ State.reset with p := polyFrom [0, 0, 0, 0, 0, 0, 2], q := polyFrom [1, 0, 0, 0, 0, 0, 0, 3] },
      by decide +kernel⟩⟩

/-- Its three endings: `one` outside the mask, 15 points, 14 points. -/
theorem test_witness_BasisLoadsTheBasisPolynomial :
    (0x3FFF : BitVec 16).getLsbD 15 = false ∧
    ((0x7FFF : BitVec 16).getLsbD 14 = true ∧ 15 ≤ countBits 0x7FFF) ∧
    ((0x3FFF : BitVec 16).getLsbD 13 = true ∧ countBits 0x3FFF ≤ 14) := by decide

theorem test_witness_InterpLoadsTheInterpolant :
    15 ≤ countBits 0x7FFF ∧ countBits 0x3FFF ≤ 14 ∧
    ∃ (s : State) (d : Coeffs), degreeBelow d (countBits 0x0005) ∧
      ∀ x, x < 16 → (0x0005 : BitVec 16).getLsbD x = true → valueAt d x = (slot s.sym x).val :=
  ⟨by decide, by decide, { State.reset with sym := symOf [7, 0, 9] }, polyFrom [7, 1],
    by unfold degreeBelow; decide +kernel, by decide +kernel⟩

theorem test_witness_EncodeWritesTheCodeword :
    State.reset.cfg.legal = true ∧ dataAreBytes plainData ∧ ¬ dataAreBytes { State.reset with sym := symOf [256] } :=
  ⟨by decide, by unfold dataAreBytes; decide +kernel, by unfold dataAreBytes; decide +kernel⟩

/-- ENC-V5: a selected slot and the unselected ones beside it. -/
theorem test_witness_EvalsymWritesTheValues :
    (0x0070 : BitVec 16).getLsbD 4 = true ∧ (0x0070 : BitVec 16).getLsbD 3 = false ∧
    (0x0070 : BitVec 16).getLsbD 6 = true ∧ (0x0070 : BitVec 16).getLsbD 7 = false ∧
    (0x8000 : BitVec 16).getLsbD 15 = true := by decide

/-- The highest bit of the locator. -/
theorem test_witness_LocatorIsTheXorOfOddAbscissas : ∃ j : Nat, j = 3 ∧ j < 4 := ⟨3, by decide⟩

/-- A mask bit at `L`, a mask of the wrong size, and a legal mask that holds the last abscissa of the codeword. -/
theorem test_witness_ValidateReportsTheMismatches :
    damaged.cfg.legal = true ∧
    (∃ x, damaged.cfg.codeLen ≤ x ∧ x < 16 ∧ (0x00F0 : BitVec 16).getLsbD x = true) ∧
    countBits 0x0007 ≠ damaged.cfg.dataLen ∧
    ((∀ x, x < 16 → (0x0071 : BitVec 16).getLsbD x = true → x < damaged.cfg.codeLen) ∧
      countBits 0x0071 = damaged.cfg.dataLen) :=
  ⟨by decide, ⟨7, by decide, by decide, by decide⟩, by decide, by decide, by decide⟩

theorem test_witness_CodewordsDecodeClean : intact.cfg.legal = true ∧ holdsCodeword intact :=
  ⟨by decide, polyFrom [29, 241, 140, 122], by unfold degreeBelow; decide +kernel, by decide +kernel⟩

theorem test_witness_EncodedBlocksDecodeClean : plainData.cfg.legal = true ∧ dataAreBytes plainData :=
  ⟨by decide, by unfold dataAreBytes; decide +kernel⟩

/-- DEC-T2: `SYM[1]` becomes 76. -/
theorem test_witness_OneWrongDataSymbolIsCorrected :
    plainData.cfg.legal = true ∧ dataAreBytes plainData ∧ 2 ≤ plainData.cfg.redundantLen ∧
    ∃ t, exec .encode plainData = .next t ∧ ∃ (e : Fin 16) (v : F),
      e.val < plainData.cfg.dataLen ∧ v.val ≤ 255 ∧ v ≠ t.sym[e] :=
  ⟨by decide, by unfold dataAreBytes; decide +kernel, by decide,
    (exists_of_endsWith (P := fun t => (76 : F) ≠ t.sym[(1 : Fin 16)]) (by decide +kernel)).imp
      fun t h => ⟨h.1, 1, 76, by decide, by decide, h.2⟩⟩

/-- DEC-T3: two wrong data symbols, with `E` 3. -/
theorem test_witness_FewErrorsAreNotUncorrectable :
    plainData.cfg.legal = true ∧ dataAreBytes plainData ∧
    ∃ t, exec .encode plainData = .next t ∧
      countIn 0 plainData.cfg.codeLen
        (fun x => decide (slot (symOf [29, 76, 248, 7, 247, 195, 228]) x ≠ slot t.sym x)) = 2 ∧
      ∀ x, x < plainData.cfg.codeLen → plainData.cfg.dataLen ≤ x →
        slot (symOf [29, 76, 248, 7, 247, 195, 228]) x = slot t.sym x := by
  refine ⟨by decide, by unfold dataAreBytes; decide +kernel, ?_⟩
  exact exists_of_endsWith (by decide +kernel)

/-- DEC-T11, where a 0 is read as 256. -/
theorem test_witness_TrustedCorrectionsAreVerified :
    residue.cfg.legal = true ∧ residue.cfg.trust = true ∧
    ∃ t, exec .decode residue = .next t ∧ t.dstat = .corrected :=
  ⟨by decide, by decide, exists_of_endsWith (by decide +kernel)⟩

theorem test_witness_DecodedWordsAreCodewords :
    damaged.cfg.legal = true ∧ ∃ t, exec .decode damaged = .next t ∧ t.err = .none :=
  ⟨by decide, exists_of_endsWith (by decide +kernel)⟩

theorem test_witness_SubsetsInLexicographicOrder : [0, 4, 5].Pairwise (· < ·) := by decide

/-- The located abscissa at both ends of the data side. -/
theorem test_witness_PassesCoverTheCandidatesOnce :
    State.reset.cfg.legal = true ∧ State.reset.cfg.trust = true ∧ 0 < State.reset.cfg.dataLen ∧
      3 < State.reset.cfg.dataLen := by decide

/-- DEC-T1b: the first subset of all is accepted. -/
theorem test_witness_TrustOffTakesTheFirstCandidate :
    ∃ (s : State) (before : List (List Nat)) (S : List Nat) (after : List (List Nat)) (k : Candidate),
      s.cfg.trust = false ∧ choose (List.range s.cfg.codeLen) s.cfg.dataLen = before ++ S :: after ∧
      (∀ S' ∈ before, consider s.cfg s.tag s.received false S' = none) ∧
      consider s.cfg s.tag s.received false S = some k :=
  let s : State := { intact with cfg := ⟨4, 3, false⟩ }
  ⟨s, [], [0, 1, 2, 3], (choose (List.range 7) 4).tail,
    (consider s.cfg s.tag s.received false [0, 1, 2, 3]).getD ⟨zeroPoly, [], 0, 0⟩,
    rfl, by decide +kernel, by simp, by decide +kernel⟩

/-- A trial that the search accepts before any other, as the statement's hypotheses say it. -/
theorem exists_of_firstAccepted {s : State} {c : Trial}
    (h : (decodeOrder s).find? (fun b => (verdict s b).isSome) = some c) :
    ∃ before after k, decodeOrder s = before ++ c :: after ∧ (∀ b ∈ before, verdict s b = none) ∧
      verdict s c = some k := by
  obtain ⟨hc, before, after, ho, hb⟩ := List.find?_eq_some_iff_append.1 h
  obtain ⟨k, hk⟩ := Option.isSome_iff_exists.1 hc
  exact ⟨before, after, k, ho, fun b h => by simpa using hb b h, hk⟩

/-- DEC-T2 (pass 1), DEC-T9 (the locator value is at least `N`, pass 0), DEC-T11 (the retry with `{4}`, after a whole
attempt is rejected) and DEC-T2b (trust off). No state makes pass 2 win: a candidate that it would accept agrees with the
word at `N - E` data symbols other than the located one, so a subset of pass 1 gives the same candidate. -/
theorem test_witness_FirstAcceptedCandidateWins :
    (∀ sc ∈ [(damaged, (⟨[], [0, 4, 5, 6], 1⟩ : Trial)), ({ intact with tag := 0x50 }, ⟨[], [0, 4, 5, 6], 0⟩),
        (residue, ⟨[4], [1, 4, 5, 6], 1⟩), ({ damaged with cfg := ⟨4, 3, false⟩ }, ⟨[], [0, 2, 3, 4], 0⟩)],
      sc.1.cfg.legal = true ∧ ∃ before after k, decodeOrder sc.1 = before ++ sc.2 :: after ∧
        (∀ b ∈ before, verdict sc.1 b = none) ∧ verdict sc.1 sc.2 = some k) ∧
    hopeless.cfg.legal = true ∧ ∀ c ∈ decodeOrder hopeless, verdict hopeless c = none := by
  simp only [List.forall_mem_cons]
  exact ⟨⟨⟨by decide, exists_of_firstAccepted (by decide +kernel)⟩,
    ⟨by decide, exists_of_firstAccepted (by decide +kernel)⟩, ⟨by decide, exists_of_firstAccepted (by decide +kernel)⟩,
    ⟨by decide, exists_of_firstAccepted (by decide +kernel)⟩, by simp⟩, by decide, by decide +kernel⟩

/-- DEC-T6 returns -1, and DEC-T2 does not. -/
theorem test_witness_UncorrectableIffAllRejected :
    hopeless.cfg.legal = true ∧ (∃ t, exec .decode hopeless = .next t ∧ t.err = .uncorrectable) ∧
    ∃ t, exec .decode damaged = .next t ∧ t.err ≠ .uncorrectable :=
  ⟨by decide, exists_of_endsWith (by decide +kernel),
    exists_of_endsWith (by decide +kernel)⟩

/-- Two states that differ in `A` and above the codeword. -/
theorem test_witness_DecodeDependsOnTheBlockOnly :
    ∃ s1 s2 : State, s1.a ≠ s2.a ∧ slot s1.sym 7 ≠ slot s2.sym 7 ∧ s1.cfg = s2.cfg ∧ s1.tag = s2.tag ∧
      ∀ x, x < s1.cfg.codeLen → slot s1.sym x = slot s2.sym x :=
  ⟨damaged, { damaged with a := 1, sym := damaged.sym.set 7 9 }, by decide, by decide +kernel, rfl, rfl,
    by decide +kernel⟩

theorem test_witness_SbeginOpensASession :
    ({ State.reset with sess := .dec } : State).sess ≠ .idle ∧ State.reset.sess = .idle ∧ (1 < 2 ∨ (0 : Nat) ≠ 0) ∧
      (1 ≤ 1 ∧ (0 : Nat) = 0) := by decide

/-- The operands that `BENC` rejects, one for each reason, `k` at 1 and at `N`, and a symbol 256 within the chunk. -/
theorem test_witness_BencEncodesThePaddedChunk :
    State.reset.sess ≠ .enc ∧
    ∃ s u : State, (s.sess = .enc ∧ s.cfg.dataLen = 4 ∧ ∃ x, x < 4 ∧ slot s.sym x = 256) ∧
      u.cfg.legal = true ∧ u.sess = .enc ∧
      (∀ kf ∈ [(1, 1), (0, 0), (5, 0)], kf.2 ≠ 0 ∨ kf.1 < 1 ∨ u.cfg.dataLen < kf.1) ∧
      ∀ k ∈ [1, 4], 1 ≤ k ∧ k ≤ u.cfg.dataLen ∧ ∀ x, x < k → slot u.sym x ≠ 256 :=
  ⟨by decide, { State.reset with sess := .enc, sym := symOf [1, 2, 3, 256] }, { plainData with sess := .enc },
    ⟨by decide, by decide, 3, by decide, by decide +kernel⟩, by decide, by decide, by decide, by decide +kernel⟩

/-- The operands that `BDEC` rejects, one for each reason, and those it accepts: `k` at 1 and at `N` with data alone and
with both halves, and a lone record. -/
theorem test_witness_BdecDecodesThePaddedBlock :
    State.reset.sess ≠ .dec ∧
    ∃ s : State, s.sess = .dec ∧ s.cfg.dataLen = 4 ∧
      (∀ kh ∈ [(1, 0), (1, 4), (1, 2), (0, 1), (0, 3), (5, 3)],
        kh.2 = 0 ∨ 3 < kh.2 ∨ (kh.2 = 2 ∧ kh.1 ≠ 0) ∨ (kh.2 ≠ 2 ∧ (kh.1 < 1 ∨ s.cfg.dataLen < kh.1))) ∧
      ∀ kh ∈ [(1, 1), (4, 1), (1, 3), (4, 3), (0, 2)],
        (kh.2 = 2 ∧ kh.1 = 0) ∨ ((kh.2 = 1 ∨ kh.2 = 3) ∧ 1 ≤ kh.1 ∧ kh.1 ≤ s.cfg.dataLen) :=
  ⟨by decide, { State.reset with sess := .dec }, by decide, by decide, by decide, by decide⟩

theorem test_witness_SendClosesAndReports :
    State.reset.sess = .idle ∧
    ∃ s1 s2 s3 s4 : State, (s1.sess ≠ .idle ∧ s1.mis = true) ∧ (s2.sess = .dec ∧ s2.mis = false ∧ s2.failcnt ≠ 0) ∧
      (s3.sess = .enc ∧ s3.mis = false ∧ s3.failcnt ≠ 0) ∧ (s4.sess ≠ .idle ∧ s4.mis = false ∧ s4.failcnt = 0) :=
  ⟨by decide, { State.reset with sess := .dec, mis := true }, { State.reset with sess := .dec, failcnt := 1 },
    { State.reset with sess := .enc, failcnt := 1 }, { State.reset with sess := .enc }, by decide⟩

/-- Reset, `SBEGIN` and `SEND` each change the session. -/
theorem test_witness_OnlySbeginSendAndResetChangeTheSession :
    ∀ se ∈ [(Session.dec, BusAccess.reset), (.idle, .write 0x008 4 0x40), (.idle, .write 0x008 4 0x140),
        (.enc, .write 0x008 4 0x43)],
      ∃ (s t : State) (rest : List BusAccess), s.bus = se.2 :: rest ∧ step s = .next t ∧ t.sess ≠ s.sess := by
  have next (se : Session) (ev : BusAccess)
      (h : endsWith (step { State.reset with sess := se, bus := [ev] }) (·.sess ≠ se) = true) :
      ∃ (s t : State) (rest : List BusAccess), s.bus = ev :: rest ∧ step s = .next t ∧ t.sess ≠ s.sess :=
    (exists_of_endsWith h).elim fun t ht => ⟨_, t, [], rfl, ht⟩
  simp only [List.forall_mem_cons]
  exact ⟨next .dec .reset (by decide +kernel), next .idle (.write 0x008 4 0x40) (by decide +kernel),
    next .idle (.write 0x008 4 0x140) (by decide +kernel), next .enc (.write 0x008 4 0x43) (by decide +kernel), by simp⟩

theorem test_witness_EachRegisterHasItsWriters :
    ∃ i s t, exec i s = .next t ∧ mnemonicOf i = "NOP" := ⟨.nop, State.reset, _, rfl, rfl⟩

theorem test_witness_SlotsAboveTheCodewordAreApart :
    mnemonicOf .decode ∈ ["ENCODE", "DECODE", "BENC", "BDEC"] ∧ damaged.cfg.legal = true ∧
    ∃ b : SymbolBuf, slot b 7 ≠ slot damaged.sym 7 ∧
      ∀ x, x < damaged.cfg.codeLen → slot b x = slot damaged.sym x :=
  ⟨by decide, by decide, damaged.sym.set 7 9, by decide +kernel, by decide +kernel⟩

theorem test_witness_OtherCommandsIgnoreTheSession :
    mnemonicOf .decode ∉ ["SBEGIN", "BENC", "BDEC", "SEND"] := by decide

/-- A failed encode session, which no run reaches, still satisfies the hypotheses. -/
theorem test_witness_UnreachableErrorsDoNotOccur :
    State.reset.cfg.legal = true ∧ (∃ t, exec .finv State.reset = .next t ∧ t.err = .noInverse) ∧
    ∃ t, exec .send { State.reset with sess := .enc, failcnt := 1 } = .next t ∧ t.err = .encodingFailed :=
  ⟨by decide, exists_of_endsWith (by decide +kernel),
    exists_of_endsWith (by decide +kernel)⟩

theorem test_witness_ReadsHaveNoEffect :
    ∃ (s : State) (rest : List BusAccess), s.bus = .read 0x0FC 4 :: rest ∧ 0x0FC % 4 = 0 ∧ 0x0FC ≤ 0x0FC :=
  ⟨{ State.reset with bus := [.read 0x0FC 4] }, [], rfl, by decide⟩

/-- Each clause has an offset: the first and the last of its registers. -/
theorem test_witness_WritesStoreWhatTheMapSays :
    (∃ (s : State) (rest : List BusAccess) (v : Word), s.bus = .write 0x0F4 4 v :: rest) ∧
    [0x000, 0x0FC, 0x018, 0x01C, 0x040, 0x07C, 0x080, 0x0B4, 0x0C0, 0x0F4, 0x024, 0x014, 0x010].map regAt =
      [.id, .reserved, .a, .b, .sym 0, .sym 15, .p 0, .p 13, .q 0, .q 13, .tag, .intEn, .intPend] :=
  ⟨⟨{ State.reset with bus := [.write 0x0F4 4 300] }, [], 300, rfl⟩, by decide⟩

/-- The `CFG` write in an open session, an illegal value, and the two legal ends of the ranges. -/
theorem test_witness_CfgWriteIsValidated :
    (∃ (s : State) (rest : List BusAccess), s.bus = .write 0x004 4 0x134 :: rest ∧ s.sess ≠ .idle) ∧
    (∃ (s : State) (rest : List BusAccess), s.bus = .write 0x004 4 0x13B :: rest ∧ s.sess = .idle) ∧
    (∀ n ∈ [0, 11], ¬ (1 ≤ n ∧ n ≤ 10)) ∧ (∀ ne ∈ [(1, 1), (10, 5)], 1 ≤ ne.1 ∧ ne.1 ≤ 10 ∧ 1 ≤ ne.2 ∧ ne.2 ≤ 5) :=
  ⟨⟨{ State.reset with sess := .enc, bus := [.write 0x004 4 0x134] }, [], rfl, by decide⟩,
    ⟨{ State.reset with bus := [.write 0x004 4 0x13B] }, [], rfl, by decide⟩, by decide, by decide⟩

/-- The last byte of the window. -/
theorem test_witness_HostBytesAreLittleEndian : 0x0FC % 4 = 0 ∧ 0x0FC ≤ 0x0FC ∧ 3 < 4 := by decide

theorem test_witness_StepKeepsTheInvariant :
    ∃ s t, CoreInv s ∧ step s = .next t ∧ t.dstat = .corrected :=
  (exists_of_endsWith (o := step (damaged.withFetchWord 32 0x32)) (P := fun t => t.dstat = .corrected)
    (by decide +kernel)).elim fun t h => ⟨_, t,
      ⟨by decide, by decide, by decide, by decide, by decide, by decide, by decide, by decide, by decide⟩, h⟩

end Sys2Proof.Tests
end

