-- ==== Sys2Proof/Proofs/SearchOrder.lean ====
section
/-! The two enumerations of the decoder's search, `choose` and `dfs`: what they list, and in which order. -/
namespace Sys2Proof.Machine

@[simp] theorem choose_zero (U : List Nat) : choose U 0 = [[]] := by cases U <;> rfl

@[simp] theorem choose_nil_succ (k : Nat) : choose [] (k + 1) = [] := rfl

theorem choose_cons_succ (x : Nat) (xs : List Nat) (k : Nat) :
    choose (x :: xs) (k + 1) = (choose xs k).map (x :: ·) ++ choose xs (k + 1) := rfl

@[simp] theorem dfs_nil : dfs [] = [] := rfl

/-- The subsets that start with `z` are `z` before the empty list or a listed subset; so `dfs` and `choose` have one shape. -/
theorem dfs_cons (z : Nat) (zs : List Nat) : dfs (z :: zs) = ([] :: dfs zs).map (z :: ·) ++ dfs zs := rfl

theorem mem_choose {U S : List Nat} {k : Nat} : S ∈ choose U k ↔ S.Sublist U ∧ S.length = k := by
  induction U generalizing S k with
  | nil => cases k <;> simp +contextual [eq_comm]
  | cons x xs ih =>
    cases k with
    | zero => simp +contextual
    | succ k =>
      rw [choose_cons_succ, List.mem_append, List.mem_map, ih, List.sublist_cons_iff]
      constructor
      · rintro (⟨T, hT, rfl⟩ | ⟨hS, hlen⟩)
        · obtain ⟨hsub, hlen⟩ := ih.1 hT
          exact ⟨.inr ⟨T, rfl, hsub⟩, congrArg (· + 1) hlen⟩
        · exact ⟨.inl hS, hlen⟩
      · rintro ⟨hS | ⟨T, rfl, hT⟩, hlen⟩
        · exact .inr ⟨hS, hlen⟩
        · exact .inl ⟨T, ih.2 ⟨hT, Nat.succ.inj hlen⟩, rfl⟩

theorem mem_dfs {U S : List Nat} : S ∈ dfs U ↔ S.Sublist U ∧ S ≠ [] := by
  induction U generalizing S with
  | nil => simp
  | cons z zs ih =>
    rw [dfs_cons, List.mem_append, List.mem_map, ih, List.sublist_cons_iff]
    have startsWith : (∃ T ∈ [] :: dfs zs, z :: T = S) ↔ ∃ T, S = z :: T ∧ T.Sublist zs := by
      constructor
      · rintro ⟨T, hT, rfl⟩
        obtain rfl | hT := List.mem_cons.1 hT
        · exact ⟨[], rfl, List.nil_sublist zs⟩
        · exact ⟨T, rfl, (ih.1 hT).1⟩
      · rintro ⟨T, rfl, hT⟩
        by_cases hnil : T = []
        · exact ⟨T, by simp [hnil], rfl⟩
        · exact ⟨T, .tail _ (ih.2 ⟨hT, hnil⟩), rfl⟩
    rw [startsWith]
    constructor
    · rintro (⟨T, rfl, hT⟩ | ⟨hS, hne⟩)
      · exact ⟨.inr ⟨T, rfl, hT⟩, List.cons_ne_nil z T⟩
      · exact ⟨.inl hS, hne⟩
    · rintro ⟨hS | hS, hne⟩
      · exact .inr ⟨hS, hne⟩
      · exact .inl hS

/-- A list that starts with `x` is before every nonempty list of later elements. -/
theorem lex_cons_of_sublist_of_lt {x : Nat} {xs S : List Nat} (hx : ∀ y ∈ xs, x < y) (hS : S.Sublist xs) (hne : S ≠ [])
    (T : List Nat) : List.Lex (· < ·) (x :: T) S := by
  cases S with
  | nil => exact absurd rfl hne
  | cons y ys => exact .rel (hx y (hS.subset (List.mem_cons_self ..)))

/-- The order of one level of either enumeration: the subsets with the least element `x`, then those without it. -/
theorem pairwise_lex_map_cons_append {x : Nat} {xs : List Nat} {A B : List (List Nat)} (hx : ∀ y ∈ xs, x < y)
    (hA : A.Pairwise (List.Lex (· < ·))) (hB : B.Pairwise (List.Lex (· < ·)))
    (hsub : ∀ S ∈ B, S.Sublist xs ∧ S ≠ []) : (A.map (x :: ·) ++ B).Pairwise (List.Lex (· < ·)) := by
  refine List.pairwise_append.2 ⟨hA.map _ fun _ _ h => .cons h, hB, fun R hR S hS => ?_⟩
  obtain ⟨T, -, rfl⟩ := List.mem_map.1 hR
  exact lex_cons_of_sublist_of_lt hx (hsub S hS).1 (hsub S hS).2 T

theorem choose_pairwise_lex {U : List Nat} (hU : U.Pairwise (· < ·)) (k : Nat) :
    (choose U k).Pairwise (List.Lex (· < ·)) := by
  induction U generalizing k with
  | nil => cases k <;> simp
  | cons x xs ih =>
    obtain ⟨hx, hxs⟩ := List.pairwise_cons.1 hU
    cases k with
    | zero => simp
    | succ k =>
      refine pairwise_lex_map_cons_append hx (ih hxs k) (ih hxs (k + 1)) fun S hS => ?_
      obtain ⟨hsub, hlen⟩ := mem_choose.1 hS
      exact ⟨hsub, List.ne_nil_of_length_eq_add_one hlen⟩

theorem dfs_pairwise_lex {U : List Nat} (hU : U.Pairwise (· < ·)) : (dfs U).Pairwise (List.Lex (· < ·)) := by
  induction U with
  | nil => exact .nil
  | cons z zs ih =>
    obtain ⟨hz, hzs⟩ := List.pairwise_cons.1 hU
    have nilFirst : ∀ S ∈ dfs zs, List.Lex (· < ·) [] S := fun S hS => by
      obtain ⟨y, ys, rfl⟩ := List.exists_cons_of_ne_nil (mem_dfs.1 hS).2
      exact .nil
    exact pairwise_lex_map_cons_append hz (.cons nilFirst (ih hzs)) (ih hzs) fun S => mem_dfs.1

/-- Settles O36: membership holds of every list; the order is by induction on the ascending list, one level at a time. -/
theorem subsetsInLexicographicOrder : Obligations.SubsetsInLexicographicOrder := fun _ hU =>
  ⟨fun k => ⟨choose_pairwise_lex hU k, fun _ => mem_choose⟩, dfs_pairwise_lex hU, fun _ => mem_dfs⟩

end Sys2Proof.Machine
end

/-! What each command can do, said once: the code a command ends with and the state it leaves before its completion. -/
namespace Sys2Proof.Machine

/-! ## Interpolation never reports a failed encoding -/

theorem interp_ne_encodingFailed (m : BitVec 16) (w : List F) : interp m w ≠ .error .encodingFailed := by
  by_cases hm : popcount m ≤ 14
  · obtain ⟨p, hp, -⟩ := interp_ok hm w
    simp [hp]
  · simp [interp_overflow (by omega : 15 ≤ popcount m)]

theorem basis_ne_encodingFailed (one : Nat) (m : BitVec 16) (y : F) : basis one m y ≠ .error .encodingFailed := by
  unfold basis
  by_cases hlen : ((bits m).filter (· != one)).length ≤ 13
  · obtain ⟨b, hb, -⟩ := factorProduct_ok hlen
    cases hinv : inv? (eval b (reduce one)) <;> simp [hb, hinv]
  · simp [factorProduct_overflow (by omega : 14 ≤ ((bits m).filter (· != one)).length)]

/-- The candidate through at most 14 abscissas exists (44_decoder.md R223). -/
theorem exists_cand (cfg : Cfg) {S : List Nat} (r : List F) (hs : S.Pairwise (· < ·)) (hlt : ∀ x ∈ S, x < 16)
    (hlen : S.length ≤ 14) : ∃ k, cand cfg S r = some k := by
  obtain ⟨p, hp, -⟩ := interp_ok (m := maskOf S) (by rwa [popcount_maskOf hs hlt]) r
  simp [cand, hp]

/-! ## The results that commands write to `R` -/

theorem toNat_ofF_le (v : F) : (BitVec.ofNat 16 v.val).toNat ≤ 256 := by
  have := v.isLt
  rw [BitVec.toNat_ofNat]
  omega

theorem toNat_setWidth16_le {width : Nat} (hw : width ≤ 8) (v : BitVec width) : (v.setWidth 16).toNat ≤ 256 := by
  have hv : v.toNat < 256 := v.isLt.trans_le (Nat.pow_le_pow_right (by decide) hw)
  rw [BitVec.toNat_setWidth]
  omega

/-! ## The effects -/

/-- The ways in which a command can end: on the state `s` it leaves `u`, which then completes with the code `e`. -/
inductive Effect (s : State) : Instr → ErrCode → State → Prop where
  /-- `NOP`, and every rejected or failed command but the ones that stand below. -/
  | kept {i : Instr} {e : ErrCode} (he : e ≠ .encodingFailed) : Effect s i e s
  | result {i : Instr} {v : BitVec 16}
      (hi : mnemonicOf i ∈ ["FADD", "FSUB", "FMUL", "FINV", "FDIV", "PEVAL", "TAGGEN", "LOCATE"])
      (hv : v.toNat ≤ 256) : Effect s i .none { s with r := v }
  | polynomial {i : Instr} {p : Coeffs}
      (hi : mnemonicOf i ∈ ["PADD", "PSUB", "PMUL", "PSCALE", "PCLR", "BASIS", "INTERP"]) :
      Effect s i .none { s with p := p }
  | copied : Effect s .pmovq .none { s with q := s.p }
  | evaluated {targets : BitVec 16} {b : SymbolBuf} : Effect s (.evalsym targets) .none { s with sym := b }
  | validated {subset : BitVec 16} {p : Coeffs} {v : BitVec 16} (hv : s.cfg.legal = true → v.toNat ≤ 256) :
      Effect s (.validate subset) .none { s with p := p, r := v }
  | encoded {e : ErrCode} {u : State} (hbody : encodeBody s = (e, u)) : Effect s .encode e u
  | decoded {e : ErrCode} {u : State} (hbody : decodeBody s = (e, u)) : Effect s .decode e u
  | opened {mode : Nat} (hidle : s.sess = .idle) (hmode : mode ≤ 1) :
      Effect s (.sbegin mode 0) .none (openSession (sessionOfMode mode) s)
  | blockEncoded {k : Nat} {e : ErrCode} {u : State} (henc : s.sess = .enc)
      (hbody : encodeBody (padBlock k s) = (e, u)) :
      Effect s (.benc k 0) e (logBlock s.bytecnt e (countBlock k u))
  | recordAlone {k : Nat} (hdec : s.sess = .dec) : Effect s (.bdec k 2) .none { s with mis := true }
  | dataAlone {k : Nat} (hdec : s.sess = .dec) : Effect s (.bdec k 1) .none { countBlock k s with mis := true }
  | blockDecoded {k h : Nat} {e : ErrCode} {u : State} (hdec : s.sess = .dec)
      (hbody : decodeBody (padBlock k (countBlock k s)) = (e, u)) :
      Effect s (.bdec k h) e (logBlock s.bytecnt e u)
  | closed (hopen : s.sess ≠ .idle) : Effect s .send (sessionReport s) { s with sess := .idle }

theorem loadP_effect {i : Instr} {r : Except ErrCode Coeffs} (s : State) (hi : mnemonicOf i ∈ ["BASIS", "INTERP"])
    (hr : r ≠ .error .encodingFailed) : ∃ e u, loadP r s = finish e u ∧ Effect s i e u := by
  obtain ⟨e, rfl, h⟩ | ⟨p, -, h⟩ := loadP_cases r s
  · exact ⟨e, s, h, .kept fun he => hr (he ▸ rfl)⟩
  · exact ⟨.none, _, h, .polynomial (by simp_all)⟩

theorem execValidate_effect (subset : BitVec 16) (s : State) :
    ∃ e u, execValidate subset s = finish e u ∧ Effect s (.validate subset) e u := by
  unfold execValidate
  split
  next => exact ⟨_, _, rfl, .kept (by decide)⟩
  next hsub =>
    split
    next hnone =>
      refine ⟨_, _, rfl, .validated (p := s.p) fun hlegal => ?_⟩
      have hcount : popcount subset = s.cfg.dataLen := by simp_all [subsetLegal]
      obtain ⟨-, hN, -⟩ := legal_iff.1 hlegal
      have hlen : (bits subset).length ≤ 14 := by unfold popcount at hcount; omega
      obtain ⟨k, hk⟩ := exists_cand s.cfg s.received (bits_ascending subset) (fun _ => lt_of_mem_bits) hlen
      simp [hnone] at hk
    next k _ => exact ⟨_, _, rfl, .validated fun _ => toNat_setWidth16_le (by decide) _⟩

/-- Every command completes, with one of the effects. -/
theorem exec_effect (i : Instr) (s : State) : ∃ e u, exec i s = finish e u ∧ Effect s i e u := by
  cases i with
  | nop => exact ⟨_, _, rfl, .kept (by decide)⟩
  | fadd => exact ⟨_, _, rfl, .result (by decide) (toNat_ofF_le _)⟩
  | fsub => exact ⟨_, _, rfl, .result (by decide) (toNat_ofF_le _)⟩
  | fmul => exact ⟨_, _, rfl, .result (by decide) (toNat_ofF_le _)⟩
  | finv =>
    simp only [exec, execFinv]
    split
    · exact ⟨_, _, rfl, .kept (by decide)⟩
    · exact ⟨_, _, rfl, .result (by decide) (toNat_ofF_le _)⟩
  | fdiv =>
    simp only [exec, execFdiv]
    split
    · exact ⟨_, _, rfl, .kept (by decide)⟩
    · exact ⟨_, _, rfl, .result (by decide) (toNat_ofF_le _)⟩
  | peval => exact ⟨_, _, rfl, .result (by decide) (toNat_ofF_le _)⟩
  | padd => exact ⟨_, _, rfl, .polynomial (by decide)⟩
  | psub => exact ⟨_, _, rfl, .polynomial (by decide)⟩
  | pmul =>
    simp only [exec, execPmul]
    split
    · exact ⟨_, _, rfl, .kept (by decide)⟩
    · exact ⟨_, _, rfl, .polynomial (by decide)⟩
  | pscale => exact ⟨_, _, rfl, .polynomial (by decide)⟩
  | pmovq => exact ⟨_, _, rfl, .copied⟩
  | pclr => exact ⟨_, _, rfl, .polynomial (by decide)⟩
  | basis one xs =>
    simp only [exec, execBasis]
    split
    · exact ⟨_, _, rfl, .kept (by decide)⟩
    · exact loadP_effect s (by simp [mnemonicOf]) (basis_ne_encodingFailed _ _ _)
  | interp xs => exact loadP_effect s (by simp [mnemonicOf]) (interp_ne_encodingFailed _ _)
  | evalsym targets => exact ⟨_, _, rfl, .evaluated⟩
  | encode =>
    simp only [exec, execEncode]
    split
    · exact ⟨_, _, rfl, .kept (by decide)⟩
    · exact ⟨_, _, rfl, .encoded rfl⟩
  | taggen => exact ⟨_, _, rfl, .result (by decide) (toNat_setWidth16_le (by decide) _)⟩
  | locate => exact ⟨_, _, rfl, .result (by decide) (toNat_setWidth16_le (by decide) _)⟩
  | validate subset => exact execValidate_effect subset s
  | decode => exact ⟨_, _, rfl, .decoded rfl⟩
  | sbegin mode f2 =>
    simp only [exec, execSbegin]
    split_ifs with hsess hop
    · exact ⟨_, _, rfl, .kept (by decide)⟩
    · exact ⟨_, _, rfl, .kept (by decide)⟩
    · obtain rfl : f2 = 0 := by omega
      exact ⟨_, _, rfl, .opened (by simpa using hsess) (by omega)⟩
  | benc k f2 =>
    simp only [exec, execBenc]
    split_ifs with hsess hop _
    · exact ⟨_, _, rfl, .kept (by decide)⟩
    · exact ⟨_, _, rfl, .kept (by decide)⟩
    · exact ⟨_, _, rfl, .kept (by decide)⟩
    · obtain rfl : f2 = 0 := by omega
      exact ⟨_, _, rfl, .blockEncoded (by simpa using hsess) rfl⟩
  | bdec k h =>
    simp only [exec, execBdec]
    split_ifs with hsess _ hrec hdata
    · exact ⟨_, _, rfl, .kept (by decide)⟩
    · exact ⟨_, _, rfl, .kept (by decide)⟩
    · exact ⟨_, _, rfl, hrec ▸ .recordAlone (by simpa using hsess)⟩
    · exact ⟨_, _, rfl, hdata ▸ .dataAlone (by simpa using hsess)⟩
    · exact ⟨_, _, rfl, .blockDecoded (by simpa using hsess) rfl⟩
  | send =>
    simp only [exec, execSend]
    split
    · exact ⟨_, _, rfl, .kept (by decide)⟩
    · exact ⟨_, _, rfl, .closed (by assumption)⟩

theorem exec_next {i : Instr} {s t : State} (h : exec i s = .next t) : ∃ e u, Effect s i e u ∧ t = complete e u := by
  obtain ⟨e, u, hexec, heff⟩ := exec_effect i s
  exact ⟨e, u, heff, ((finish_eq_next e u t).1 (hexec ▸ h)).symm⟩

end Sys2Proof.Machine

/-! What the commands leave alone: the frames of the block operations, and of every command. -/
namespace Sys2Proof.Machine

theorem encodeBody_writes {s u : State} {e : ErrCode} (h : encodeBody s = (e, u)) :
    ∃ b g, u = { s with sym := b, tag := g } := by
  obtain hbody | ⟨p, hbody⟩ := encodeBody_cases s <;> obtain ⟨-, rfl⟩ := Prod.mk.inj (hbody.symm.trans h)
  · exact ⟨s.sym, s.tag, rfl⟩
  · exact ⟨_, _, rfl⟩

theorem decodeBody_writes {s u : State} {e : ErrCode} (h : decodeBody s = (e, u)) :
    ∃ b st di, u = { s with sym := b, dstat := st, dinfo := di } := by
  obtain ⟨-, hbody⟩ | ⟨d, -, hbody⟩ := decodeBody_cases s <;> obtain ⟨-, rfl⟩ := Prod.mk.inj (hbody.symm.trans h)
  · exact ⟨s.sym, _, _, rfl⟩
  · exact ⟨_, _, _, rfl⟩

theorem logBlock_writes (off : Word) (e : ErrCode) (s : State) :
    ∃ n o, logBlock off e s = { s with failcnt := n, lastfail := o } := by
  unfold logBlock
  split
  · exact ⟨s.failcnt, s.lastfail, rfl⟩
  · exact ⟨_, _, rfl⟩

/-- Settles O46: each effect shows which registers it writes, and names the commands that have it. -/
theorem eachRegisterHasItsWriters : Obligations.EachRegisterHasItsWriters := by
  intro i s t h
  obtain ⟨e, u, heff, rfl⟩ := exec_next h
  cases heff with
  | kept | copied | evaluated | validated | opened | recordAlone | dataAlone | closed => simp [mnemonicOf]
  | result hi => exact ⟨by simp, fun hn => (hn (List.mem_append_left ["VALIDATE"] hi)).elim, by simp⟩
  | polynomial hi => exact ⟨by simp, by simp, fun hn => (hn (List.mem_append_left ["VALIDATE"] hi)).elim, by simp⟩
  | encoded hbody =>
    obtain ⟨b, g, rfl⟩ := encodeBody_writes hbody
    simp [mnemonicOf]
  | decoded hbody =>
    obtain ⟨b, st, di, rfl⟩ := decodeBody_writes hbody
    simp [mnemonicOf]
  | @blockEncoded k e u _ hbody =>
    obtain ⟨n, o, hlog⟩ := logBlock_writes s.bytecnt e (countBlock k u)
    rw [hlog]
    obtain ⟨b, g, rfl⟩ := encodeBody_writes hbody
    simp [mnemonicOf]
  | @blockDecoded k h e u _ hbody =>
    obtain ⟨n, o, hlog⟩ := logBlock_writes s.bytecnt e u
    rw [hlog]
    obtain ⟨b, st, di, rfl⟩ := decodeBody_writes hbody
    simp [mnemonicOf]

end Sys2Proof.Machine

/-! What one step can do, said once: it is idle, a reset, a read, a stored write, or a written command. -/
namespace Sys2Proof.Machine

/-- `CMD` stands at one offset only (20_memory.md R61). -/
theorem eq_cmdOffset_of_regAt_cmd :
    ∀ off ≤ 0x0FC, off % 4 = 0 → regAt off = .cmd → off = 0x008 := by decide +kernel

/-- How a step can lead from `s` to `t`. -/
inductive StepEffect (s t : State) : Prop where
  | idle (ht : t = s)
  | reset {rest : List BusAccess} (hbus : s.bus = .reset :: rest) (ht : t = applyReset { s with bus := rest })
  | read {rest : List BusAccess} {off : Nat} (hbus : s.bus = .read off 4 :: rest)
      (ht : t = { s with bus := rest, rdata := readReg s (regAt off) })
  | stored {rest : List BusAccess} {off : Nat} {v : Word} {reg : WinReg} (hbus : s.bus = .write off 4 v :: rest)
      (ht : t = writeReg v { s with bus := rest } reg)
  | illegal {rest : List BusAccess} {w : Word} {e : DecodeError} (hbus : s.bus = .write 0x008 4 w :: rest)
      (hw : decode w = .error e) (ht : t = complete .illegalCmd { s with bus := rest, cmdLast := w })
  | command {rest : List BusAccess} {w : Word} {i : Instr} (hbus : s.bus = .write 0x008 4 w :: rest)
      (hw : decode w = .ok i) (ht : exec i { s with bus := rest, cmdLast := w } = .next t)

theorem busWrite_effect {s t : State} {rest : List BusAccess} {off : Nat} {v : Word}
    (hbus : s.bus = .write off 4 v :: rest) (hoff : off % 4 = 0) (hle : off ≤ 0x0FC)
    (h : busWrite off v { s with bus := rest } = .next t) : StepEffect s t := by
  unfold busWrite at h
  split at h
  next hreg =>
    obtain rfl := eq_cmdOffset_of_regAt_cmd off hle hoff hreg
    unfold issueCommand at h
    split at h
    next i hw => exact .command hbus hw h
    next e hw => exact .illegal hbus hw ((finish_eq_next ..).1 h).symm
  next => exact .stored hbus (Host.Outcome.next.inj h).symm

theorem step_effect {s t : State} (h : step s = .next t) : StepEffect s t := by
  unfold step at h
  split at h
  next => exact .idle (Host.Outcome.next.inj h).symm
  next ev rest hbus =>
    unfold access at h
    split at h
    next off nbytes =>
      split at h
      next => cases h
      next hok =>
        obtain ⟨rfl, -, -⟩ := accessProblem_eq_none.1 hok
        exact .read hbus (Host.Outcome.next.inj h).symm
    next off nbytes v =>
      split at h
      next => cases h
      next hok =>
        obtain ⟨rfl, hoff, hle⟩ := accessProblem_eq_none.1 hok
        exact busWrite_effect hbus hoff hle h
    next => exact .reset hbus (Host.Outcome.next.inj h).symm

/-! ## The session -/

/-- No stored write changes the session (10_state.md R40). -/
@[simp] theorem writeReg_sess (v : Word) (s : State) (reg : WinReg) : (writeReg v s reg).sess = s.sess := by
  cases reg with
  | cfg => obtain ⟨-, h⟩ | ⟨-, -, h⟩ | ⟨-, -, h⟩ := writeCfg_cases v s <;> simp [writeReg, h]
  | _ => rfl

/-- The commands that change the session, and the transitions they make (45_block_codec.md R259, R260, R266). -/
theorem exec_sess {i : Instr} {s t : State} (h : exec i s = .next t) :
    t.sess = s.sess ∨ (s.sess = .idle ∧ i = .sbegin 0 0 ∧ t.sess = .enc) ∨
      (s.sess = .idle ∧ i = .sbegin 1 0 ∧ t.sess = .dec) ∨ (s.sess ≠ .idle ∧ i = .send ∧ t.sess = .idle) := by
  obtain ⟨-, -, -, -, -, -, -, -, -, hsess, -⟩ := eachRegisterHasItsWriters i s t h
  obtain ⟨e, u, heff, rfl⟩ := exec_next h
  cases heff with
  | @opened mode hidle hmode =>
    obtain rfl | rfl : mode = 0 ∨ mode = 1 := by omega
    · exact .inr (.inl ⟨hidle, rfl, rfl⟩)
    · exact .inr (.inr (.inl ⟨hidle, rfl, rfl⟩))
  | closed hopen => exact .inr (.inr (.inr ⟨hopen, rfl, rfl⟩))
  | kept | result | polynomial | copied | evaluated | validated | recordAlone | dataAlone => exact .inl rfl
  | encoded | decoded | blockEncoded | blockDecoded => exact .inl (hsess (by simp [mnemonicOf]))

/-- Settles O45: of the ways to step, only a reset and a written command touch the session. -/
theorem onlySbeginSendAndResetChangeTheSession : Obligations.OnlySbeginSendAndResetChangeTheSession := by
  intro s t ev rest hbus h hne
  cases step_effect h with
  | idle ht => simp [ht] at hne
  | read _ ht => simp [ht] at hne
  | stored _ ht => simp [ht] at hne
  | illegal _ _ ht => simp [ht] at hne
  | reset hev ht =>
    obtain ⟨rfl, -⟩ := List.cons.inj (hbus.symm.trans hev)
    exact .inl ⟨rfl, by rw [ht]; rfl⟩
  | @command _ w i hev hw ht =>
    obtain ⟨rfl, -⟩ := List.cons.inj (hbus.symm.trans hev)
    refine .inr ⟨w, i, rfl, hw, ?_⟩
    obtain hs | ⟨hidle, hi, hs⟩ | ⟨hidle, hi, hs⟩ | ⟨hopen, hi, hs⟩ := exec_sess ht
    · exact absurd hs hne
    · exact .inl ⟨hidle, .inl ⟨hi, hs⟩⟩
    · exact .inl ⟨hidle, .inr ⟨hi, hs⟩⟩
    · exact .inr ⟨hopen, hi, hs⟩

end Sys2Proof.Machine

/-! What an accepted decode reports, and its bounds (44_decoder.md R231, R236, R238). -/
namespace Sys2Proof.Safety

open Sys2Proof.Machine

theorem countBits_eq_popcount (m : BitVec 16) : countBits m = popcount m := List.countP_eq_length_filter

theorem popcount_maskOf_le (S : List Nat) : popcount (maskOf S) ≤ S.length := by
  refine (List.subperm_of_subset (bits_nodup _) fun x hx => ?_).length_le
  obtain ⟨hx16, hm⟩ := mem_bits.1 hx
  simpa [maskHas_maskOf hx16] using hm

theorem cand_length {cfg : Cfg} {S : List Nat} {r : List F} {k : Candidate} (h : cand cfg S r = some k) :
    k.c.length = cfg.codeLen := by
  unfold cand at h
  split at h
  · cases h
  · obtain rfl := Option.some.inj h
    simp

theorem accepts_lt {cfg : Cfg} {t : Byte} {sub : Bool} {k : Candidate} (h : accepts cfg t sub k = true) :
    k.m < cfg.redundantLen := by
  unfold accepts at h
  split_ifs at h <;> omega

theorem consider_eq_some {cfg : Cfg} {t : Byte} {r : List F} {sub : Bool} {S : List Nat} {k : Candidate} :
    consider cfg t r sub S = some k ↔ cand cfg S r = some k ∧ accepts cfg t sub k = true := by
  unfold consider
  cases cand cfg S r with
  | none => simp
  | some k' => by_cases hk : k' = k <;> simp [hk]

theorem mem_trustedOrder {cfg : Cfg} {lv : Nat} {d : List Nat × BitVec 2} (h : d ∈ trustedOrder cfg lv) :
    d.1.length = cfg.dataLen - cfg.redundantLen ∧ d.2 ≠ 3 := by
  unfold trustedOrder at h
  split at h
  · obtain h | h := List.mem_append.1 h <;> obtain ⟨S, hS, rfl⟩ := List.mem_map.1 h
    · exact ⟨(mem_choose.1 hS).2, by simp⟩
    · exact ⟨(mem_choose.1 (List.mem_of_mem_filter hS)).2, by simp⟩
  · obtain ⟨S, hS, rfl⟩ := List.mem_map.1 h
    exact ⟨(mem_choose.1 hS).2, by simp⟩

theorem mem_attemptOrder {s : State} (hlegal : s.cfg.legal = true) {subs : List Nat} {c : Trial}
    (h : c ∈ attemptOrder s subs) : c.subset.length = s.cfg.dataLen ∧ c.pass ≠ 3 := by
  unfold attemptOrder at h
  split at h
  next htrust =>
    obtain ⟨d, hd, rfl⟩ := List.mem_map.1 h
    obtain ⟨hlen, hpass⟩ := mem_trustedOrder hd
    obtain ⟨-, -, -, -, hE⟩ := legal_iff.1 hlegal
    have : s.cfg.redundantLen ≤ s.cfg.dataLen := by simpa [htrust] using hE
    exact ⟨by simp [hlen]; omega, hpass⟩
  next =>
    obtain ⟨S, hS, rfl⟩ := List.mem_map.1 h
    exact ⟨(mem_choose.1 hS).2, by simp⟩

theorem mem_decodeOrder {s : State} (hlegal : s.cfg.legal = true) {c : Trial} (h : c ∈ decodeOrder s) :
    c.subset.length = s.cfg.dataLen ∧ c.pass ≠ 3 ∧ c.subs.length ≤ s.cfg.redundantLen := by
  obtain ⟨subs, hsubs, hc⟩ := List.mem_flatMap.1 h
  obtain ⟨hsubset, hpass⟩ := mem_attemptOrder hlegal hc
  refine ⟨hsubset, hpass, ?_⟩
  rw [subs_of_mem_attemptOrder hc]
  obtain rfl | hdfs := List.mem_cons.1 hsubs
  · simp
  · have hsub := ((mem_dfs.1 hdfs).1.trans List.filter_sublist).length_le
    simpa using hsub

/-- A decode that does not return -1 reports an accepted candidate of its search (44_decoder.md R238). -/
theorem decodeWord_eq_some {s : State} (hlegal : s.cfg.legal = true) {d : Decoded}
    (h : decodeWord s.cfg s.received s.tag = some d) :
    ∃ c ∈ decodeOrder s, ∃ k, verdict s c = some k ∧
      d = ⟨!(decide (k.m = 0) && c.subs.isEmpty), ⟨k.c, k.m, c.subset, c.pass⟩, c.subs.length⟩ := by
  rw [decodeWord_eq_findSome? hlegal] at h
  obtain ⟨c, hc, hd⟩ := List.exists_of_findSome?_eq_some h
  obtain ⟨a, ha, rfl⟩ := Option.map_eq_some_iff.1 hd
  obtain ⟨k, hk, rfl⟩ := Option.map_eq_some_iff.1 ha
  exact ⟨c, hc, k, hk, rfl⟩

/-- The bounds of an accepted decode (44_decoder.md R231, R236, R238). -/
structure DecodedInv (cfg : Cfg) (d : Decoded) : Prop where
  length : d.found.c.length = cfg.codeLen
  mismatches : d.found.m < cfg.redundantLen
  substitutions : d.subs ≤ cfg.redundantLen
  subset : d.found.subset.length = cfg.dataLen
  pass : d.found.pass ≠ 3
  clean : d.corrected = false ↔ d.found.m = 0 ∧ d.subs = 0

theorem decodeWord_inv {s : State} (hlegal : s.cfg.legal = true) {d : Decoded}
    (h : decodeWord s.cfg s.received s.tag = some d) : DecodedInv s.cfg d := by
  obtain ⟨c, hc, k, hk, rfl⟩ := decodeWord_eq_some hlegal h
  obtain ⟨hsubset, hpass, hsubs⟩ := mem_decodeOrder hlegal hc
  obtain ⟨hcand, hacc⟩ := consider_eq_some.1 hk
  exact ⟨cand_length hcand, accepts_lt hacc, hsubs, hsubset, hpass, by simp⟩

/-- The report's fields are wide enough for the counts (10_state.md R36). -/
theorem DecodedInv.report_toNat {cfg : Cfg} {d : Decoded} (h : DecodedInv cfg d) (hlegal : cfg.legal = true) :
    (decodeReport d).m.toNat = d.found.m ∧ (decodeReport d).subs.toNat = d.subs := by
  obtain ⟨-, -, -, hE, -⟩ := legal_iff.1 hlegal
  have hm := h.mismatches
  have hsubs := h.substitutions
  simp only [decodeReport, BitVec.toNat_ofNat]
  omega

theorem DecodedInv.report_bounds {cfg : Cfg} {d : Decoded} (h : DecodedInv cfg d) (hlegal : cfg.legal = true) :
    (decodeReport d).m.toNat < 5 ∧ (decodeReport d).subs.toNat ≤ 5 ∧ countBits (decodeReport d).mask ≤ 10 := by
  obtain ⟨hm, hsubs⟩ := h.report_toNat hlegal
  obtain ⟨-, hN, -, hE, -⟩ := legal_iff.1 hlegal
  have hmask := popcount_maskOf_le d.found.subset
  rw [← countBits_eq_popcount, h.subset] at hmask
  exact ⟨hm ▸ h.mismatches.trans_le hE, hsubs ▸ h.substitutions.trans hE, hmask.trans hN⟩

/-- `DSTAT` is 0 iff the report counts neither a mismatch nor a substitution. -/
theorem DecodedInv.report_clean {cfg : Cfg} {d : Decoded} (h : DecodedInv cfg d) (hlegal : cfg.legal = true) :
    d.corrected = false ↔ (decodeReport d).m = 0 ∧ (decodeReport d).subs = 0 := by
  obtain ⟨hm, hsubs⟩ := h.report_toNat hlegal
  rw [h.clean, ← hm, ← hsubs]
  simp [← BitVec.toNat_inj]

theorem noneAccepted_bounds : DInfo.noneAccepted.m.toNat < 5 ∧ DInfo.noneAccepted.subs.toNat ≤ 5 ∧
    countBits DInfo.noneAccepted.mask ≤ 10 := by decide

end Sys2Proof.Safety

/-! The invariant of the core: every command, every stored write and the reset keep it, and so does every step. -/
namespace Sys2Proof.Safety

open Sys2Proof.Machine

/-! ## The operations keep the invariant -/

theorem coreInv_complete {s : State} {e : ErrCode} (h : CoreInv s) (he : e ≠ .encodingFailed) :
    CoreInv (complete e s) := { h with noEncodingFailed := he }

theorem coreInv_openSession {s : State} {mode : Session} (h : CoreInv s) : CoreInv (openSession mode s) :=
  { h with
    encSessionClean := fun _ => ⟨rfl, rfl⟩
    uncorrectableReport := nofun
    cleanReport := nofun
    correctedReport := nofun }

theorem coreInv_padBlock {s : State} (h : CoreInv s) (k : Nat) : CoreInv (padBlock k s) := by
  unfold padBlock
  exact { h with }

theorem coreInv_countBlock {s : State} (h : CoreInv s) (k : Nat) : CoreInv (countBlock k s) := { h with }

theorem coreInv_encodeBody {s u : State} {e : ErrCode} (h : CoreInv s) (hbody : encodeBody s = (e, u)) :
    CoreInv u ∧ e = .none := by
  obtain ⟨-, hN, -⟩ := legal_iff.1 h.cfgLegal
  obtain ⟨p, -, hok⟩ := encodeBody_ok (s := s) (by omega)
  obtain ⟨rfl, rfl⟩ := Prod.mk.inj (hok.symm.trans hbody)
  exact ⟨{ h with }, rfl⟩

theorem coreInv_decodeBody {s u : State} {e : ErrCode} (h : CoreInv s) (hbody : decodeBody s = (e, u)) :
    CoreInv u ∧ e ≠ .encodingFailed := by
  obtain ⟨-, hres⟩ | ⟨d, hd, hres⟩ := decodeBody_cases s <;>
    obtain ⟨rfl, rfl⟩ := Prod.mk.inj (hres.symm.trans hbody)
  · exact ⟨{ h with
      noPassReport := fun _ => rfl
      uncorrectableReport := fun _ => rfl
      cleanReport := nofun
      correctedReport := nofun
      reportBounds := noneAccepted_bounds }, by decide⟩
  · have hinv := decodeWord_inv h.cfgLegal hd
    have hclean := hinv.report_clean h.cfgLegal
    refine ⟨{ h with
      noPassReport := fun hp => absurd hp hinv.pass
      uncorrectableReport := ?_
      cleanReport := ?_
      correctedReport := ?_
      reportBounds := hinv.report_bounds h.cfgLegal }, by decide⟩
    · cases d.corrected <;> simp
    · cases hcorr : d.corrected with
      | false => exact fun _ => ⟨(hclean.1 hcorr).1, (hclean.1 hcorr).2, hinv.pass⟩
      | true => simp
    · cases hcorr : d.corrected with
      | false => simp
      | true =>
        rw [hcorr] at hclean
        exact fun _ => ⟨by simpa [imp_iff_not_or] using hclean, hinv.pass⟩

theorem coreInv_logBlock {s : State} {off : Word} {e : ErrCode} (h : CoreInv s) (hsess : s.sess ≠ .enc) :
    CoreInv (logBlock off e s) := by
  obtain ⟨n, o, hlog⟩ := logBlock_writes off e s
  rw [hlog]
  exact { h with encSessionClean := fun henc => absurd henc hsess }

theorem sessionReport_ne_encodingFailed {s : State} (h : CoreInv s) (hopen : s.sess ≠ .idle) :
    sessionReport s ≠ .encodingFailed := by
  have hclean := h.encSessionClean
  cases hs : s.sess with
  | idle => exact absurd hs hopen
  | enc => simp [sessionReport, hclean hs]
  | dec =>
    unfold sessionReport
    split_ifs <;> decide

/-! ## Commands, stored writes, reset -/

theorem Effect.coreInv {s u : State} {i : Instr} {e : ErrCode} (heff : Effect s i e u) (h : CoreInv s) :
    CoreInv u ∧ e ≠ .encodingFailed := by
  cases heff with
  | kept he => exact ⟨h, he⟩
  | result _ hv => exact ⟨{ h with resultBound := hv }, by decide⟩
  | validated hv => exact ⟨{ h with resultBound := hv h.cfgLegal }, by decide⟩
  | polynomial | copied | evaluated => exact ⟨{ h with }, by decide⟩
  | encoded hbody =>
    obtain ⟨hu, rfl⟩ := coreInv_encodeBody h hbody
    exact ⟨hu, by decide⟩
  | decoded hbody => exact coreInv_decodeBody h hbody
  | opened => exact ⟨coreInv_openSession h, by decide⟩
  | @blockEncoded k _ u _ hbody =>
    obtain ⟨hu, rfl⟩ := coreInv_encodeBody (coreInv_padBlock h k) hbody
    exact ⟨by simpa [logBlock] using coreInv_countBlock hu k, by decide⟩
  | recordAlone hdec | dataAlone hdec => exact ⟨{ h with encSessionClean := by simp [hdec] }, by decide⟩
  | @blockDecoded k _ _ u hdec hbody =>
    obtain ⟨hu, he⟩ := coreInv_decodeBody (coreInv_padBlock (coreInv_countBlock h k) k) hbody
    have hsess : u.sess = .dec := by
      obtain ⟨b, st, di, rfl⟩ := decodeBody_writes hbody
      exact hdec
    exact ⟨coreInv_logBlock hu (by simp [hsess]), he⟩
  | closed hopen => exact ⟨{ h with encSessionClean := nofun }, sessionReport_ne_encodingFailed h hopen⟩

theorem coreInv_exec {i : Instr} {s t : State} (h : CoreInv s) (hexec : exec i s = .next t) : CoreInv t := by
  obtain ⟨e, u, heff, rfl⟩ := exec_next hexec
  obtain ⟨hu, he⟩ := Effect.coreInv heff h
  exact coreInv_complete hu he

theorem coreInv_writeReg {s : State} (h : CoreInv s) (v : Word) (reg : WinReg) : CoreInv (writeReg v s reg) := by
  cases reg with
  | cfg =>
    obtain ⟨-, hw⟩ | ⟨-, -, hw⟩ | ⟨-, hlegal, hw⟩ := writeCfg_cases v s <;> rw [writeReg, hw]
    · exact { h with noEncodingFailed := nofun }
    · exact { h with noEncodingFailed := nofun }
    · exact { h with cfgLegal := hlegal }
  | _ => exact { h with }

theorem coreInv_reset : CoreInv State.reset := by constructor <;> decide

/-- Settles O59: each of the ways to step keeps the invariant. -/
theorem stepKeepsTheInvariant : Obligations.StepKeepsTheInvariant := by
  intro s t h hstep
  cases step_effect hstep with
  | idle ht => exact ht ▸ h
  | reset _ ht => exact ht ▸ { coreInv_reset with }
  | read _ ht => exact ht ▸ { h with }
  | @stored rest _ v reg _ ht =>
    have h' : CoreInv { s with bus := rest } := { h with }
    exact ht ▸ coreInv_writeReg h' v reg
  | @illegal rest w _ _ _ ht =>
    have h' : CoreInv { s with bus := rest, cmdLast := w } := { h with }
    exact ht ▸ coreInv_complete h' (by decide)
  | @command rest w _ _ _ ht =>
    have h' : CoreInv { s with bus := rest, cmdLast := w } := { h with }
    exact coreInv_exec h' ht

end Sys2Proof.Safety

/-! The words of `STATUS` and `DEGS`: fields that stand side by side in a word are a sum. -/
namespace Sys2Proof.Machine

open Sys2Proof.Safety

/-- A field at `lo` adds its value times `2 ^ lo` to what stands below it. -/
theorem ofNat_or_fieldAt {width lo n : Nat} (v : BitVec width) (hn : n < 2 ^ lo) (hfit : lo + width ≤ 32) :
    BitVec.ofNat 32 n ||| fieldAt lo v = BitVec.ofNat 32 (2 ^ lo * v.toNat + n) := by
  have hsum : 2 ^ lo * v.toNat + n < 2 ^ 32 :=
    calc 2 ^ lo * v.toNat + n < 2 ^ lo * (v.toNat + 1) := by rw [Nat.mul_succ]; omega
      _ ≤ 2 ^ lo * 2 ^ width := Nat.mul_le_mul_left _ v.isLt
      _ ≤ 2 ^ 32 := by rw [← Nat.pow_add]; exact Nat.pow_le_pow_right (by decide) hfit
  have hv : v.toNat < 2 ^ 32 := v.isLt.trans_le (Nat.pow_le_pow_right (by decide) (by omega))
  apply BitVec.eq_of_toNat_eq
  simp only [fieldAt, BitVec.toNat_or, BitVec.toNat_shiftLeft, BitVec.toNat_setWidth, BitVec.toNat_ofNat,
    Nat.shiftLeft_eq, Nat.mod_eq_of_lt hv, Nat.mod_eq_of_lt hsum]
  rw [Nat.mod_eq_of_lt (by omega : n < 2 ^ 32), Nat.mul_comm, Nat.mod_eq_of_lt (by omega), Nat.or_comm,
    Nat.two_pow_add_eq_or_of_lt hn]

theorem fieldAt_zero {width : Nat} (v : BitVec width) : fieldAt 0 v = BitVec.ofNat 32 v.toNat := by
  simp [fieldAt, BitVec.ofNat_toNat]

/-! ## `STATUS` -/

theorem errNumber_eq_code (e : ErrCode) : errNumber e = e.code.toNat := by cases e <;> rfl

theorem dstatNumber_eq_code (d : DStat) : dstatNumber d = d.code.toNat := by cases d <;> rfl

theorem sessNumber_eq_code (s : Session) : sessNumber s = s.code.toNat := by cases s <;> rfl

/-- Settles O54: the four fields are packed upwards from bit 4, and `BUSY` is 0. -/
theorem statusWordLayout : Obligations.StatusWordLayout := by
  intro s
  have herr := s.err.code.isLt
  have hdstat := s.dstat.code.isLt
  have hsess := s.sess.code.isLt
  have hbusy : fieldAt 0 busyBit = BitVec.ofNat 32 0 := rfl
  rw [readReg, statusWord, hbusy, ofNat_or_fieldAt _ (by decide) (by decide),
    ofNat_or_fieldAt _ (by omega) (by decide), ofNat_or_fieldAt _ (by omega) (by decide),
    ofNat_or_fieldAt _ (by omega) (by decide), errNumber_eq_code, dstatNumber_eq_code, sessNumber_eq_code,
    BitVec.toNat_ofBool]
  congr 1
  cases s.mis <;> simp <;> omega

/-! ## `DEGS` -/

/-- `deg` is the degree of the array: the largest index of a nonzero coefficient, or 0 (00_scope.md R14). -/
theorem exists_degree (p : Coeffs) :
    ∃ d : Fin 14, d.val = deg p ∧ (∀ i : Fin 14, d < i → p[i] = 0) ∧ (p[d] ≠ 0 ∨ d = 0) := by
  obtain ⟨habove, htop, hle⟩ := deg_spec p
  refine ⟨⟨deg p, by omega⟩, rfl, fun i hi => ?_, ?_⟩
  · rw [← coeff_fin]
    exact habove i hi
  · rw [← coeff_fin]
    exact htop.imp_right Fin.ext

theorem degsWord_eq (s : State) : degsWord s = BitVec.ofNat 32 (2 ^ 8 * deg s.q + deg s.p) := by
  obtain ⟨-, -, hp⟩ := deg_spec s.p
  obtain ⟨-, -, hq⟩ := deg_spec s.q
  have hp4 : (BitVec.ofNat 4 (deg s.p)).toNat = deg s.p := Nat.mod_eq_of_lt (by omega)
  have hq4 : (BitVec.ofNat 4 (deg s.q)).toNat = deg s.q := Nat.mod_eq_of_lt (by omega)
  rw [degsWord, fieldAt_zero, hp4, ofNat_or_fieldAt _ (by omega) (by decide), hq4]

/-- Settles O19: both degrees fit their four bits. -/
theorem degsReadsTheDegrees : Obligations.DegsReadsTheDegrees := by
  intro s
  obtain ⟨dp, hdp, hp⟩ := exists_degree s.p
  obtain ⟨dq, hdq, hq⟩ := exists_degree s.q
  exact ⟨dp, dq, by rw [hdp, hdq]; exact degsWord_eq s, hp.1, hp.2, hq.1, hq.2, fun v => rfl⟩

end Sys2Proof.Machine

/-! The symbols above the codeword: the block commands commute with a replacement of `SYM[L..15]` (10_state.md R22). -/
namespace Sys2Proof.Safety

open Sys2Proof.Machine

theorem symbolBuf_ext {a b : SymbolBuf} (h : ∀ i : Fin 16, a[i] = b[i]) : a = b :=
  Vector.ext fun x hx => h ⟨x, hx⟩

theorem slot_fin (b : SymbolBuf) (i : Fin 16) : slot b i.val = b[i] := by simp [slot]

theorem symbolAt_symbols (s : State) (x : Nat) : symbolAt s.symbols x = slot s.sym x := by
  by_cases hx : x < 16 <;> simp [symbolAt, State.symbols, slot, hx]

/-- The slots of `s` within its codeword, the slots of `b` above it. -/
def upperSlots (s : State) (b : SymbolBuf) : SymbolBuf :=
  Vector.ofFn fun i => if i.val < s.cfg.codeLen then s.sym[i] else b[i]

/-- `s` with the slots of `b` above its codeword. -/
def withUpper (b : SymbolBuf) (s : State) : State := { s with sym := upperSlots s b }

@[simp] theorem withUpper_cfg (b : SymbolBuf) (s : State) : (withUpper b s).cfg = s.cfg := rfl
@[simp] theorem withUpper_tag (b : SymbolBuf) (s : State) : (withUpper b s).tag = s.tag := rfl
@[simp] theorem withUpper_sess (b : SymbolBuf) (s : State) : (withUpper b s).sess = s.sess := rfl
@[simp] theorem withUpper_bytecnt (b : SymbolBuf) (s : State) : (withUpper b s).bytecnt = s.bytecnt := rfl
@[simp] theorem withUpper_sym (b : SymbolBuf) (s : State) : (withUpper b s).sym = upperSlots s b := rfl

theorem dataLen_le_codeLen (c : Cfg) : c.dataLen ≤ c.codeLen := Nat.le_add_right _ _

theorem getElem_upperSlots (s : State) (b : SymbolBuf) (i : Fin 16) :
    (upperSlots s b)[i] = if i.val < s.cfg.codeLen then s.sym[i] else b[i] := by simp [upperSlots]

theorem slot_withUpper (b : SymbolBuf) (s : State) (x : Nat) :
    slot (withUpper b s).sym x = if x < s.cfg.codeLen then slot s.sym x else slot b x := by
  by_cases hx : x < 16
  · simpa [slot, hx] using getElem_upperSlots s b ⟨x, hx⟩
  · simp [slot, hx]

/-- Two buffers that hold the same codeword differ by a replacement of the upper slots. -/
theorem eq_withUpper {s : State} {b : SymbolBuf} (h : ∀ x, x < s.cfg.codeLen → slot b x = slot s.sym x) :
    { s with sym := b } = withUpper b s := by
  have hb : b = upperSlots s b := symbolBuf_ext fun i => by
    rw [getElem_upperSlots]
    split
    next hlt => simpa only [slot_fin] using h i.val hlt
    next => rfl
  exact congrArg (fun b' => ({ s with sym := b' } : State)) hb

theorem withUpper_self (s : State) : withUpper s.sym s = s := (eq_withUpper fun _ _ => rfl).symm

/-! ## What the block operations read -/

theorem take_symbols_withUpper (b : SymbolBuf) {s : State} {k : Nat} (hk : k ≤ s.cfg.codeLen) :
    (withUpper b s).symbols.take k = s.symbols.take k := by
  refine List.ext_getElem (by simp [State.symbols]) fun x hx _ => ?_
  obtain ⟨hxk, hx16⟩ : x < k ∧ x < 16 := by simpa [State.symbols] using hx
  simpa [State.symbols, hxk.trans_le hk] using getElem_upperSlots s b ⟨x, hx16⟩

theorem received_withUpper (b : SymbolBuf) (s : State) : (withUpper b s).received = s.received :=
  take_symbols_withUpper b (Nat.le_refl _)

theorem dataHas256_withUpper (b : SymbolBuf) {s : State} {k : Nat} (hk : k ≤ s.cfg.dataLen) :
    (withUpper b s).dataHas256 k = s.dataHas256 k := by
  rw [State.dataHas256, take_symbols_withUpper b (hk.trans (dataLen_le_codeLen _)), State.dataHas256]

/-- Interpolation reads the selected symbols only. -/
theorem interp_congr {m : BitVec 16} {v w : List F} (h : ∀ x ∈ bits m, symbolAt v x = symbolAt w x) :
    interp m v = interp m w := by
  unfold interp
  rw [List.foldlM_eq_foldl, List.foldlM_eq_foldl]
  refine if_congr Iff.rfl rfl (List.foldl_ext _ _ _ fun acc x hx => ?_)
  refine congrArg (acc >>= ·) (funext fun c => ?_)
  rw [addBasis, addBasis, h x hx]

theorem interp_dataMask_withUpper (b : SymbolBuf) (s : State) :
    interp s.cfg.dataMask (withUpper b s).symbols = interp s.cfg.dataMask s.symbols := by
  refine interp_congr fun x hx => ?_
  obtain ⟨hx16, hm⟩ := mem_bits.1 hx
  have hdata : x < s.cfg.dataLen := by simpa [Cfg.dataMask, maskHas_maskOf hx16] using hm
  rw [symbolAt_symbols, symbolAt_symbols, slot_withUpper, if_pos (hdata.trans_le (dataLen_le_codeLen _))]

/-! ## What the block operations write -/

theorem padBlock_withUpper (b : SymbolBuf) (k : Nat) (s : State) :
    padBlock k (withUpper b s) = withUpper b (padBlock k s) := by
  have hsym : (padBlock k (withUpper b s)).sym = (withUpper b (padBlock k s)).sym := symbolBuf_ext fun i => by
    simp only [getElem_padBlock, withUpper, getElem_upperSlots, padBlock_cfg]
    by_cases hi : i.val < s.cfg.codeLen
    · simp [hi]
    · have hdata : ¬ i.val < s.cfg.dataLen := fun h => hi (h.trans_le (dataLen_le_codeLen _))
      simp [hi, hdata]
  exact congrArg (fun b' => ({ s with sym := b' } : State)) hsym

/-- A word of the codeword's length leaves the upper slots. -/
theorem writeSymbols_withUpper (b : SymbolBuf) (s : State) {w : List F} (hw : w.length = s.cfg.codeLen) :
    writeSymbols (withUpper b s).sym w = upperSlots { s with sym := writeSymbols s.sym w } b :=
  symbolBuf_ext fun i => by
    simp only [withUpper, getElem_writeSymbols, getElem_upperSlots, hw]
    split <;> rfl

theorem encodeBody_withUpper (b : SymbolBuf) (s : State) :
    encodeBody (withUpper b s) = ((encodeBody s).1, withUpper b (encodeBody s).2) := by
  unfold encodeBody
  rw [withUpper_cfg, interp_dataMask_withUpper]
  cases interp s.cfg.dataMask s.symbols with
  | error e => rfl
  | ok p =>
    exact congrArg (fun b' => (ErrCode.none, { s with
      sym := b', tag := tagOf s.cfg.dataLen (codeword p s.cfg.codeLen) }))
      (writeSymbols_withUpper b s (codeword_length p s.cfg.codeLen))

theorem decodeBody_withUpper (b : SymbolBuf) {s : State} (hlegal : s.cfg.legal = true) :
    decodeBody (withUpper b s) = ((decodeBody s).1, withUpper b (decodeBody s).2) := by
  unfold decodeBody
  rw [withUpper_cfg, received_withUpper, withUpper_tag]
  cases hd : decodeWord s.cfg s.received s.tag with
  | none => rfl
  | some d =>
    obtain ⟨corrected, found, subs⟩ := d
    cases corrected with
    | false => rfl
    | true =>
      exact congrArg (fun b' => (ErrCode.none, { s with
        sym := b', dstat := .corrected, dinfo := decodeReport ⟨true, found, subs⟩ }))
        (writeSymbols_withUpper b s (decodeWord_inv hlegal hd).length)

theorem logBlock_withUpper (b : SymbolBuf) (off : Word) (e : ErrCode) (s : State) :
    logBlock off e (withUpper b s) = withUpper b (logBlock off e s) := by
  unfold logBlock
  split <;> rfl

/-! ## The commands -/

/-- Both runs end with one code, on states that differ in the upper slots only. -/
def EndAlike (b : SymbolBuf) (o o' : Result) : Prop := ∃ e u, o = finish e u ∧ o' = finish e (withUpper b u)

theorem execEncode_withUpper (b : SymbolBuf) (s : State) :
    EndAlike b (execEncode s) (execEncode (withUpper b s)) := by
  unfold execEncode
  rw [withUpper_cfg, dataHas256_withUpper b (Nat.le_refl _), encodeBody_withUpper]
  split <;> exact ⟨_, _, rfl, rfl⟩

theorem execDecode_withUpper (b : SymbolBuf) {s : State} (hlegal : s.cfg.legal = true) :
    EndAlike b (execDecode s) (execDecode (withUpper b s)) := by
  unfold execDecode
  rw [decodeBody_withUpper b hlegal]
  exact ⟨_, _, rfl, rfl⟩

theorem execBenc_withUpper (b : SymbolBuf) (k f2 : Nat) (s : State) :
    EndAlike b (execBenc k f2 s) (execBenc k f2 (withUpper b s)) := by
  have hcount (u : State) : countBlock k (withUpper b u) = withUpper b (countBlock k u) := rfl
  unfold execBenc
  rw [withUpper_sess, withUpper_cfg, withUpper_bytecnt, padBlock_withUpper, encodeBody_withUpper]
  dsimp only
  rw [hcount, logBlock_withUpper]
  by_cases hk : k ≤ s.cfg.dataLen
  · rw [dataHas256_withUpper b hk]
    split_ifs <;> exact ⟨_, _, rfl, rfl⟩
  · have hop : f2 ≠ 0 ∨ k < 1 ∨ k > s.cfg.dataLen := by omega
    simp only [if_pos hop]
    split <;> exact ⟨_, _, rfl, rfl⟩

theorem execBdec_withUpper (b : SymbolBuf) (k h : Nat) {s : State} (hlegal : s.cfg.legal = true) :
    EndAlike b (execBdec k h s) (execBdec k h (withUpper b s)) := by
  have hcount : countBlock k (withUpper b s) = withUpper b (countBlock k s) := rfl
  unfold execBdec
  rw [withUpper_sess, withUpper_cfg, withUpper_bytecnt, hcount, padBlock_withUpper,
    decodeBody_withUpper b (s := padBlock k (countBlock k s)) hlegal]
  dsimp only
  rw [logBlock_withUpper]
  split_ifs <;> exact ⟨_, _, rfl, rfl⟩

/-- A command of the four ends alike on two states that differ in the upper slots only. -/
theorem exec_withUpper (b : SymbolBuf) {i : Instr} {s : State}
    (hi : mnemonicOf i ∈ ["ENCODE", "DECODE", "BENC", "BDEC"]) (hlegal : s.cfg.legal = true) :
    EndAlike b (exec i s) (exec i (withUpper b s)) := by
  cases i with
  | encode => exact execEncode_withUpper b s
  | decode => exact execDecode_withUpper b hlegal
  | benc k f2 => exact execBenc_withUpper b k f2 s
  | bdec k h => exact execBdec_withUpper b k h hlegal
  | _ => simp [mnemonicOf] at hi

theorem exec_withUpper_next {b : SymbolBuf} {i : Instr} {s t : State}
    (hi : mnemonicOf i ∈ ["ENCODE", "DECODE", "BENC", "BDEC"]) (hlegal : s.cfg.legal = true)
    (h : exec i s = .next t) : exec i (withUpper b s) = .next (withUpper b t) := by
  obtain ⟨e, u, ho, ho'⟩ := exec_withUpper b hi hlegal
  obtain rfl := (finish_eq_next ..).1 (ho ▸ h)
  exact ho'

/-- Settles O47: the commands commute with a replacement of the upper slots; replacing them by themselves shows that a
command keeps them. -/
theorem slotsAboveTheCodewordAreApart : Obligations.SlotsAboveTheCodewordAreApart := by
  intro i s hi hlegal b hb
  obtain ⟨e, u, hexec, -⟩ := exec_effect i s
  obtain ⟨t, ht⟩ : ∃ t, exec i s = .next t := ⟨_, hexec⟩
  obtain ⟨⟨-, -, hcfg, -⟩, -⟩ := eachRegisterHasItsWriters i s t ht
  have hself : t = withUpper s.sym t := by
    have h := exec_withUpper_next (b := s.sym) hi hlegal ht
    rw [withUpper_self, ht] at h
    exact Host.Outcome.next.inj h
  have hslot (b' : SymbolBuf) (x : Nat) (hx : s.cfg.codeLen ≤ x) : slot (withUpper b' t).sym x = slot b' x := by
    rw [slot_withUpper, hcfg, if_neg (by omega)]
  rw [eq_withUpper hb]
  refine ⟨t, withUpper b t, ht, exec_withUpper_next hi hlegal ht, rfl, fun x hx => ?_,
    fun x hx _ => ⟨?_, hslot b x hx⟩⟩
  · rw [slot_withUpper, hcfg, if_pos hx]
  · rw [hself]
    exact hslot s.sym x hx

end Sys2Proof.Safety


/-! The address map, and one access: which accesses the core carries out, what a read delivers and a write stores. -/
namespace Sys2Proof.Machine

open Sys2Proof.Safety

/-! ## The address map -/

theorem regAt_sym : ∀ i : Fin 16, regAt (0x040 + 4 * i.val) = .sym i := by decide

theorem regAt_p : ∀ i : Fin 14, regAt (0x080 + 4 * i.val) = .p i := by decide

theorem regAt_q : ∀ i : Fin 14, regAt (0x0C0 + 4 * i.val) = .q i := by decide

/-- Settles O50: the three arrays slot by slot, and the single offsets by evaluation. -/
theorem addressMapIsTheTable : Obligations.AddressMapIsTheTable := ⟨by decide, regAt_sym, regAt_p, regAt_q⟩

theorem regAt_reserved : ∀ off ∈ [0x0B8, 0x0BC, 0x0F8, 0x0FC], regAt off = .reserved := by decide

/-! ## Which accesses complete -/

theorem accessProblem_cases (off nbytes : Nat) : accessProblem off nbytes = none ∨
    ∃ e ∈ [Refusal.notFullWord, .misaligned, .outsideWindow], accessProblem off nbytes = some e := by
  unfold accessProblem
  split_ifs <;> simp

theorem expressible_read_iff {off nbytes : Nat} :
    expressible (.read off nbytes) = true ↔ accessProblem off nbytes = none := by
  simp [expressible, accessProblem_eq_none, and_assoc]

theorem expressible_write_iff {off nbytes : Nat} {v : Word} :
    expressible (.write off nbytes v) = true ↔ accessProblem off nbytes = none := expressible_read_iff

theorem busWrite_completes (off : Nat) (v : Word) (s : State) : ∃ t, busWrite off v s = .next t := by
  unfold busWrite issueCommand
  split
  next =>
    split
    next i _ =>
      obtain ⟨e, u, hexec, -⟩ := exec_effect i { s with cmdLast := v }
      exact ⟨_, hexec⟩
    next => exact ⟨_, rfl⟩
  next => exact ⟨_, rfl⟩

theorem access_completes {ev : BusAccess} (h : expressible ev = true) (s : State) : ∃ t, access ev s = .next t := by
  cases ev with
  | read off nbytes => simp [access, expressible_read_iff.1 h, busRead]
  | write off nbytes v =>
    obtain ⟨t, ht⟩ := busWrite_completes off v s
    exact ⟨t, by simp [access, expressible_write_iff.1 h, ht]⟩
  | reset => exact ⟨_, rfl⟩

theorem access_refused {ev : BusAccess} (h : expressible ev = false) (s : State) :
    ∃ e ∈ [Refusal.notFullWord, .misaligned, .outsideWindow], access ev s = .refused e := by
  cases ev with
  | read off nbytes =>
    obtain hnone | ⟨e, hmem, he⟩ := accessProblem_cases off nbytes
    · simp [expressible_read_iff.2 hnone] at h
    · exact ⟨e, hmem, by simp [access, he]⟩
  | write off nbytes v =>
    obtain hnone | ⟨e, hmem, he⟩ := accessProblem_cases off nbytes
    · simp [expressible_write_iff.2 hnone] at h
    · exact ⟨e, hmem, by simp [access, he]⟩
  | reset => cases h

/-- Settles O4: an expressible access completes, any other is refused, and neither outcome is a fault. -/
theorem exactlyTheExpressibleAccessesComplete : Obligations.ExactlyTheExpressibleAccessesComplete := by
  have completes (s : State) (h : ∀ ev ∈ s.bus.head?, expressible ev = true) : safeStep s := by
    cases hbus : s.bus with
    | nil => exact ⟨s, step_idle hbus⟩
    | cons ev rest =>
      obtain ⟨t, ht⟩ := access_completes (h ev (by simp [hbus])) { s with bus := rest }
      exact ⟨t, (step_cons hbus).trans ht⟩
  have refuses (s : State) (ev : BusAccess) (rest : List BusAccess) (hbus : s.bus = ev :: rest)
      (h : expressible ev = false) :
      ∃ e ∈ [Refusal.notFullWord, .misaligned, .outsideWindow], step s = .refused e := by
    rw [step_cons hbus]
    exact access_refused h _
  exact ⟨completes, refuses, fun _ f => nomatch f⟩

/-! ## Reads -/

theorem readReg_withBus (s : State) (rest : List BusAccess) (reg : WinReg) :
    readReg { s with bus := rest } reg = readReg s reg := by cases reg <;> rfl

theorem step_read {s : State} {rest : List BusAccess} {off : Nat} (hbus : s.bus = .read off 4 :: rest)
    (hoff : off % 4 = 0) (hle : off ≤ 0x0FC) :
    step s = .next { s with bus := rest, rdata := readReg s (regAt off) } := by
  rw [step_cons hbus]
  simp [access, accessProblem_eq_none.2 ⟨rfl, hoff, hle⟩, busRead, readReg_withBus]

theorem cfgWord_eq (c : Cfg) :
    cfgWord c = BitVec.ofNat 32 (c.n.toNat + 16 * c.e.toNat + 256 * (if c.trust then 1 else 0)) := by
  have hn := c.n.isLt
  have he := c.e.isLt
  rw [cfgWord, fieldAt_zero, ofNat_or_fieldAt _ (by omega) (by decide), ofNat_or_fieldAt _ (by omega) (by decide)]
  congr 1
  cases c.trust <;> simp <;> omega

/-- The word of two flags at bits 0 and 1: `INT_PEND` and `INT_EN` (10_state.md R28, R29). -/
theorem flagWord_eq (done err : Bool) : fieldAt 0 (BitVec.ofBool done) ||| fieldAt 1 (BitVec.ofBool err) =
    BitVec.ofNat 32 ((if done then 1 else 0) + 2 * (if err then 1 else 0)) := by
  cases done <;> cases err <;> rfl

theorem dinfoWord_eq (d : DInfo) : dinfoWord d = BitVec.ofNat 32
    (d.mask.toNat + 65536 * d.m.toNat + 1048576 * d.subs.toNat + 16777216 * d.pass.toNat) := by
  have hmask := d.mask.isLt
  have hm := d.m.isLt
  have hsubs := d.subs.isLt
  rw [dinfoWord, fieldAt_zero, ofNat_or_fieldAt _ (by omega) (by decide), ofNat_or_fieldAt _ (by omega) (by decide),
    ofNat_or_fieldAt _ (by omega) (by decide)]
  congr 1
  omega

/-! ### Reserved bits -/

/-- A field is 0 outside its own bits. -/
theorem fieldAt_and_eq_zero {width lo : Nat} {m : Word} (v : BitVec width)
    (hm : fieldAt lo (BitVec.allOnes width) &&& m = 0) : fieldAt lo v &&& m = 0 := by
  have hv : fieldAt lo v = fieldAt lo v &&& fieldAt lo (BitVec.allOnes width) := by
    simp only [fieldAt, ← BitVec.shiftLeft_and_distrib, ← BitVec.setWidth_and, BitVec.and_allOnes]
  rw [hv, BitVec.and_assoc, hm]
  exact BitVec.and_zero

theorem or_and_eq_zero {v w m : Word} (hv : v &&& m = 0) (hw : w &&& m = 0) : (v ||| w) &&& m = 0 := by
  rw [BitVec.and_or_distrib_right, hv, hw]
  exact BitVec.or_zero

theorem cfgWord_reserved (c : Cfg) : cfgWord c &&& 0xFFFFFE80 = 0 :=
  or_and_eq_zero (or_and_eq_zero (fieldAt_and_eq_zero _ (by decide)) (fieldAt_and_eq_zero _ (by decide)))
    (fieldAt_and_eq_zero _ (by decide))

theorem statusWord_reserved (s : State) : statusWord s &&& 0xFFFFE00F = 0 :=
  have hbusy : fieldAt 0 busyBit &&& 0xFFFFE00F = 0 := by decide
  or_and_eq_zero (or_and_eq_zero (or_and_eq_zero (or_and_eq_zero hbusy (fieldAt_and_eq_zero _ (by decide)))
    (fieldAt_and_eq_zero _ (by decide))) (fieldAt_and_eq_zero _ (by decide))) (fieldAt_and_eq_zero _ (by decide))

theorem flagWord_reserved (done err : Bool) :
    (fieldAt 0 (BitVec.ofBool done) ||| fieldAt 1 (BitVec.ofBool err)) &&& 0xFFFFFFFC = 0 :=
  or_and_eq_zero (fieldAt_and_eq_zero _ (by decide)) (fieldAt_and_eq_zero _ (by decide))

theorem dinfoWord_reserved (d : DInfo) : dinfoWord d &&& 0xFC800000 = 0 :=
  or_and_eq_zero (or_and_eq_zero (or_and_eq_zero (fieldAt_and_eq_zero _ (by decide))
    (fieldAt_and_eq_zero _ (by decide))) (fieldAt_and_eq_zero _ (by decide))) (fieldAt_and_eq_zero _ (by decide))

theorem degsWord_reserved (s : State) : degsWord s &&& 0xFFFFF0F0 = 0 :=
  or_and_eq_zero (fieldAt_and_eq_zero _ (by decide)) (fieldAt_and_eq_zero _ (by decide))

/-- Settles O51: the step of a read, then the packed words; every other register reads as it is held. -/
theorem readsHaveNoEffect : Obligations.ReadsHaveNoEffect := by
  refine ⟨fun s rest off => step_read, fun s => ?_, fun s off hoff => ?_, fun s => ?_⟩
  · exact ⟨rfl, cfgWord_eq s.cfg, rfl, flagWord_eq _ _, flagWord_eq _ _, rfl, rfl, (BitVec.ofNat_toNat ..).symm,
      (BitVec.ofNat_toNat ..).symm, rfl, rfl, rfl, rfl, dinfoWord_eq s.dinfo, fun _ => rfl, fun _ => rfl, fun _ => rfl⟩
  · rw [regAt_reserved off hoff]
    rfl
  · exact ⟨cfgWord_reserved s.cfg, statusWord_reserved s, flagWord_reserved _ _, flagWord_reserved _ _,
      dinfoWord_reserved s.dinfo, degsWord_reserved s⟩

/-! ## Writes -/

theorem step_write {s : State} {rest : List BusAccess} {off : Nat} {v : Word} (hbus : s.bus = .write off 4 v :: rest)
    (hoff : off % 4 = 0) (hle : off ≤ 0x0FC) : step s = busWrite off v { s with bus := rest } := by
  rw [step_cons hbus]
  simp [access, accessProblem_eq_none.2 ⟨rfl, hoff, hle⟩]

theorem busWrite_of_ne_cmd {off : Nat} (h : regAt off ≠ .cmd) (v : Word) (s : State) :
    busWrite off v s = .next (writeReg v s (regAt off)) := by
  unfold busWrite
  split
  next hcmd => exact absurd hcmd h
  next => rfl

theorem writeReg_of_readOnly {reg : WinReg} (h : reg ∈
    [WinReg.id, .status, .r, .blkcnt, .bytecnt, .failcnt, .lastfail, .dinfo, .degs, .reserved]) (v : Word) (s : State) :
    writeReg v s reg = s := by
  cases reg with
  | id | status | r | blkcnt | bytecnt | failcnt | lastfail | dinfo | degs | reserved => rfl
  | _ => simp at h

theorem reduce_mod (v : Nat) : reduce (v % 257) = reduce v := Fin.ext (Nat.mod_mod v 257)

/-- Settles O52: a write to any register but `CMD` stores what `writeReg` says of that register. -/
theorem writesStoreWhatTheMapSays : Obligations.WritesStoreWhatTheMapSays := by
  intro s rest off v hbus hoff hle
  have stores {reg : WinReg} (hreg : regAt off = reg) (hne : reg ≠ .cmd) :
      step s = .next (writeReg v { s with bus := rest } reg) := by
    rw [step_write hbus hoff hle, busWrite_of_ne_cmd (hreg ▸ hne), hreg]
  rw [reduce_mod]
  refine ⟨fun h => ?_, fun h => stores h nofun, fun h => stores h nofun, fun i h => stores h nofun,
    fun i h => stores h nofun, fun i h => stores h nofun, fun h => ?_, fun h => stores h nofun,
    fun h => stores h nofun⟩
  · rw [stores rfl fun hcmd => by simp [hcmd] at h, writeReg_of_readOnly h]
  · rw [stores h nofun, BitVec.setWidth_eq_extractLsb' (by decide)]
    rfl

theorem writeCfg_writeCfg (v : Word) (s : State) : writeCfg v (writeCfg v s) = writeCfg v s := by
  obtain ⟨hopen, hw⟩ | ⟨hidle, hlegal, hw⟩ | ⟨hidle, hlegal, hw⟩ := writeCfg_cases v s <;> rw [hw]
  · simp [writeCfg, hopen, rejectCfg]
  · simp [writeCfg, hidle, hlegal, rejectCfg]
  · simp [writeCfg, hidle, hlegal]

theorem clearPending_clearPending (v : Word) (s : State) : clearPending v (clearPending v s) = clearPending v s := by
  simp [clearPending]

/-- Settles O56: `CFG` and `INT_PEND` have their lemmas, an array slot is overwritten, and any other register takes a
value that does not depend on the state. -/
theorem registerWritesAreIdempotent : Obligations.RegisterWritesAreIdempotent := by
  intro s v reg
  cases reg with
  | cfg => exact writeCfg_writeCfg v s
  | intPend => exact clearPending_clearPending v s
  | sym | p | q => simp [writeReg]
  | _ => rfl

/-! ## Byte lanes -/

theorem byteLane_eq (w : Word) (j : Nat) : byteLane w j = BitVec.ofNat 8 (w.toNat / 256 ^ j) := by
  apply BitVec.eq_of_toNat_eq
  rw [byteLane, BitVec.extractLsb'_toNat, BitVec.toNat_ofNat, Nat.shiftRight_eq_div_pow, Nat.pow_mul]

/-- Settles O57: the window's address splits into the word offset and the lane. -/
theorem hostBytesAreLittleEndian : Obligations.HostBytesAreLittleEndian := by
  intro s off j hoff hle hj
  have hword : (Config.gfcBase + off + j - Config.gfcBase) / 4 * 4 = off := by omega
  have hlane : (Config.gfcBase + off + j - Config.gfcBase) % 4 = j := by omega
  rw [hostByteAt, if_pos (by omega), hword, hlane, byteLane_eq]

end Sys2Proof.Machine

/-! The encoding (30_encoding.md R90 to R98). A word is its four fields. A command has one row of the opcode map, which
fixes the fields that the command does not use. Decoding reads a command off the fields and checks the fixed ones. -/
namespace Sys2Proof

/-! ## The fields of a word -/

theorem word_ext_iff {v w : Word} : v = w ↔
    opcOf v = opcOf w ∧ f1Of v = f1Of w ∧ f2Of v = f2Of w ∧ maskFieldOf v = maskFieldOf w := by
  refine ⟨fun h => by simp [h], fun ⟨hopc, hf1, hf2, hmask⟩ => ?_⟩
  simp only [opcOf, f1Of, f2Of, maskFieldOf, ← BitVec.toNat_inj, BitVec.extractLsb'_toNat,
    Nat.shiftRight_eq_div_pow] at hopc hf1 hf2 hmask
  apply BitVec.eq_of_toNat_eq
  omega

/-- A word has room for exactly the operands below 16 (30_encoding.md R90). -/
theorem Instr.wellFormed_iff (i : Instr) : i.WellFormed ↔ f1Field i < 16 ∧ f2Field i < 16 := by
  cases i <;> simp [Instr.WellFormed, Instr.wf, fitsNibble, f1Field, f2Field]

/-! ## The row of a command -/

/-- The commands whose row leaves `F1` free (30_encoding.md R93). -/
def usesF1 : Instr → Bool
  | .basis _ _ | .sbegin _ _ | .benc _ _ | .bdec _ _ => true
  | _ => false

/-- The commands whose row leaves `F2` free (30_encoding.md R93). -/
def usesF2 : Instr → Bool
  | .sbegin _ _ | .benc _ _ | .bdec _ _ => true
  | _ => false

/-- The commands whose row leaves `MASK` free (30_encoding.md R93). -/
def usesMask : Instr → Bool
  | .basis _ _ | .interp _ | .evalsym _ | .validate _ => true
  | _ => false

/-- A row's mask over one field: no bit of a field that the command uses, and every bit of one that it does not. -/
def fixedBits (width : Nat) (used : Bool) : BitVec width := if used then 0 else BitVec.allOnes width

/-- The row of a command, built from the fields that the command uses. -/
def rowOf (i : Instr) : OpcodeRow :=
  ⟨mnemonicOf i, packWord 0 0 0 (opcodeOf i),
    packWord (fixedBits 16 (usesMask i)) (fixedBits 4 (usesF2 i)) (fixedBits 4 (usesF1 i)) 0xFF⟩

/-- The printed map has every command's row. -/
theorem rowOf_mem (i : Instr) : rowOf i ∈ opcodeRows := by
  cases i <;> dsimp only [rowOf, mnemonicOf, opcodeOf, usesF1, usesF2, usesMask] <;> decide

/-- The printed map has no other row. -/
theorem exists_rowOf : ∀ row ∈ opcodeRows, ∃ i, rowOf i = row := by
  simp only [opcodeRows, plainRows, fieldRows, List.cons_append, List.nil_append, List.forall_mem_cons]
  exact ⟨⟨.nop, rfl⟩, ⟨.fadd, rfl⟩, ⟨.fsub, rfl⟩, ⟨.fmul, rfl⟩, ⟨.finv, rfl⟩, ⟨.fdiv, rfl⟩, ⟨.peval, rfl⟩, ⟨.padd, rfl⟩,
    ⟨.psub, rfl⟩, ⟨.pmul, rfl⟩, ⟨.pscale, rfl⟩, ⟨.pmovq, rfl⟩, ⟨.pclr, rfl⟩, ⟨.encode, rfl⟩, ⟨.taggen, rfl⟩,
    ⟨.locate, rfl⟩, ⟨.decode, rfl⟩, ⟨.send, rfl⟩, ⟨.basis 0 0, rfl⟩, ⟨.interp 0, rfl⟩, ⟨.evalsym 0, rfl⟩,
    ⟨.validate 0, rfl⟩, ⟨.sbegin 0 0, rfl⟩, ⟨.benc 0 0, rfl⟩, ⟨.bdec 0 0, rfl⟩, List.forall_mem_nil _⟩

theorem rowOf_eq_of_opcodeOf_eq {i j : Instr} (h : opcodeOf i = opcodeOf j) : rowOf i = rowOf j :=
  List.inj_on_of_nodup_map (f := OpcodeRow.pattern) (by decide) (rowOf_mem i) (rowOf_mem j) (by simp [rowOf, h])

theorem mnemonicOf_eq_iff {row : OpcodeRow} (hrow : row ∈ opcodeRows) (i : Instr) :
    mnemonicOf i = row.mnemonic ↔ rowOf i = row :=
  ⟨List.inj_on_of_nodup_map (f := OpcodeRow.mnemonic) (by decide) (rowOf_mem i) hrow, fun h => h ▸ rfl⟩

/-- The fields of `w` that `i` does not use are 0 (30_encoding.md R90). -/
def unusedClear (i : Instr) (w : Word) : Bool :=
  (usesF1 i || f1Of w == 0) && (usesF2 i || f2Of w == 0) && (usesMask i || maskFieldOf w == 0)

theorem unusedClear_iff (i : Instr) (w : Word) : unusedClear i w = true ↔
    (usesF1 i = true ∨ f1Of w = 0) ∧ (usesF2 i = true ∨ f2Of w = 0) ∧ (usesMask i = true ∨ maskFieldOf w = 0) := by
  simp [unusedClear, and_assoc]

theorem and_fixedBits_eq_zero {width : Nat} (v : BitVec width) (used : Bool) :
    v &&& fixedBits width used = 0 ↔ used = true ∨ v = 0 := by
  cases used <;> simp [fixedBits]

/-- A row looks at each field by itself. -/
theorem selects_rowOf (i : Instr) (w : Word) :
    (rowOf i).selects w = true ↔ opcOf w = opcodeOf i ∧ unusedClear i w = true := by
  have hopc (v : Word) : opcOf (w &&& v) = opcOf w &&& opcOf v := BitVec.extractLsb'_and
  have hf1 (v : Word) : f1Of (w &&& v) = f1Of w &&& f1Of v := BitVec.extractLsb'_and
  have hf2 (v : Word) : f2Of (w &&& v) = f2Of w &&& f2Of v := BitVec.extractLsb'_and
  have hmask (v : Word) : maskFieldOf (w &&& v) = maskFieldOf w &&& maskFieldOf v := BitVec.extractLsb'_and
  have hall : opcOf w &&& 0xFF = opcOf w := BitVec.and_allOnes
  rw [OpcodeRow.selects, beq_iff_eq, word_ext_iff, hopc, hf1, hf2, hmask, unusedClear_iff]
  simp only [rowOf, opcOf_packWord, f1Of_packWord, f2Of_packWord, maskFieldOf_packWord, and_fixedBits_eq_zero, hall]

/-! ## Decoding -/

theorem unusedZero_eq_ok {ok : Bool} {i j : Instr} : unusedZero ok i = .ok j ↔ ok = true ∧ i = j := by
  cases ok <;> simp [unusedZero]

/-- `i` is the command that the opcode of `w` names, with its operands read from the fields of `w`. -/
structure ReadFrom (w : Word) (i : Instr) : Prop where
  opc : opcOf w = opcodeOf i
  f1 : f1Field i = if usesF1 i then (f1Of w).toNat else 0
  f2 : f2Field i = if usesF2 i then (f2Of w).toNat else 0
  mask : maskField i = if usesMask i then maskFieldOf w else 0

/-- All that decoding does: it reads the command that the opcode names, and checks that its unused fields are 0. -/
theorem decode_cases (w : Word) :
    (∃ i, ReadFrom w i ∧ decode w = unusedZero (unusedClear i w) i) ∨
    ((∀ i, opcOf w ≠ opcodeOf i) ∧ decode w = .error .unassignedOpcode) := by
  unfold decode
  dsimp only
  split
  case h_26 =>
    refine .inr ⟨fun i hopc => ?_, rfl⟩
    cases i <;> simp_all [opcodeOf]
  all_goals
    exact .inl ⟨_, ⟨BitVec.eq_of_toNat_eq ‹_›, rfl, rfl, rfl⟩,
      congrArg (unusedZero · _) (by simp [unusedClear, usesF1, usesF2, usesMask])⟩

theorem readFrom_of_decode {w : Word} {i : Instr} (h : decode w = .ok i) :
    ReadFrom w i ∧ unusedClear i w = true := by
  obtain ⟨j, hread, hdec⟩ | ⟨-, hdec⟩ := decode_cases w
  · obtain ⟨hclear, rfl⟩ := unusedZero_eq_ok.1 (hdec ▸ h)
    exact ⟨hread, hclear⟩
  · simp [hdec] at h

theorem ReadFrom.wellFormed {w : Word} {i : Instr} (h : ReadFrom w i) : i.WellFormed := by
  have hf1 := (f1Of w).isLt
  have hf2 := (f2Of w).isLt
  rw [Instr.wellFormed_iff, h.f1, h.f2]
  constructor <;> split <;> omega

theorem ReadFrom.encode_eq {w : Word} {i : Instr} (hread : ReadFrom w i) (hclear : unusedClear i w = true) :
    encode i = w := by
  obtain ⟨hf1, hf2, hmask⟩ := (unusedClear_iff i w).1 hclear
  rw [word_ext_iff, encode, opcOf_packWord, f1Of_packWord, f2Of_packWord, maskFieldOf_packWord, hread.opc, hread.f1,
    hread.f2, hread.mask]
  refine ⟨rfl, ?_, ?_, ?_⟩
  · obtain h | h := hf1 <;> simp [h]
  · obtain h | h := hf2 <;> simp [h]
  · obtain h | h := hmask <;> simp [h]

/-- Settles O7: what is read from a word fits, and with the other fields 0 it determines the word. -/
theorem encodeOfDecodeIsIdentity : Obligations.EncodeOfDecodeIsIdentity := by
  intro w i h
  obtain ⟨hread, hclear⟩ := readFrom_of_decode h
  exact ⟨hread.wellFormed, hread.encode_eq hclear⟩

/-- Settles O6: the packed fields read as they were packed, and an operand below 16 survives its four bits. -/
theorem decodeOfEncodeIsIdentity : Obligations.DecodeOfEncodeIsIdentity := by
  intro i hwf
  obtain ⟨hf1, hf2⟩ := (Instr.wellFormed_iff i).1 hwf
  cases i with
  | basis | interp | evalsym | validate | sbegin | benc | bdec =>
    simp_all [decode, encode, opcOf_packWord, f1Of_packWord, f2Of_packWord, maskFieldOf_packWord, opcodeOf, f1Field,
      f2Field, maskField, unusedZero]
  | _ => rfl

/-- A row selects exactly the words that decode to one of its commands. -/
theorem selects_iff_decode {row : OpcodeRow} (hrow : row ∈ opcodeRows) (w : Word) :
    row.selects w = true ↔ ∃ i, decode w = .ok i ∧ rowOf i = row := by
  constructor
  · intro hsel
    obtain ⟨j, rfl⟩ := exists_rowOf row hrow
    have hopc := ((selects_rowOf j w).1 hsel).1
    obtain ⟨i, hread, hdec⟩ | ⟨hnone, -⟩ := decode_cases w
    · have hsame : rowOf i = rowOf j := rowOf_eq_of_opcodeOf_eq (hread.opc.symm.trans hopc)
      have hclear := ((selects_rowOf i w).1 (hsame ▸ hsel)).2
      exact ⟨i, hdec.trans (unusedZero_eq_ok.2 ⟨hclear, rfl⟩), hsame⟩
    · exact absurd hopc (hnone j)
  · rintro ⟨i, hdec, rfl⟩
    obtain ⟨hread, hclear⟩ := readFrom_of_decode hdec
    exact (selects_rowOf i w).2 ⟨hread.opc, hclear⟩

/-- Settles O5: a row's commands are those of its mnemonic, and a word decodes to one command, which has one row. -/
theorem rowSelectsItsCommand : Obligations.RowSelectsItsCommand := by
  refine ⟨fun w row hrow => ?_, fun w r1 h1 r2 h2 hs1 hs2 => ?_⟩
  · simp only [selects_iff_decode hrow, mnemonicOf_eq_iff hrow]
  · obtain ⟨i, hi, rfl⟩ := (selects_iff_decode h1 w).1 hs1
    obtain ⟨j, hj, rfl⟩ := (selects_iff_decode h2 w).1 hs2
    rw [Except.ok.inj (hi.symm.trans hj)]

/-! ## Illegal words -/

theorem decode_error_iff (w : Word) : (∃ e, decode w = .error e) ↔ ∀ row ∈ opcodeRows, row.selects w = false := by
  constructor
  · rintro ⟨e, he⟩ row hrow
    rw [Bool.eq_false_iff, ne_eq, selects_iff_decode hrow]
    rintro ⟨i, hi, -⟩
    cases he.symm.trans hi
  · intro hnone
    cases hdec : decode w with
    | error e => exact ⟨e, rfl⟩
    | ok i =>
      have hsel := (selects_iff_decode (rowOf_mem i) w).2 ⟨i, hdec, rfl⟩
      cases (hnone _ (rowOf_mem i)).symm.trans hsel

/-- The opcodes in use stand in five runs (30_encoding.md R93, R95). -/
theorem opcodeOf_assigned (i : Instr) :
    (opcodeOf i).toNat ≤ 0x05 ∨
    (0x10 ≤ (opcodeOf i).toNat ∧ (opcodeOf i).toNat ≤ 0x16) ∨
    (0x20 ≤ (opcodeOf i).toNat ∧ (opcodeOf i).toNat ≤ 0x24) ∨
    (0x30 ≤ (opcodeOf i).toNat ∧ (opcodeOf i).toNat ≤ 0x32) ∨
    (0x40 ≤ (opcodeOf i).toNat ∧ (opcodeOf i).toNat ≤ 0x43) := by
  cases i <;> dsimp only [opcodeOf] <;> decide

open Machine in
theorem step_illegal {s : State} {rest : List BusAccess} {w : Word} {e : DecodeError}
    (hbus : s.bus = .write 0x008 4 w :: rest) (hw : decode w = .error e) :
    step s = .next (Safety.failed .illegalCmd { s with bus := rest, cmdLast := w }) := by
  have hcmd : busWrite 0x008 w { s with bus := rest } = issueCommand w { s with bus := rest } := rfl
  rw [step_write hbus (by decide) (by decide), hcmd, issueCommand, hw]
  exact congrArg Host.Outcome.next (complete_error (by decide) _)

/-- Settles O3: the words with no row, the opcodes with no command, and the step of an illegal write. -/
theorem illegalWordsAreRejected : Obligations.IllegalWordsAreRejected := by
  refine ⟨decode_error_iff, fun w hopc => ?_, fun s rest w hbus hnone => ?_⟩
  · obtain ⟨i, hread, -⟩ | ⟨-, hdec⟩ := decode_cases w
    · have hassigned := opcodeOf_assigned i
      rw [hread.opc] at hopc
      dsimp only at hopc
      omega
    · exact hdec
  · obtain ⟨e, he⟩ := (decode_error_iff w).2 hnone
    exact step_illegal hbus he

/-! ## Written words -/

theorem setWidth_ofNat_nibble {v : Nat} (hv : v < 16) : (BitVec.ofNat 4 v).setWidth 32 = BitVec.ofNat 32 v := by
  apply BitVec.eq_of_toNat_eq
  simp only [BitVec.toNat_setWidth, BitVec.toNat_ofNat]
  omega

/-- The written form of a command: its operands shifted into place (30_encoding.md R98). -/
theorem decode_written {i : Instr} (hf1 : f1Field i < 16) (hf2 : f2Field i < 16) :
    decode (((maskField i).setWidth 32 <<< 16) ||| (BitVec.ofNat 32 (f2Field i) <<< 12) |||
      (BitVec.ofNat 32 (f1Field i) <<< 8) ||| (opcodeOf i).setWidth 32) = .ok i := by
  rw [← setWidth_ofNat_nibble hf1, ← setWidth_ofNat_nibble hf2]
  exact decodeOfEncodeIsIdentity i ((Instr.wellFormed_iff i).2 ⟨hf1, hf2⟩)

/-- Settles O8: the listed words by evaluation; every other form is the written form of its command, without the fields
that the command does not use. -/
theorem syntaxGivesTheWords : Obligations.SyntaxGivesTheWords := by
  have zero_lt : 0 < 16 := by decide
  refine ⟨by decide, fun mask one hone => ?_, fun mask => ?_, fun mask => ?_, fun mask => ?_, fun k hk => ?_,
    fun k h hk hh => ?_⟩
  · simpa [maskField, f1Field, f2Field, opcodeOf] using decode_written (i := .basis one mask) hone zero_lt
  · simpa [maskField, f1Field, f2Field, opcodeOf] using decode_written (i := .interp mask) zero_lt zero_lt
  · simpa [maskField, f1Field, f2Field, opcodeOf] using decode_written (i := .evalsym mask) zero_lt zero_lt
  · simpa [maskField, f1Field, f2Field, opcodeOf] using decode_written (i := .validate mask) zero_lt zero_lt
  · simpa [maskField, f1Field, f2Field, opcodeOf] using decode_written (i := .benc k 0) hk zero_lt
  · simpa [maskField, f1Field, f2Field, opcodeOf] using decode_written (i := .bdec k h) hk hh

/-- Settles O9, by evaluation. -/
theorem writtenWordsDecode : Obligations.WrittenWordsDecode := by
  unfold Obligations.WrittenWordsDecode
  decide

end Sys2Proof

/-! How a command completes (40_command_execution.md R120 to R127): the codes it can end with, what an error leaves
alone, and that it reads neither the previous `STATUS.ERR` nor, but for the four session commands, `STATUS.SESS`. -/
namespace Sys2Proof.Machine

open Sys2Proof.Safety

/-! ## The codes of a command -/

/-- The codes of a command that may have changed the state before it completes. -/
def lateCodes : List ErrCode := [.none, .encodingFailed, .uncorrectable, .fileMisaligned]

/-- The codes of a command: all but `ILLEGAL_CMD` and `CONFIG` (40_command_execution.md R123, R124). -/
def commandCodes : List ErrCode := lateCodes ++ [.noInverse, .degreeOverflow, .badOperand, .sequence]

theorem mem_commandCodes_iff {e : ErrCode} : e ∈ commandCodes ↔ e ≠ .illegalCmd ∧ e ≠ .config := by
  cases e <;> decide

theorem mem_commandCodes_of_late {e : ErrCode} (h : e ∈ lateCodes) : e ∈ commandCodes := List.mem_append_left _ h

theorem interp_error_code {m : BitVec 16} {w : List F} {e : ErrCode} (h : interp m w = .error e) :
    e ∈ commandCodes := by
  by_cases hm : popcount m ≤ 14
  · obtain ⟨p, hp, -⟩ := interp_ok hm w
    cases hp.symm.trans h
  · cases (interp_overflow (by omega) w).symm.trans h
    decide

theorem basis_error_code {one : Nat} {m : BitVec 16} {y : F} {e : ErrCode} (h : basis one m y = .error e) :
    e ∈ commandCodes := by
  unfold basis at h
  by_cases hlen : ((bits m).filter (· != one)).length ≤ 13
  · obtain ⟨b, hb, -⟩ := factorProduct_ok hlen
    rw [hb] at h
    dsimp only at h
    split at h <;> cases h
    decide
  · rw [factorProduct_overflow (by omega)] at h
    cases h
    decide

theorem encodeBody_code {s u : State} {e : ErrCode} (h : encodeBody s = (e, u)) :
    e = .none ∨ (e = .encodingFailed ∧ u = s) := by
  obtain hbody | ⟨p, hbody⟩ := encodeBody_cases s <;> obtain ⟨rfl, rfl⟩ := Prod.mk.inj (hbody.symm.trans h)
  · exact .inr ⟨rfl, rfl⟩
  · exact .inl rfl

theorem decodeBody_code {s u : State} {e : ErrCode} (h : decodeBody s = (e, u)) :
    e = .none ∨ (e = .uncorrectable ∧ u = { s with dstat := .uncorrectable, dinfo := DInfo.noneAccepted }) := by
  obtain ⟨-, hbody⟩ | ⟨d, -, hbody⟩ := decodeBody_cases s <;> obtain ⟨rfl, rfl⟩ := Prod.mk.inj (hbody.symm.trans h)
  · exact .inr ⟨rfl, rfl⟩
  · exact .inl rfl

theorem encodeBody_late {s u : State} {e : ErrCode} (h : encodeBody s = (e, u)) : e ∈ lateCodes := by
  obtain rfl | ⟨rfl, -⟩ := encodeBody_code h <;> decide

theorem decodeBody_late {s u : State} {e : ErrCode} (h : decodeBody s = (e, u)) : e ∈ lateCodes := by
  obtain rfl | ⟨rfl, -⟩ := decodeBody_code h <;> decide

theorem sessionReport_late (s : State) : sessionReport s ∈ lateCodes := by
  unfold sessionReport
  split_ifs <;> decide

/-! ## What an effect leaves alone -/

theorem Effect.kept_or_late {s u : State} {i : Instr} {e : ErrCode} (heff : Effect s i e u) :
    u = s ∨ e ∈ lateCodes := by
  cases heff with
  | kept => exact .inl rfl
  | result | polynomial | copied | evaluated | validated | opened | recordAlone | dataAlone => exact .inr (by decide)
  | encoded hbody | blockEncoded _ hbody => exact .inr (encodeBody_late hbody)
  | decoded hbody | blockDecoded _ hbody => exact .inr (decodeBody_late hbody)
  | closed => exact .inr (sessionReport_late s)

/-- Outside `BENC`, `BDEC` and `SEND` an error comes with no effect but the decoder's report. -/
theorem Effect.of_error {s u : State} {i : Instr} {e : ErrCode} (heff : Effect s i e u) (he : e ≠ .none)
    (hbenc : ∀ k f2, i ≠ .benc k f2) (hbdec : ∀ k h, i ≠ .bdec k h) (hsend : i ≠ .send) :
    u = if i = .decode then { s with dstat := u.dstat, dinfo := u.dinfo } else s := by
  cases heff with
  | kept => split <;> rfl
  | result | polynomial | copied | evaluated | validated | opened | recordAlone | dataAlone => exact absurd rfl he
  | encoded hbody =>
    obtain rfl | ⟨-, rfl⟩ := encodeBody_code hbody
    · exact absurd rfl he
    · rfl
  | decoded hbody =>
    obtain rfl | ⟨-, rfl⟩ := decodeBody_code hbody
    · exact absurd rfl he
    · rfl
  | blockEncoded => exact absurd rfl (hbenc _ _)
  | blockDecoded => exact absurd rfl (hbdec _ _)
  | closed => exact absurd rfl hsend

theorem encodeBody_pendErr {s u : State} {e : ErrCode} (h : encodeBody s = (e, u)) : u.pendErr = s.pendErr := by
  obtain ⟨b, g, rfl⟩ := encodeBody_writes h
  rfl

theorem decodeBody_pendErr {s u : State} {e : ErrCode} (h : decodeBody s = (e, u)) : u.pendErr = s.pendErr := by
  obtain ⟨b, st, di, rfl⟩ := decodeBody_writes h
  rfl

theorem logBlock_pendErr (off : Word) (e : ErrCode) (s : State) : (logBlock off e s).pendErr = s.pendErr := by
  obtain ⟨n, o, hlog⟩ := logBlock_writes off e s
  rw [hlog]

/-- Only the completion writes `INT_PEND` (60_exceptions.md R311). -/
theorem Effect.pendErr {s u : State} {i : Instr} {e : ErrCode} (heff : Effect s i e u) : u.pendErr = s.pendErr := by
  cases heff with
  | kept | result | polynomial | copied | evaluated | validated | opened | recordAlone | dataAlone | closed => rfl
  | encoded hbody => exact encodeBody_pendErr hbody
  | decoded hbody => exact decodeBody_pendErr hbody
  | blockEncoded _ hbody => rw [logBlock_pendErr, countBlock_pendErr, encodeBody_pendErr hbody, padBlock_pendErr]
  | blockDecoded _ hbody => rw [logBlock_pendErr, decodeBody_pendErr hbody, padBlock_pendErr, countBlock_pendErr]

/-! ## What a command reads -/

/-- `s` with the code `e`, and with the image of its session under `g`. -/
def relabel (e : ErrCode) (g : Session → Session) (s : State) : State := { s with err := e, sess := g s.sess }

/-- Two runs end with one code of a command; the second leaves the relabelled state of the first. -/
def EndRelabelled (e : ErrCode) (g : Session → Session) (o o' : Result) : Prop :=
  ∃ c ∈ commandCodes, ∃ u, o = finish c u ∧ o' = finish c (relabel e g u)

section
variable (e : ErrCode) (g : Session → Session) (s : State)

@[simp] theorem relabel_cfg : (relabel e g s).cfg = s.cfg := rfl
@[simp] theorem relabel_a : (relabel e g s).a = s.a := rfl
@[simp] theorem relabel_b : (relabel e g s).b = s.b := rfl
@[simp] theorem relabel_tag : (relabel e g s).tag = s.tag := rfl
@[simp] theorem relabel_symbols : (relabel e g s).symbols = s.symbols := rfl
@[simp] theorem relabel_received : (relabel e g s).received = s.received := rfl

theorem padBlock_relabel (k : Nat) : padBlock k (relabel e g s) = relabel e g (padBlock k s) := rfl

theorem countBlock_relabel (k : Nat) : countBlock k (relabel e g s) = relabel e g (countBlock k s) := rfl

theorem logBlock_relabel (off : Word) (c : ErrCode) :
    logBlock off c (relabel e g s) = relabel e g (logBlock off c s) := by
  unfold logBlock
  split <;> rfl

theorem encodeBody_relabel : encodeBody (relabel e g s) = ((encodeBody s).1, relabel e g (encodeBody s).2) := by
  unfold encodeBody
  rw [relabel_cfg, relabel_symbols]
  cases interp s.cfg.dataMask s.symbols <;> rfl

theorem decodeBody_relabel : decodeBody (relabel e g s) = ((decodeBody s).1, relabel e g (decodeBody s).2) := by
  unfold decodeBody
  rw [relabel_cfg, relabel_received, relabel_tag]
  cases decodeWord s.cfg s.received s.tag <;> rfl

variable {e g}

theorem EndRelabelled.completed {c : ErrCode} (hc : c ∈ commandCodes) :
    EndRelabelled e g (finish c s) (finish c (relabel e g s)) := ⟨c, hc, s, rfl, rfl⟩

theorem EndRelabelled.success : EndRelabelled e g (finish .none s) (finish .none (relabel e g s)) :=
  .completed s (by decide)

/-- Two runs that take the same branch. -/
theorem EndRelabelled.ite {p : Prop} [Decidable p] {a b a' b' : Result} (ha : EndRelabelled e g a a')
    (hb : EndRelabelled e g b b') : EndRelabelled e g (if p then a else b) (if p then a' else b') := by
  split
  · exact ha
  · exact hb

/-- A failed check, or the rest of the command. -/
theorem EndRelabelled.check {p : Prop} [Decidable p] {c : ErrCode} {b b' : Result}
    (hb : EndRelabelled e g b b') (hc : c ∈ commandCodes := by decide) :
    EndRelabelled e g (if p then finish c s else b) (if p then finish c (relabel e g s) else b') :=
  .ite (.completed s hc) hb

theorem EndRelabelled.loadP {r : Except ErrCode Coeffs} (hr : ∀ {c}, r = .error c → c ∈ commandCodes) :
    EndRelabelled e g (loadP r s) (loadP r (relabel e g s)) := by
  cases r with
  | error c => exact .completed s (hr rfl)
  | ok p => exact .success _

variable (e)

theorem execFinv_relabel : EndRelabelled e g (execFinv s) (execFinv (relabel e g s)) := by
  unfold execFinv
  rw [relabel_a]
  cases inv? s.a with
  | none => exact .completed s (by decide)
  | some n => exact .success _

theorem execFdiv_relabel : EndRelabelled e g (execFdiv s) (execFdiv (relabel e g s)) := by
  unfold execFdiv
  rw [relabel_b]
  cases inv? s.b with
  | none => exact .completed s (by decide)
  | some n => exact .success _

theorem execEncode_relabel : EndRelabelled e g (execEncode s) (execEncode (relabel e g s)) := by
  unfold execEncode
  rw [encodeBody_relabel]
  exact .check s (.completed _ (mem_commandCodes_of_late (encodeBody_late rfl)))

theorem execValidate_relabel (subset : BitVec 16) :
    EndRelabelled e g (execValidate subset s) (execValidate subset (relabel e g s)) := by
  unfold execValidate
  rw [relabel_cfg, relabel_received]
  refine .check s ?_
  cases cand s.cfg (bits subset) s.received <;> exact .success _

theorem execDecode_relabel : EndRelabelled e g (execDecode s) (execDecode (relabel e g s)) := by
  unfold execDecode
  rw [decodeBody_relabel]
  exact .completed _ (mem_commandCodes_of_late (decodeBody_late rfl))

/-! The four session commands read `STATUS.SESS`, and run alike where it is the same. -/

theorem execSbegin_relabel (mode f2 : Nat) :
    EndRelabelled e id (execSbegin mode f2 s) (execSbegin mode f2 (relabel e id s)) :=
  .check s (.check s (.success _))

theorem execBenc_relabel (k f2 : Nat) :
    EndRelabelled e id (execBenc k f2 s) (execBenc k f2 (relabel e id s)) := by
  unfold execBenc
  rw [padBlock_relabel, encodeBody_relabel]
  dsimp only
  rw [countBlock_relabel, logBlock_relabel]
  exact .check s (.check s (.check s (.completed _ (mem_commandCodes_of_late (encodeBody_late rfl)))))

theorem execBdec_relabel (k h : Nat) :
    EndRelabelled e id (execBdec k h s) (execBdec k h (relabel e id s)) := by
  unfold execBdec
  rw [countBlock_relabel, padBlock_relabel, decodeBody_relabel]
  dsimp only
  rw [logBlock_relabel]
  exact .check s (.check s (.ite (.success _) (.ite (.success _)
    (.completed _ (mem_commandCodes_of_late (decodeBody_late rfl))))))

theorem execSend_relabel : EndRelabelled e id (execSend s) (execSend (relabel e id s)) :=
  .check s (.completed _ (mem_commandCodes_of_late (sessionReport_late s)))

/-- No command reads the previous `STATUS.ERR`, and only the four session commands read `STATUS.SESS`. -/
theorem exec_relabel {i : Instr} (h : mnemonicOf i ∉ ["SBEGIN", "BENC", "BDEC", "SEND"] ∨ g = id) :
    EndRelabelled e g (exec i s) (exec i (relabel e g s)) := by
  cases i with
  | nop => exact .success s
  | fadd | fsub | fmul | peval | padd | psub | pscale | pmovq | pclr | evalsym | taggen | locate => exact .success _
  | finv => exact execFinv_relabel e s
  | fdiv => exact execFdiv_relabel e s
  | pmul => exact .check s (.success _)
  | basis one xs => exact .check s (.loadP s basis_error_code)
  | interp xs => exact .loadP s interp_error_code
  | encode => exact execEncode_relabel e s
  | validate subset => exact execValidate_relabel e s subset
  | decode => exact execDecode_relabel e s
  | sbegin mode f2 =>
    obtain rfl : g = id := h.resolve_left (by simp [mnemonicOf])
    exact execSbegin_relabel e s mode f2
  | benc k f2 =>
    obtain rfl : g = id := h.resolve_left (by simp [mnemonicOf])
    exact execBenc_relabel e s k f2
  | bdec k parts =>
    obtain rfl : g = id := h.resolve_left (by simp [mnemonicOf])
    exact execBdec_relabel e s k parts
  | send =>
    obtain rfl : g = id := h.resolve_left (by simp [mnemonicOf])
    exact execSend_relabel e s

end

/-! ## The rules of completion -/

theorem exec_err_mem {i : Instr} {s t : State} (h : exec i s = .next t) : t.err ∈ commandCodes := by
  obtain ⟨c, hc, u, hexec, -⟩ := exec_relabel (g := id) .none s (i := i) (.inr rfl)
  obtain rfl := (finish_eq_next ..).1 (hexec ▸ h)
  exact hc

/-- Settles O10: the completion writes the three bits, and two runs that differ in the previous code end alike. -/
theorem everyCommandCompletes : Obligations.EveryCommandCompletes := by
  intro i s e
  obtain ⟨c, -, u, hexec, hexec'⟩ := exec_relabel (g := id) e s (i := i) (.inr rfl)
  obtain ⟨c', u', heff, ht⟩ := exec_next hexec
  refine ⟨complete c u, hexec, rfl, ?_, hexec'⟩
  rw [ht, complete_pendErr, heff.pendErr]
  cases c' <;> rfl

/-- Settles O11: neither of the two codes is that of a command which has changed the state. -/
theorem rejectedCommandsChangeNothing : Obligations.RejectedCommandsChangeNothing := by
  intro i s t h
  obtain ⟨hillegal, hconfig⟩ := mem_commandCodes_iff.1 (exec_err_mem h)
  refine ⟨hillegal, hconfig, fun hrej => ?_⟩
  obtain ⟨e, u, heff, rfl⟩ := exec_next h
  rw [complete_err] at hrej ⊢
  obtain rfl | hlate := heff.kept_or_late
  · exact complete_error (by rintro rfl; simp at hrej) u
  · obtain rfl | rfl := hrej <;> simp [lateCodes] at hlate

/-- Settles O12: the effect of an error, and its completion. -/
theorem executionErrorsChangeNothingElse : Obligations.ExecutionErrorsChangeNothingElse := by
  intro i s t h herr hbenc hbdec hsend
  obtain ⟨e, u, heff, rfl⟩ := exec_next h
  have he : e ≠ .none := by rintro rfl; simp at herr
  have hu := heff.of_error he hbenc hbdec hsend
  exact (complete_error he u).trans (congrArg (failed e) hu)

/-- Settles O48: two runs that differ in the session end alike, and the completion does not touch it. -/
theorem otherCommandsIgnoreTheSession : Obligations.OtherCommandsIgnoreTheSession := by
  intro i s sess hi
  obtain ⟨c, -, u, hexec, hexec'⟩ := exec_relabel (g := fun _ => sess) s.err s (.inl hi)
  exact ⟨complete c u, hexec, hexec'⟩

theorem step_cmd {s : State} {rest : List BusAccess} {w : Word} (hbus : s.bus = .write 0x008 4 w :: rest) :
    step s = issueCommand w { s with bus := rest } := step_write hbus (by decide) (by decide)

/-- Settles O2: the access is a write of the command's word, and what it issues is the decoded command. -/
theorem stepRunsTheWrittenCommand : Obligations.StepRunsTheWrittenCommand := by
  have runs (s : State) (rest : List BusAccess) (w : Word) (i : Instr) (hbus : s.bus = .write 0x008 4 w :: rest)
      (hw : decode w = .ok i) : step s = exec i { s with bus := rest, cmdLast := w } := by
    rw [step_cmd hbus, issueCommand, hw]
  refine ⟨runs, fun s nbits w i hw => runs _ s.bus _ i rfl ?_⟩
  cases hdec : decode (tableWord nbits w) <;> rw [decodeTableWord, hdec] at hw
  · cases hw
  · exact congrArg Except.ok (Option.some.inj hw)

theorem opcodeOf_eq_zero {i : Instr} (h : opcodeOf i = 0x00) : i = .nop := by
  cases i with
  | nop => rfl
  | _ => simp [opcodeOf] at h

/-- Settles O13: the opcode names `NOP`, whose only word is 0. -/
theorem nopOnlyCompletes : Obligations.NopOnlyCompletes := by
  refine ⟨rfl, fun w hopc hne => ?_, fun s => congrArg Host.Outcome.next (complete_success s)⟩
  obtain ⟨i, hread, hdec⟩ | ⟨hnone, -⟩ := decode_cases w
  · obtain rfl := opcodeOf_eq_zero (hread.opc.symm.trans hopc)
    have hclear : unusedClear .nop w = false := by
      by_contra h
      exact hne (hread.encode_eq (by simpa using h)).symm
    rw [hdec, hclear]
    rfl
  · exact absurd hopc (hnone .nop)

end Sys2Proof.Machine

/-! The field ALU (41_field_alu.md R140 to R145): what each command writes to `R`, and the inverse as the only solution of
`b * n = 1 mod 257`. -/
namespace Sys2Proof.Machine

open Sys2Proof.Safety

/-! ## Values as plain numbers -/

/-- The field's subtraction without a negative number (00_scope.md R12). -/
theorem val_fieldSub (u v : F) : (fieldSub u v).val = (u.val + 257 - v.val) % 257 := by
  show (((u.val : Int) - v.val) % 257).toNat = _
  have hv := v.isLt
  omega

theorem val_mul_inv {b : F} (hb : b ≠ 0) : (b.val * (inv b).val) % 257 = 1 :=
  congrArg Fin.val (fieldMul_inv b hb)

theorem val_mul_mod_eq_one_iff (b : F) (m : Nat) : (b.val * m) % 257 = 1 ↔ zmodOf b * (m : ZMod 257) = 1 := by
  simpa [zmodOf] using (ZMod.natCast_eq_natCast_iff' (b.val * m) 1 257).symm

/-- The inverse is the only one below 257: in the field a left and a right inverse agree. -/
theorem eq_val_inv_of_mul_mod_eq_one {b : F} (hb : b ≠ 0) {m : Nat} (hm : m < 257) (h : (b.val * m) % 257 = 1) :
    m = (inv b).val := by
  have hright : zmodOf b * (m : ZMod 257) = 1 := (val_mul_mod_eq_one_iff b m).1 h
  have hleft : zmodOf (inv b) * zmodOf b = 1 := by rw [mul_comm, zmodOf_mul_inv hb]
  exact (natCast_inj_of_lt hm (inv b).isLt).1 (left_inv_eq_right_inv hleft hright).symm

/-! ## The endings -/

theorem finish_success (s : State) : finish .none s = .next (succeeded s) :=
  congrArg Host.Outcome.next (complete_success s)

theorem finish_error {e : ErrCode} (he : e ≠ .none) (s : State) : finish e s = .next (failed e s) :=
  congrArg Host.Outcome.next (complete_error he s)

theorem finish_setResultF (v : F) (s : State) :
    finish .none (setResultF v s) = .next (succeeded { s with r := BitVec.ofNat 16 v.val }) :=
  finish_success (setResultF v s)

theorem execFinv_of_eq_zero {s : State} (ha : s.a = 0) : execFinv s = .next (failed .noInverse s) := by
  rw [execFinv, ha, inv?_zero]
  exact finish_error (by decide) s

theorem execFinv_of_ne_zero {s : State} (ha : s.a ≠ 0) :
    execFinv s = .next (succeeded { s with r := BitVec.ofNat 16 (inv s.a).val }) := by
  rw [execFinv, inv?_of_ne ha]
  exact finish_setResultF _ s

theorem execFdiv_of_eq_zero {s : State} (hb : s.b = 0) : execFdiv s = .next (failed .noInverse s) := by
  rw [execFdiv, hb, inv?_zero]
  exact finish_error (by decide) s

theorem execFdiv_of_ne_zero {s : State} (hb : s.b ≠ 0) :
    execFdiv s = .next (succeeded { s with r := BitVec.ofNat 16 ((s.a.val * (inv s.b).val) % 257) }) := by
  rw [execFdiv, inv?_of_ne hb]
  exact finish_setResultF _ s

/-! ## The commands -/

/-- Settles O15: a nonzero operand has `inv` as its only inverse, and `inv?` has no value at 0. -/
theorem finvFdivResults : Obligations.FinvFdivResults := by
  refine ⟨rfl, rfl, fun s => ⟨execFinv_of_eq_zero, fun ha => ?_, execFdiv_of_eq_zero, fun hb => ?_⟩⟩
  · exact ⟨(inv s.a).val, (inv s.a).isLt, val_mul_inv ha, fun _ => eq_val_inv_of_mul_mod_eq_one ha,
      execFinv_of_ne_zero ha⟩
  · exact ⟨(inv s.b).val, (inv s.b).isLt, val_mul_inv hb, execFdiv_of_ne_zero hb⟩

/-- Settles O14: each command writes its field operation's value, of which only the difference needs a plain form. -/
theorem faddFsubFmulResults : Obligations.FaddFsubFmulResults := by
  refine ⟨rfl, rfl, rfl, fun s => ⟨finish_setResultF (fieldAdd s.a s.b) s, ?_,
    finish_setResultF (fieldMul s.a s.b) s⟩⟩
  rw [← val_fieldSub]
  exact finish_setResultF (fieldSub s.a s.b) s

end Sys2Proof.Machine

/-! The polynomial engine (42_polynomial.md R160 to R169): values and coefficients as plain sums mod 257, the degree
check of `PMUL`, and what each command writes. -/
namespace Sys2Proof.Machine

open Polynomial Sys2Proof.Safety

/-! ## Values -/

theorem natCast_valueAt (p : Coeffs) (x : Nat) : (valueAt p x : ZMod 257) = (toPoly p).eval (x : ZMod 257) := by
  simp only [valueAt, toPoly, ← Fin.sum_univ_def, Finset.sum_range, ZMod.natCast_mod, Nat.cast_sum, Nat.cast_mul,
    Nat.cast_pow, eval_finsetSum, eval_mul, eval_C, eval_pow, eval_X, coeff_fin, zmodOf]

theorem valueAt_eq_mod {p : Coeffs} {x n : Nat} (h : (toPoly p).eval (x : ZMod 257) = n) : valueAt p x = n % 257 := by
  have hmod := (ZMod.natCast_eq_natCast_iff' _ _ _).1 ((natCast_valueAt p x).trans h)
  rwa [valueAt, Nat.mod_mod] at hmod

/-- Horner's method gives the plain sum (42_polynomial.md R160). -/
theorem val_eval (p : Coeffs) (x : F) : (eval p x).val = valueAt p x.val := by
  rw [valueAt_eq_mod (zmodOf_eval p x).symm, Nat.mod_eq_of_lt (eval p x).isLt]

/-! ## Coefficients -/

theorem coeff_of_lt (p : Coeffs) {i : Nat} (h : i < 14) : coeff p i = p[i] := coeff_fin p ⟨i, h⟩

theorem getElem_polyOf (f : Nat → F) (i : Fin 14) : (polyOf f)[i] = f i := by
  rw [← coeff_fin, coeff_polyOf i.isLt]

theorem getElem_polyAdd (p q : Coeffs) (i : Fin 14) : (polyAdd p q)[i] = fieldAdd p[i] q[i] := by
  rw [polyAdd, getElem_polyOf, coeff_fin, coeff_fin]

theorem getElem_polySub (p q : Coeffs) (i : Fin 14) : (polySub p q)[i] = fieldSub p[i] q[i] := by
  rw [polySub, getElem_polyOf, coeff_fin, coeff_fin]

theorem getElem_polyScale (v : F) (p : Coeffs) (i : Fin 14) : (polyScale v p)[i] = fieldMul v p[i] := by
  rw [polyScale, getElem_polyOf, coeff_fin]

theorem zeroPoly_eq_replicate : zeroPoly = Vector.replicate 14 0 := by decide

/-! ## The product -/

theorem val_getElem_polyMul (p q : Coeffs) (k : Fin 14) : (polyMul p q)[k].val =
    (∑ i ∈ Finset.range (k.val + 1), (coeff p i).val * (coeff q (k.val - i)).val) % 257 := by
  have hcast : ((polyMul p q)[k].val : ZMod 257) =
      ((∑ i ∈ Finset.range (k.val + 1), (coeff p i).val * (coeff q (k.val - i)).val : Nat) : ZMod 257) := by
    calc ((polyMul p q)[k].val : ZMod 257)
        = zmodOf (coeff (polyMul p q) k) := by rw [coeff_fin, zmodOf]
      _ = _ := by
        rw [zmodOf_coeff_polyMul p q k.isLt, Polynomial.coeff_mul, Finset.Nat.sum_antidiagonal_eq_sum_range_succ_mk]
        simp only [toPoly_coeff, zmodOf, Nat.cast_sum, Nat.cast_mul]
  rw [← (ZMod.natCast_eq_natCast_iff' _ _ _).1 hcast, Nat.mod_eq_of_lt (polyMul p q)[k].isLt]

/-- A sum over all lanes with the lanes above `k` left out. -/
theorem sum_lanes_upTo (f : Nat → Nat) (k : Fin 14) :
    ((List.finRange 14).map fun i : Fin 14 => if i.val ≤ k.val then f i.val else 0).sum =
      ∑ i ∈ Finset.range (k.val + 1), f i := by
  rw [← Fin.sum_univ_def, ← Finset.sum_range fun i => if i ≤ k.val then f i else 0, ← Finset.sum_filter]
  congr 1
  ext i
  have hk := k.isLt
  simp only [Finset.mem_filter, Finset.mem_range]
  omega

/-- Lane `k` of the product as the plain sum of lane products (42_polynomial.md R170). -/
theorem val_getElem_polyMul_eq_sum (p q : Coeffs) (k : Fin 14) : (polyMul p q)[k].val =
    ((List.finRange 14).map fun i => if h : i.val ≤ k.val then
      p[i].val * (q[k.val - i.val]'(by omega)).val else 0).sum % 257 := by
  rw [val_getElem_polyMul, ← sum_lanes_upTo]
  congr 3
  funext i
  split
  · rw [coeff_fin, coeff_of_lt]
  · rfl

theorem val_fin_le_deg {p : Coeffs} {i : Fin 14} (h : p[i] ≠ 0) : i.val ≤ deg p := by
  obtain ⟨habove, -, -⟩ := deg_spec p
  by_contra hlt
  exact h (by rw [← coeff_fin, habove i (by omega)])

theorem isZeroPoly_of_ne {p : Coeffs} {i : Fin 14} (h : p[i] ≠ 0) : isZeroPoly p = false := by
  rw [← Bool.not_eq_true, isZeroPoly_iff]
  intro hzero
  exact h (by rw [← coeff_fin, hzero])

/-- `PMUL` overflows iff two nonzero coefficients meet above degree 13: each degree is at most 13, so both are positive
where their sum is above 13, and their coefficients are nonzero (42_polynomial.md R166). -/
theorem mulOverflows_iff (p q : Coeffs) :
    mulOverflows p q = true ↔ ∃ i j : Fin 14, p[i] ≠ 0 ∧ q[j] ≠ 0 ∧ 13 < i.val + j.val := by
  constructor
  · intro h
    obtain ⟨dp, hdp, -, hp⟩ := exists_degree p
    obtain ⟨dq, hdq, -, hq⟩ := exists_degree q
    have hsum : 13 < dp.val + dq.val := by
      rw [hdp, hdq]
      exact of_decide_eq_true (Bool.and_elim_right h)
    exact ⟨dp, dq, hp.resolve_right (by omega), hq.resolve_right (by omega), hsum⟩
  · rintro ⟨i, j, hi, hj, hsum⟩
    have hdp := val_fin_le_deg hi
    have hdq := val_fin_le_deg hj
    rw [mulOverflows, isZeroPoly_of_ne hi, isZeroPoly_of_ne hj]
    exact decide_eq_true (show 13 < deg p + deg q by omega)

/-- Without overflow the product's value is the product of the values (42_polynomial.md R165). -/
theorem valueAt_polyMul {p q : Coeffs} (h : mulOverflows p q = false) (x : Nat) :
    valueAt (polyMul p q) x = (valueAt p x * valueAt q x) % 257 := by
  apply valueAt_eq_mod
  rw [toPoly_polyMul h, eval_mul, Nat.cast_mul, natCast_valueAt, natCast_valueAt]

theorem execPmul_of_overflow {s : State} (h : mulOverflows s.p s.q = true) :
    execPmul s = .next (failed .degreeOverflow s) := by
  rw [execPmul, if_pos h]
  exact finish_error (by decide) s

theorem execPmul_of_fits {s : State} (h : mulOverflows s.p s.q = false) :
    execPmul s = .next (succeeded { s with p := polyMul s.p s.q }) := by
  rw [execPmul, h]
  exact finish_success _

/-! ## The commands -/

/-- Settles O18: the degree check is the condition on the coefficients, and the stored product has the lanes and values. -/
theorem pmulGivesTheProduct : Obligations.PmulGivesTheProduct := by
  refine ⟨rfl, fun s => ⟨fun hmeet => execPmul_of_overflow ((mulOverflows_iff _ _).2 hmeet), fun hfits => ?_⟩⟩
  have hover : mulOverflows s.p s.q = false := by
    rw [← Bool.not_eq_true, mulOverflows_iff]
    rintro ⟨i, j, hi, hj, hsum⟩
    exact absurd (hfits i j hi hj) (by omega)
  exact ⟨polyMul s.p s.q, execPmul_of_fits hover, val_getElem_polyMul_eq_sum s.p s.q, valueAt_polyMul hover⟩

/-- Settles O16: Horner's value is the plain sum. -/
theorem pevalGivesTheValue : Obligations.PevalGivesTheValue := by
  refine ⟨rfl, fun s => ?_⟩
  rw [← val_eval]
  exact finish_setResultF _ s

/-- Settles O17: each lane of the stored array is the field operation on the lanes, of which only the difference needs a
plain form. -/
theorem lanewisePolynomialCommands : Obligations.LanewisePolynomialCommands := by
  refine ⟨rfl, rfl, rfl, rfl, rfl, fun s => ⟨?padd, ?psub, ?pscale, finish_success { s with q := s.p }, ?pclr⟩⟩
  case padd => exact ⟨polyAdd s.p s.q, finish_success _, fun i => congrArg Fin.val (getElem_polyAdd s.p s.q i)⟩
  case psub =>
    refine ⟨polySub s.p s.q, finish_success _, fun i => ?_⟩
    rw [getElem_polySub, val_fieldSub]
  case pscale => exact ⟨polyScale s.a s.p, finish_success _, fun i => congrArg Fin.val (getElem_polyScale s.a s.p i)⟩
  case pclr =>
    rw [← zeroPoly_eq_replicate]
    exact finish_success _

end Sys2Proof.Machine

/-! The word of a command as arithmetic on its fields (30_encoding.md R90, R98). -/
namespace Sys2Proof

theorem encode_eq_ofNat {i : Instr} (hi : i.WellFormed) : encode i = BitVec.ofNat 32
    (65536 * (maskField i).toNat + 4096 * f2Field i + 256 * f1Field i + (opcodeOf i).toNat) := by
  obtain ⟨hf1, hf2⟩ := (Instr.wellFormed_iff i).1 hi
  have hmask := (maskField i).isLt
  have hopc := (opcodeOf i).isLt
  rw [word_ext_iff, encode, opcOf_packWord, f1Of_packWord, f2Of_packWord, maskFieldOf_packWord]
  simp only [opcOf, f1Of, f2Of, maskFieldOf, ← BitVec.toNat_inj, BitVec.extractLsb'_toNat, BitVec.toNat_ofNat,
    Nat.shiftRight_eq_div_pow]
  omega

theorem encode_basis {one : Nat} (hone : one < 16) (xs : BitVec 16) :
    encode (.basis one xs) = BitVec.ofNat 32 (65536 * xs.toNat + 256 * one + 0x20) :=
  encode_eq_ofNat (i := .basis one xs) (decide_eq_true hone)

theorem encode_interp (xs : BitVec 16) : encode (.interp xs) = BitVec.ofNat 32 (65536 * xs.toNat + 0x21) :=
  encode_eq_ofNat rfl

theorem encode_evalsym (targets : BitVec 16) :
    encode (.evalsym targets) = BitVec.ofNat 32 (65536 * targets.toNat + 0x22) :=
  encode_eq_ofNat rfl

end Sys2Proof

/-! Interpolation in plain numbers (43_interpolation_encoder.md R193, R199): `BASIS` and `INTERP`. -/
namespace Sys2Proof.Machine

open Polynomial Sys2Proof.Safety

/-! ## Degrees, values and selected abscissas -/

theorem degreeBelow_iff {p : Coeffs} {k : Nat} : degreeBelow p k ↔ (toPoly p).degree < k := by
  rw [degree_lt_iff_coeff_zero]
  constructor
  · intro h i hk
    by_cases hi : i < 14
    · rw [toPoly_coeff, coeff_of_lt p hi]
      exact zmodOf_eq_zero.2 (h ⟨i, hi⟩ hk)
    · rw [toPoly_coeff, coeff_of_ge (by omega), zmodOf_zero]
  · intro h i hk
    rw [← coeff_fin, ← zmodOf_eq_zero, ← toPoly_coeff]
    exact h i hk

theorem valueAt_eq_val_iff {p : Coeffs} {x : Nat} {v : F} :
    valueAt p x = v.val ↔ (toPoly p).eval (x : ZMod 257) = zmodOf v := by
  constructor
  · intro h
    rw [← natCast_valueAt, h, zmodOf]
  · intro h
    rw [valueAt_eq_mod h, Nat.mod_eq_of_lt v.isLt]

theorem mem_bits_of_getLsbD {m : BitVec 16} {x : Nat} (h : m.getLsbD x = true) : x ∈ bits m :=
  mem_bits.2 ⟨BitVec.lt_of_getLsbD h, h⟩

/-! ## `INTERP` -/

/-- Through at most 14 selected slots there is an interpolant of degree below their number. -/
theorem interp_slots {m : BitVec 16} (hm : countBits m ≤ 14) (s : State) :
    ∃ p, interp m s.symbols = .ok p ∧ degreeBelow p (countBits m) ∧
      ∀ x, x < 16 → m.getLsbD x = true → valueAt p x = (slot s.sym x).val := by
  rw [countBits_eq_popcount] at hm ⊢
  obtain ⟨p, hp, hdeg, hzero, hval⟩ := interp_ok hm s.symbols
  refine ⟨p, hp, degreeBelow_iff.2 (degree_lt_of_interp hdeg hzero), fun x _ hx => ?_⟩
  rw [valueAt_eq_val_iff, hval x (mem_bits_of_getLsbD hx), symbolAt_symbols]

/-- Polynomials of degree below the number of selected abscissas that agree there are equal. -/
theorem eq_of_valueAt_eq {m : BitVec 16} {p q : Coeffs} (hp : degreeBelow p (countBits m))
    (hq : degreeBelow q (countBits m)) (h : ∀ x, x < 16 → m.getLsbD x = true → valueAt p x = valueAt q x) : p = q := by
  rw [degreeBelow_iff, countBits_eq_popcount] at hp hq
  refine toPoly_injective (poly_eq_of_eval_eq (bits_nodup m) (fun x hx => ?_) hp hq fun x hx => ?_)
  · exact (lt_of_mem_bits hx).trans (by decide)
  · obtain ⟨hx16, hm⟩ := mem_bits.1 hx
    rw [← natCast_valueAt, ← natCast_valueAt, h x hx16 hm]

theorem loadP_ok (p : Coeffs) (s : State) : loadP (.ok p) s = .next (succeeded { s with p := p }) := finish_success _

theorem loadP_error {e : ErrCode} (he : e ≠ .none) (s : State) : loadP (.error e) s = .next (failed e s) :=
  finish_error he s

theorem execInterp_overflow {xs : BitVec 16} (h : 15 ≤ countBits xs) (s : State) :
    execInterp xs s = .next (failed .degreeOverflow s) := by
  rw [countBits_eq_popcount] at h
  rw [execInterp, interp_overflow h]
  exact loadP_error (by decide) s

/-- Settles O21: the interpolant is loaded, and any other polynomial with its properties agrees with it at the selected
abscissas. -/
theorem interpLoadsTheInterpolant : Obligations.InterpLoadsTheInterpolant := by
  refine fun s xs => ⟨encode_interp xs, fun h => execInterp_overflow h s, fun h => ?_⟩
  obtain ⟨p, hp, hdeg, hval⟩ := interp_slots h s
  refine ⟨p, ?_, hdeg, hval, fun d hd hdval => ?_⟩
  · rw [exec, execInterp, hp]
    exact loadP_ok p s
  · exact eq_of_valueAt_eq hd hdeg fun x hx hm => (hdval x hx hm).trans (hval x hx hm).symm

/-! ## `BASIS` -/

/-- The basis polynomial of `one` among at most 14 selected abscissas. -/
theorem basis_values {one : Nat} {m : BitVec 16} (y : F) (hone : m.getLsbD one = true) (hm : countBits m ≤ 14) :
    ∃ b, basis one m y = .ok b ∧ degreeBelow b (countBits m) ∧
      ∀ x, x < 16 → m.getLsbD x = true → valueAt b x = if x = one then y.val else 0 := by
  rw [countBits_eq_popcount] at hm ⊢
  have hmem := mem_bits_of_getLsbD hone
  obtain ⟨b, hb, hdeg, hval⟩ := basis_ok y hmem hm
  have hpos : popcount m ≠ 0 := (List.length_pos_of_mem hmem).ne'
  refine ⟨b, hb, degreeBelow_iff.2 (degree_lt_of_interp hdeg fun h => absurd h hpos), fun x _ hx => ?_⟩
  have hx' := hval x (mem_bits_of_getLsbD hx)
  split
  next heq => rwa [if_pos heq, ← valueAt_eq_val_iff] at hx'
  next hne => rwa [if_neg hne, ← zmodOf_zero, ← valueAt_eq_val_iff] at hx'

theorem execBasis_unselected {one : Nat} {xs : BitVec 16} (h : xs.getLsbD one = false) (s : State) :
    execBasis one xs s = .next (failed .badOperand s) := by
  rw [execBasis, maskHas, h]
  exact finish_error (by decide) s

theorem execBasis_selected {one : Nat} {xs : BitVec 16} (h : xs.getLsbD one = true) (s : State) :
    execBasis one xs s = loadP (basis one xs (slot s.sym one)) s := by
  rw [execBasis, maskHas, h, symbolAt_symbols]
  rfl

/-- Settles O20: the three endings, and the values of the loaded basis polynomial. -/
theorem basisLoadsTheBasisPolynomial : Obligations.BasisLoadsTheBasisPolynomial := by
  refine fun s one xs hone16 => ⟨encode_basis hone16 xs, fun h => execBasis_unselected h s, fun hone h => ?_,
    fun hone h => ?_⟩
  · rw [countBits_eq_popcount] at h
    rw [exec, execBasis_selected hone, basis_overflow _ (mem_bits_of_getLsbD hone) h]
    exact loadP_error (by decide) s
  · obtain ⟨b, hb, hdeg, hval⟩ := basis_values (slot s.sym one) hone h
    refine ⟨b, ?_, hdeg, hval⟩
    rw [exec, execBasis_selected hone, hb]
    exact loadP_ok b s

end Sys2Proof.Machine

/-! The symbol buffer after `EVALSYM` and `ENCODE` (43_interpolation_encoder.md R196, R197). -/
namespace Sys2Proof.Machine

open Sys2Proof.Safety

/-! ## Slots -/

theorem slot_ofFn (f : Fin 16 → F) {x : Nat} (hx : x < 16) : slot (Vector.ofFn f) x = f ⟨x, hx⟩ := by
  simp [slot, hx]

theorem slot_of_lt (b : SymbolBuf) {x : Nat} (hx : x < 16) : slot b x = b[x] := dif_pos hx

theorem val_eval_reduce (p : Coeffs) {x : Nat} (hx : x < 257) : (eval p (reduce x)).val = valueAt p x := by
  rw [val_eval]
  exact congrArg (valueAt p) (Nat.mod_eq_of_lt hx)

/-- Settles O22: each slot of the buffer that the command builds. -/
theorem evalsymWritesTheValues : Obligations.EvalsymWritesTheValues := by
  refine fun s targets => ⟨encode_evalsym targets, _, finish_success _, fun x hx => ⟨fun hm => ?_, fun hm => ?_⟩⟩
  · rw [slot_ofFn _ hx, maskHas, hm, if_pos rfl, val_eval_reduce _ (by omega)]
  · rw [slot_ofFn _ hx, maskHas, hm, slot_of_lt _ hx]
    rfl

/-! ## `ENCODE` -/

/-- The check for a symbol 256 looks at the slots below its bound; a slot above the buffer would read as 0. -/
theorem dataHas256_iff (s : State) (k : Nat) : s.dataHas256 k = true ↔ ∃ x, x < k ∧ slot s.sym x = 256 := by
  simp only [State.dataHas256, List.any_eq_true, List.mem_take_iff_getElem, beq_iff_eq]
  constructor
  · rintro ⟨v, ⟨x, hx, rfl⟩, hv⟩
    obtain ⟨hxk, hx16⟩ : x < k ∧ x < 16 := by simpa [State.symbols] using hx
    exact ⟨x, hxk, (slot_of_lt s.sym hx16).trans hv⟩
  · rintro ⟨x, hxk, hv⟩
    have hx16 : x < 16 := by
      by_contra h
      simp [slot, h] at hv
    exact ⟨_, ⟨x, by simp [State.symbols, hxk, hx16], rfl⟩, (slot_of_lt s.sym hx16).symm.trans hv⟩

theorem dataHas256_eq_false_iff (s : State) : s.dataHas256 s.cfg.dataLen = false ↔ dataAreBytes s := by
  simp [← Bool.not_eq_true, dataHas256_iff, dataAreBytes]

theorem codeLen_lt_16 {c : Cfg} (h : c.legal = true) : c.codeLen < 16 := by
  obtain ⟨-, hN, -, hE, -⟩ := legal_iff.1 h
  unfold Cfg.codeLen
  omega

theorem slot_writeSymbols_codeword (b : SymbolBuf) (p : Coeffs) (n : Nat) {x : Nat} (hx : x < 16) :
    slot (writeSymbols b (codeword p n)) x = if x < n then eval p (reduce x) else slot b x := by
  rw [slot_of_lt _ hx, slot_of_lt _ hx]
  refine (getElem_writeSymbols b (codeword p n) ⟨x, hx⟩).trans ?_
  simp [codeword]

theorem take_writeSymbols_codeword (b : SymbolBuf) (p : Coeffs) {n : Nat} (hn : n ≤ 16) :
    (writeSymbols b (codeword p n)).toList.take n = codeword p n := by
  refine List.ext_getElem (by simp [hn]) fun x _ hx => ?_
  have hxn : x < n := by simpa using hx
  simpa [hxn] using getElem_writeSymbols b (codeword p n) ⟨x, by omega⟩

theorem dataMask_getLsbD {c : Cfg} {x : Nat} (hx : x < 16) : c.dataMask.getLsbD x = decide (x < c.dataLen) :=
  (maskHas_maskOf hx).trans (by simp)

theorem countBits_dataMask {c : Cfg} (h : c.dataLen ≤ 16) : countBits c.dataMask = c.dataLen := by
  rw [countBits_eq_popcount, popcount_dataMask h]

/-- What the body of `ENCODE` does in a legal configuration (43_interpolation_encoder.md R197, R200): it writes the
values of the interpolant of the data, and their tag. -/
theorem encodeBody_legal {s : State} (h : s.cfg.legal = true) : ∃ p : Coeffs,
    encodeBody s = (.none, { s with sym := writeSymbols s.sym (codeword p s.cfg.codeLen)
                                    tag := tagOf s.cfg.dataLen (codeword p s.cfg.codeLen) }) ∧
    degreeBelow p s.cfg.dataLen ∧ ∀ x, x < s.cfg.dataLen → valueAt p x = (slot s.sym x).val := by
  obtain ⟨-, hN, -⟩ := legal_iff.1 h
  have hcount : countBits s.cfg.dataMask = s.cfg.dataLen := countBits_dataMask (by omega)
  obtain ⟨p, hp, hdeg, hval⟩ := interp_slots (m := s.cfg.dataMask) (by omega) s
  rw [hcount] at hdeg
  refine ⟨p, by rw [encodeBody, hp], hdeg, fun x hx => hval x (by omega) ?_⟩
  rw [dataMask_getLsbD (by omega), decide_eq_true hx]

theorem execEncode_of_bytes {s : State} (h : dataAreBytes s) :
    execEncode s = finish (encodeBody s).1 (encodeBody s).2 := by
  rw [execEncode, (dataHas256_eq_false_iff s).2 h]
  rfl

theorem execEncode_of_not_bytes {s : State} (h : ¬ dataAreBytes s) :
    execEncode s = .next (failed .badOperand s) := by
  rw [← dataHas256_eq_false_iff, Bool.not_eq_false] at h
  rw [execEncode, if_pos h]
  exact finish_error (by decide) s

/-- Settles O23: the buffer holds the interpolant's values, which at the data's abscissas are the data. -/
theorem encodeWritesTheCodeword : Obligations.EncodeWritesTheCodeword := by
  refine ⟨rfl, fun s hlegal => ⟨execEncode_of_not_bytes, fun hbytes => ?_⟩⟩
  obtain ⟨p, hbody, hdeg, hdata⟩ := encodeBody_legal hlegal
  have hL := codeLen_lt_16 hlegal
  have hvalue (x : Nat) (hx : x < s.cfg.codeLen) :
      (slot (writeSymbols s.sym (codeword p s.cfg.codeLen)) x).val = valueAt p x := by
    rw [slot_writeSymbols_codeword _ _ _ (by omega), if_pos hx, val_eval_reduce _ (by omega)]
  refine ⟨writeSymbols s.sym (codeword p s.cfg.codeLen), p, ?_, hdeg, hvalue, fun x hx => ?_, fun x hx hx16 => ?_⟩
  · rw [exec, execEncode_of_bytes hbytes, hbody, take_writeSymbols_codeword _ _ hL.le]
    exact finish_success _
  · exact Fin.ext ((hvalue x (hx.trans_le (dataLen_le_codeLen _))).trans (hdata x hx))
  · rw [slot_writeSymbols_codeword _ _ _ hx16, if_neg (by omega)]

end Sys2Proof.Machine

/-! The tag and the locator (43_interpolation_encoder.md R190 to R192): parities as counts, the CRC bit by bit. -/
namespace Sys2Proof.Machine

open Sys2Proof.Safety

/-! ## `TAGGEN` and `LOCATE` -/

theorem nibbles_toNat (hi lo : BitVec 4) : (nibbles hi lo).toNat = 16 * hi.toNat + lo.toNat := by
  have hhi := hi.isLt
  have hlo := lo.isLt
  simp only [nibbles, BitVec.toNat_or, BitVec.toNat_shiftLeft, BitVec.toNat_setWidth]
  rw [Nat.mod_eq_of_lt (by omega : hi.toNat < 2 ^ 8), Nat.mod_eq_of_lt (by omega : lo.toNat < 2 ^ 8),
    Nat.mod_eq_of_lt (by omega : hi.toNat <<< 4 < 2 ^ 8), ← Nat.shiftLeft_add_eq_or_of_lt hlo]
  omega

theorem tagOf_toNat (n : Nat) (w : List F) :
    (tagOf n w).toNat = 16 * ((crc16 ((w.drop n).map lowByte)).toNat / 4096) + (locator w).toNat := by
  have hcrc := (crc16 ((w.drop n).map lowByte)).isLt
  rw [tagOf, nibbles_toNat, BitVec.extractLsb'_toNat, Nat.shiftRight_eq_div_pow]
  omega

/-- Settles O24: the tag and the locator value as numbers. -/
theorem taggenAndLocateResults : Obligations.TaggenAndLocateResults := by
  refine ⟨rfl, rfl, fun s => ⟨?_, ?_⟩⟩
  · refine (finish_success _).trans ?_
    rw [← BitVec.ofNat_toNat, tagOf_toNat]
    rfl
  · refine (finish_success _).trans ?_
    rw [← BitVec.ofNat_toNat, locatorValue_toNat]
    rfl

/-! ## Parities -/

/-- An XOR over a list is the parity of a count. -/
theorem foldl_xor_eq_countP {α : Type} (f : α → Bool) (l : List α) (b : Bool) :
    l.foldl (fun acc a => acc ^^ f a) b = (b ^^ decide (l.countP f % 2 = 1)) := by
  induction l generalizing b with
  | nil => simp
  | cons a l ih =>
    rw [List.foldl_cons, ih, List.countP_cons]
    cases f a with
    | false => simp
    | true =>
      have hflip : decide ((l.countP f + 1) % 2 = 1) = !decide (l.countP f % 2 = 1) := by
        rw [← decide_not]
        exact decide_eq_decide.2 (by omega)
      simp [hflip]

theorem countIn_zero (n : Nat) (P : Nat → Bool) : countIn 0 n P = (List.range n).countP P := by
  rw [countIn, List.range_eq_range', Nat.sub_zero]

theorem parity9_eq (v : F) : parity9 v = decide ((countIn 0 9 fun b => v.val.testBit b) % 2 = 1) := by
  rw [parity9, foldl_xor_eq_countP, countIn_zero, Bool.false_xor]

/-- Bit `j` of the locator is an XOR of its own. -/
theorem locator_getLsbD (w : List F) {j : Nat} (hj : j < 4) : (locator w).getLsbD j =
    (List.range w.length).foldl (fun acc x => acc ^^ (x.testBit j && parity9 (symbolAt w x))) false := by
  have hzero : (0 : BitVec 4).getLsbD j = false := by simp
  rw [locator, ← hzero]
  refine (List.foldl_hom (fun v : BitVec 4 => v.getLsbD j) fun acc x => ?_).symm
  cases parity9 (symbolAt w x) with
  | false => simp
  | true => rw [if_pos rfl, BitVec.getLsbD_xor, BitVec.getLsbD_ofNat, decide_eq_true hj, Bool.true_and, Bool.and_true]

/-- Settles O25: the XOR of the locator and that of each parity are counts mod 2. -/
theorem locatorIsTheXorOfOddAbscissas : Obligations.LocatorIsTheXorOfOddAbscissas := by
  intro w j hj
  simp only [locator_getLsbD w hj, foldl_xor_eq_countP, Bool.false_xor, parity9_eq, ← countIn_zero]
  rfl

/-! ## The CRC -/

/-- One bit of the bit-serial division (43_interpolation_encoder.md R191). -/
def crcSerialBit (c : BitVec 16) (bit : Bool) : BitVec 16 :=
  (c <<< 1) ^^^ (if c.getLsbD 15 ^^ bit then 0x1021#16 else 0#16)

/-- The bits of a byte, most significant first. -/
def bitsMsbFirst (b : Byte) : List Bool := (List.range 8).map fun i => b.getLsbD (7 - i)

/-- The rest of a byte may stand at the top of the register, or enter bit by bit. -/
theorem crcBit_xor (c : BitVec 16) (b : Byte) {i : Nat} (hi : i < 8) :
    crcBit (c ^^^ (b.setWidth 16 <<< (8 + i))) =
      crcSerialBit c (b.getLsbD (7 - i)) ^^^ (b.setWidth 16 <<< (8 + (i + 1))) := by
  have htop : (b.setWidth 16 <<< (8 + i)).getLsbD 15 = b.getLsbD (7 - i) := by
    have hsub : 15 - (8 + i) = 7 - i := by omega
    have hin : ¬ 15 < 8 + i := by omega
    simp [hsub, hin]
  have hshift : (c ^^^ (b.setWidth 16 <<< (8 + i))) <<< 1 = (c <<< 1) ^^^ (b.setWidth 16 <<< (8 + (i + 1))) := by
    rw [BitVec.shiftLeft_xor_distrib, ← BitVec.shiftLeft_add, Nat.add_assoc]
  rw [crcBit, crcSerialBit, BitVec.getLsbD_xor, htop, hshift]
  split
  · ac_rfl
  · rw [BitVec.xor_zero]

/-- The two registers after the first `n` bits of a byte. -/
theorem foldl_crcBit (c : BitVec 16) (b : Byte) {n : Nat} (hn : n ≤ 8) :
    (List.range n).foldl (fun c _ => crcBit c) (c ^^^ (b.setWidth 16 <<< 8)) =
      (List.range n).foldl (fun c i => crcSerialBit c (b.getLsbD (7 - i))) c ^^^ (b.setWidth 16 <<< (8 + n)) := by
  induction n with
  | zero => rfl
  | succ n ih =>
    simp only [List.range_succ, List.foldl_append, List.foldl_cons, List.foldl_nil]
    rw [ih (by omega), crcBit_xor _ b hn]

theorem crcByte_eq_serial (c : BitVec 16) (b : Byte) : crcByte c b = (bitsMsbFirst b).foldl crcSerialBit c := by
  have hgone : b.setWidth 16 <<< (8 + 8) = 0#16 := by simp
  rw [crcByte, foldl_crcBit c b (Nat.le_refl 8), hgone, BitVec.xor_zero, bitsMsbFirst, List.foldl_map]

/-- Settles O26: byte by byte, the two registers agree. -/
theorem crcIsBitSerial : Obligations.CrcIsBitSerial := by
  intro bytes
  show crc16 bytes = (bytes.flatMap bitsMsbFirst).foldl crcSerialBit 0xFFFF#16
  rw [crc16, List.foldl_flatMap]
  exact congrArg (fun f => bytes.foldl f 0xFFFF#16) (funext₂ crcByte_eq_serial)

end Sys2Proof.Machine


/-! The codes of each command (the commands' own rules, 43_interpolation_encoder.md R193, R201). -/
namespace Sys2Proof.Machine

open Sys2Proof.Safety

/-- The codes that a command can end with in a legal configuration. -/
def codesOf : Instr → List ErrCode
  | .nop | .fadd | .fsub | .fmul | .peval | .padd | .psub | .pscale | .pmovq | .pclr => [.none]
  | .evalsym _ | .taggen | .locate => [.none]
  | .finv | .fdiv => [.none, .noInverse]
  | .pmul | .interp _ => [.none, .degreeOverflow]
  | .basis _ _ => [.none, .badOperand, .degreeOverflow]
  | .encode | .validate _ => [.none, .badOperand]
  | .decode => [.none, .uncorrectable]
  | .sbegin _ _ | .benc _ _ => [.none, .sequence, .badOperand]
  | .bdec _ _ => [.none, .sequence, .badOperand, .uncorrectable]
  | .send => [.none, .sequence, .fileMisaligned, .uncorrectable, .encodingFailed]

theorem eq_send_of_mem_codesOf {i : Instr} (h : .encodingFailed ∈ codesOf i) : i = .send := by
  cases i with
  | send => rfl
  | _ => simp [codesOf] at h

theorem eq_finv_or_fdiv_of_mem_codesOf {i : Instr} (h : .noInverse ∈ codesOf i) : i = .finv ∨ i = .fdiv := by
  cases i with
  | finv => exact .inl rfl
  | fdiv => exact .inr rfl
  | _ => simp [codesOf] at h

/-! ## The codes of the shared operations -/

theorem interp_error {m : BitVec 16} {w : List F} {e : ErrCode} (h : interp m w = .error e) : e = .degreeOverflow := by
  by_cases hm : popcount m ≤ 14
  · obtain ⟨p, hp, -⟩ := interp_ok hm w
    cases hp.symm.trans h
  · cases (interp_overflow (by omega) w).symm.trans h
    rfl

/-- A basis polynomial has an inverse to scale by, since abscissas are distinct (43_interpolation_encoder.md R193). -/
theorem basis_error {one : Nat} {m : BitVec 16} {y : F} {e : ErrCode} (hone : one ∈ bits m)
    (h : basis one m y = .error e) : e = .degreeOverflow := by
  by_cases hm : popcount m ≤ 14
  · obtain ⟨b, hb, -⟩ := basis_ok y hone hm
    cases hb.symm.trans h
  · cases (basis_overflow y hone (by omega)).symm.trans h
    rfl

theorem encodeBody_fst {s : State} (hlegal : s.cfg.legal = true) : (encodeBody s).1 = .none := by
  obtain ⟨p, hbody, -⟩ := encodeBody_legal hlegal
  rw [hbody]

theorem decodeBody_fst (s : State) : (decodeBody s).1 = .none ∨ (decodeBody s).1 = .uncorrectable :=
  (decodeBody_code (s := s) rfl).imp_right And.left

/-! ## The codes of the commands -/

/-- The outcome is a completion with one of the codes. -/
def EndsIn (codes : List ErrCode) (o : Result) : Prop := ∃ e ∈ codes, ∃ u, o = finish e u

section
variable {codes : List ErrCode} {s : State} {e : ErrCode} {p : Prop} [Decidable p] {a b : Result}

theorem EndsIn.completed (he : e ∈ codes := by simp [codesOf]) : EndsIn codes (finish e s) := ⟨e, he, s, rfl⟩

/-- A failed check, or the rest of the command, which may rest on the check. -/
theorem EndsIn.guarded (hb : ¬ p → EndsIn codes b) (he : e ∈ codes := by simp [codesOf]) :
    EndsIn codes (if p then finish e s else b) := by
  split
  next => exact .completed he
  next h => exact hb h

theorem EndsIn.check (hb : EndsIn codes b) (he : e ∈ codes := by simp [codesOf]) :
    EndsIn codes (if p then finish e s else b) := .guarded (fun _ => hb) he

theorem EndsIn.loadP {r : Except ErrCode Coeffs} (hr : ∀ {c}, r = .error c → c ∈ codes)
    (hnone : .none ∈ codes := by simp [codesOf]) : EndsIn codes (loadP r s) := by
  cases r with
  | error c => exact .completed (hr rfl)
  | ok q => exact .completed hnone

end

theorem exec_endsIn (i : Instr) {s : State} (hlegal : s.cfg.legal = true) : EndsIn (codesOf i) (exec i s) := by
  cases i with
  | nop | fadd | fsub | fmul | peval | padd | psub | pscale | pmovq | pclr | evalsym | taggen | locate =>
    exact .completed
  | finv =>
    rw [exec, execFinv]
    cases inv? s.a <;> exact .completed
  | fdiv =>
    rw [exec, execFdiv]
    cases inv? s.b <;> exact .completed
  | pmul => exact .check .completed
  | basis one xs =>
    refine .guarded fun hone => .loadP fun he => ?_
    rw [basis_error (mem_bits_of_getLsbD (by simpa [maskHas] using hone)) he]
    simp [codesOf]
  | interp xs => exact .loadP fun he => by simp [interp_error he, codesOf]
  | encode => exact .check (.completed (by simp [encodeBody_fst hlegal, codesOf]))
  | validate subset =>
    rw [exec, execValidate]
    refine .check ?_
    cases cand s.cfg (bits subset) s.received <;> exact .completed
  | decode => exact .completed (by simpa [codesOf] using decodeBody_fst s)
  | sbegin mode f2 => exact .check (.check .completed)
  | benc k f2 =>
    have hbody : (encodeBody (padBlock k s)).1 = .none := encodeBody_fst hlegal
    exact .check (.check (.check (.completed (by simp [hbody, codesOf]))))
  | bdec k h =>
    obtain hbody | hbody := decodeBody_fst (padBlock k (countBlock k s)) <;>
      exact .check (.check (.check (.check (.completed (by simp [hbody, codesOf])))))
  | send =>
    refine .check (.completed ?_)
    unfold sessionReport
    split_ifs <;> decide

/-- Settles O49: the two codes stand in the lists of these commands only. -/
theorem unreachableErrorsDoNotOccur : Obligations.UnreachableErrorsDoNotOccur := by
  intro i s t hlegal h
  obtain ⟨e, he, u, hexec⟩ := exec_endsIn i hlegal
  obtain rfl := (finish_eq_next ..).1 (hexec ▸ h)
  rw [complete_err]
  exact ⟨fun hcode => eq_send_of_mem_codesOf (hcode ▸ he), fun hcode => eq_finv_or_fdiv_of_mem_codesOf (hcode ▸ he)⟩

end Sys2Proof.Machine

/-! The endings of `DECODE`, said once: what it writes for a decode that found nothing, and for one that found a candidate
(44_decoder.md R224, R238, R240). -/
namespace Sys2Proof.Machine

open Sys2Proof.Safety

/-! ## The two results of a decode -/

/-- `s` after the report of the accepted decode `d` (44_decoder.md R240). -/
def reporting (d : Decoded) (s : State) : State :=
  { s with sym := if d.corrected then writeSymbols s.sym d.found.c else s.sym
           dstat := if d.corrected then .corrected else .clean
           dinfo := decodeReport d }

theorem exec_decode_of_none {s : State} (h : decodeWord s.cfg s.received s.tag = none) : exec .decode s =
    .next (failed .uncorrectable { s with dstat := .uncorrectable, dinfo := DInfo.noneAccepted }) := by
  rw [exec, execDecode, decodeBody, h]
  exact finish_error (e := .uncorrectable) (by decide) _

theorem exec_decode_of_some {s : State} {d : Decoded} (h : decodeWord s.cfg s.received s.tag = some d) :
    exec .decode s = .next (succeeded (reporting d s)) := by
  rw [exec, execDecode, decodeBody, h]
  exact finish_success _

/-! ## The frame -/

theorem searchPass_length {cfg : Cfg} {t : Byte} {r : List F} {sub : Bool} {pass : BitVec 2} {l : List (List Nat)}
    {a : Accepted} (h : searchPass cfg t r sub pass l = some a) : a.c.length = cfg.codeLen := by
  obtain ⟨S, -, hS⟩ := List.exists_of_findSome?_eq_some h
  obtain ⟨k, hk, rfl⟩ := Option.map_eq_some_iff.1 hS
  exact cand_length (consider_eq_some.1 hk).1

theorem attempt_length {cfg : Cfg} {t : Byte} {r : List F} {sub : Bool} {a : Accepted}
    (h : attempt cfg t r sub = some a) : a.c.length = cfg.codeLen := by
  unfold attempt at h
  split_ifs at h
  · exact searchPass_length h
  · split at h
    next a' hpass1 =>
      cases h
      exact searchPass_length hpass1
    next => exact searchPass_length h
  · exact searchPass_length h

/-- Whatever the configuration, an accepted decode writes a word of the codeword's length. -/
theorem decodeWord_length {cfg : Cfg} {ry : List F} {t : Byte} {d : Decoded} (h : decodeWord cfg ry t = some d) :
    d.found.c.length = cfg.codeLen := by
  obtain ⟨sub, -, hsub⟩ := List.exists_of_findSome?_eq_some h
  obtain ⟨a, ha, rfl⟩ := Option.map_eq_some_iff.1 hsub
  exact attempt_length ha

theorem slot_writeSymbols (b : SymbolBuf) (w : List F) {x : Nat} (hx : x < 16) :
    slot (writeSymbols b w) x = if x < w.length then symbolAt w x else slot b x := by
  rw [slot_of_lt _ hx, slot_of_lt _ hx]
  refine (getElem_writeSymbols b w ⟨x, hx⟩).trans ?_
  by_cases h : x < w.length <;> simp [symbolAt, h]

/-- Settles O28: a decode that found nothing, one that corrects nothing, and one that rewrites the codeword. -/
theorem decodeEndings : Obligations.DecodeEndings := by
  refine ⟨rfl, fun s => ?_⟩
  cases hd : decodeWord s.cfg s.received s.tag with
  | none => exact .inl (exec_decode_of_none hd)
  | some d =>
    have hlen := decodeWord_length hd
    obtain ⟨corrected, found, subs⟩ := d
    cases corrected with
    | false => exact .inr (.inl ⟨_, exec_decode_of_some hd⟩)
    | true =>
      refine .inr (.inr ⟨_, _, exec_decode_of_some hd, fun x hx hx16 => ?_⟩)
      rw [if_pos rfl, slot_writeSymbols _ _ hx16, if_neg (by omega)]

/-! ## What a decode reads -/

theorem received_congr {s1 s2 : State} (hcfg : s1.cfg = s2.cfg)
    (hsym : ∀ x, x < s1.cfg.codeLen → slot s1.sym x = slot s2.sym x) : s1.received = s2.received := by
  rw [← received_withUpper s2.sym s1, ← eq_withUpper fun x hx => (hsym x hx).symm]
  exact congrArg (fun c : Cfg => s2.symbols.take c.codeLen) hcfg

theorem slot_reporting_congr {s1 s2 : State} (d : Decoded) {x : Nat} (h : slot s1.sym x = slot s2.sym x) :
    slot (reporting d s1).sym x = slot (reporting d s2).sym x := by
  by_cases hx : x < 16
  · simp only [reporting]
    split
    next => rw [slot_writeSymbols _ _ hx, slot_writeSymbols _ _ hx, h]
    next => exact h
  · simp [slot, hx]

/-- Settles O40: both states decode the same received word under the same tag. -/
theorem decodeDependsOnTheBlockOnly : Obligations.DecodeDependsOnTheBlockOnly := by
  intro s1 s2 hcfg htag hsym
  have hword : decodeWord s2.cfg s2.received s2.tag = decodeWord s1.cfg s1.received s1.tag := by
    rw [received_congr hcfg hsym, hcfg, htag]
  cases hd : decodeWord s1.cfg s1.received s1.tag with
  | none => exact ⟨_, _, exec_decode_of_none hd, exec_decode_of_none (hword.trans hd), rfl, rfl, rfl, hsym⟩
  | some d =>
    exact ⟨_, _, exec_decode_of_some hd, exec_decode_of_some (hword.trans hd), rfl, rfl, rfl,
      fun x hx => slot_reporting_congr d (hsym x hx)⟩

/-! ## The verdict on a candidate -/

theorem any_take_eq_256_eq_false_iff {w : List F} {n : Nat} :
    (w.take n).any (· == 256) = false ↔ ∀ x, x < n → x < w.length → symbolAt w x ≠ 256 := by
  simp only [List.any_eq_false, List.mem_take_iff_getElem, beq_iff_eq]
  constructor
  · intro h x hxn hxw
    exact fun h256 => h w[x] ⟨x, by omega, rfl⟩ (by simpa [symbolAt, hxw] using h256)
  · rintro h v ⟨x, hx, rfl⟩
    have hxw : x < w.length := by omega
    simpa [symbolAt, hxw] using h x (by omega) hxw

theorem accepts_iff {cfg : Cfg} {t : Byte} {sub : Bool} {k : Candidate} : accepts cfg t sub k = true ↔
    ¬ (cfg.trust = true ∧ 0 < k.tm) ∧ k.m < cfg.redundantLen ∧
      ((k.m = 0 ∧ sub = false) ∨
        ((∀ x, x < cfg.dataLen → x < k.c.length → symbolAt k.c x ≠ 256) ∧
          (cfg.trust = true → tagOf cfg.dataLen k.c = t))) := by
  rw [← any_take_eq_256_eq_false_iff]
  unfold accepts
  generalize (k.c.take cfg.dataLen).any (· == 256) = has256
  split_ifs with htm hm hexact h256 htag
  · simp_all
  · simp [Nat.not_lt.2 hm]
  · simp_all; omega
  · simp_all
  · simp_all
  · simp_all

/-- Settles O35: the candidate exists and passes the checks. -/
theorem acceptanceOfACandidate : Obligations.AcceptanceOfACandidate := fun _ _ _ _ _ _ =>
  consider_eq_some.trans (and_congr_right fun _ => accepts_iff)

end Sys2Proof.Machine

/-! The order of the search: which candidates an attempt considers, and the first accepted one of a decode
(44_decoder.md R225 to R230, R235 to R238). -/
namespace Sys2Proof.Machine

open Sys2Proof.Safety

/-! ## The candidates of an attempt -/

theorem choose_length (U : List Nat) (k : Nat) : (choose U k).length = U.length.choose k := by
  induction U generalizing k with
  | nil => cases k <;> simp
  | cons x xs ih =>
    cases k with
    | zero => simp
    | succ k =>
      rw [choose_cons_succ, List.length_append, List.length_map, ih, ih, List.length_cons, Nat.choose_succ_succ]

/-- The subsets of a filtered list are the subsets whose elements all pass the filter. -/
theorem choose_filter (p : Nat → Bool) (U : List Nat) (k : Nat) :
    choose (U.filter p) k = (choose U k).filter (·.all p) := by
  induction U generalizing k with
  | nil => cases k <;> rfl
  | cons x xs ih =>
    cases k with
    | zero => rw [choose_zero, choose_zero, List.filter_singleton, List.all_nil, cond_true]
    | succ k =>
      rw [choose_cons_succ, List.filter_append, List.filter_map, ← ih (k + 1)]
      cases hx : p x with
      | false => simp [hx, Function.comp_def]
      | true => simp [hx, Function.comp_def, choose_cons_succ, ih k]

/-- The subsets without `v`, then those with it, are all subsets (44_decoder.md R228, R229). -/
theorem choose_without_append_with_perm (U : List Nat) (k v : Nat) :
    (choose (U.filter (· != v)) k ++ (choose U k).filter (v ∈ ·)).Perm (choose U k) := by
  have hwithout : choose (U.filter (· != v)) k = (choose U k).filter fun S => !decide (v ∈ S) := by
    rw [choose_filter]
    refine List.filter_congr fun S _ => Bool.eq_iff_iff.2 ?_
    simp only [List.all_eq_true, bne_iff_ne, Bool.not_eq_true', decide_eq_false_iff_not]
    exact ⟨fun h hv => h v hv rfl, fun h x hx hxv => h (hxv ▸ hx)⟩
  rw [hwithout]
  exact List.perm_append_comm.trans (List.filter_append_perm _ _)

/-- Settles O37: the lists' lengths are binomial coefficients, and the two passes split the subsets by the located
abscissa. -/
theorem passesCoverTheCandidatesOnce : Obligations.PassesCoverTheCandidatesOnce := by
  intro cfg hlegal
  obtain ⟨-, -, -, -, hE⟩ := legal_iff.1 hlegal
  refine ⟨by rw [choose_length, List.length_range], fun htrust => ⟨fun lv _ => ?_, ?_⟩⟩
  · simp only [avoiding, containing, allTrusted, withTrusted, ← List.map_append]
    simpa using (choose_without_append_with_perm (dataSide cfg) _ lv).map (· ++ trustedSide cfg)
  · have hle : cfg.redundantLen ≤ cfg.dataLen := by simpa [htrust] using hE
    rw [allTrusted, withTrusted, List.length_map, choose_length, dataSide, List.length_range, Nat.choose_symm hle]

theorem map_fst_trustedOrder_perm (cfg : Cfg) (lv : Nat) : ((trustedOrder cfg lv).map Prod.fst).Perm
    (choose (List.range cfg.dataLen) (cfg.dataLen - cfg.redundantLen)) := by
  unfold trustedOrder
  split
  · simpa [Function.comp_def] using choose_without_append_with_perm (List.range cfg.dataLen) _ lv
  · simp [Function.comp_def]

/-- The candidate subsets of a configuration, for every word (44_decoder.md R225, R226). -/
def candidateSubsets (cfg : Cfg) : List (List Nat) :=
  if cfg.trust then allTrusted cfg else choose (List.range cfg.codeLen) cfg.dataLen

/-- Whatever the located abscissa, an attempt considers each candidate subset once. -/
theorem map_subset_attemptOrder_perm (s : State) (subs : List Nat) :
    ((attemptOrder s subs).map Trial.subset).Perm (candidateSubsets s.cfg) := by
  unfold attemptOrder candidateSubsets
  split
  · simpa [Function.comp_def, allTrusted, withTrusted, dataSide, trustedSide] using
      (map_fst_trustedOrder_perm s.cfg _).map (· ++ trustedSide s.cfg)
  · simp [Function.comp_def]

theorem exists_trial_iff {s : State} {subs S : List Nat} :
    (∃ c ∈ attemptOrder s subs, c.subset = S) ↔ S ∈ candidateSubsets s.cfg := by
  rw [← (map_subset_attemptOrder_perm s subs).mem_iff, List.mem_map]

theorem subset_mem_candidateSubsets {s : State} {subs : List Nat} {c : Trial} (h : c ∈ attemptOrder s subs) :
    c.subset ∈ candidateSubsets s.cfg := exists_trial_iff.1 ⟨c, h, rfl⟩

/-! ## The first accepted candidate -/

/-- The decode that the accepted trial `c` with the candidate `k` gives (44_decoder.md R238). -/
def decodedBy (c : Trial) (k : Candidate) : Decoded :=
  ⟨!(decide (k.m = 0) && c.subs.isEmpty), ⟨k.c, k.m, c.subset, c.pass⟩, c.subs.length⟩

/-- The report of an accepted candidate, field by field (44_decoder.md R238, R240). -/
theorem reporting_decodedBy (s : State) (c : Trial) (k : Candidate) : reporting (decodedBy c k) s = { s with
    dstat := if k.m = 0 ∧ c.subs = [] then .clean else .corrected
    dinfo := ⟨maskOf c.subset, BitVec.ofNat 4 k.m, BitVec.ofNat 3 c.subs.length, c.pass⟩
    sym := if k.m = 0 ∧ c.subs = [] then s.sym else writeSymbols s.sym k.c } := by
  have hclean : (decide (k.m = 0) && c.subs.isEmpty) = decide (k.m = 0 ∧ c.subs = []) := by
    rw [Bool.eq_iff_iff]
    simp
  rw [reporting, decodedBy, hclean]
  by_cases h : k.m = 0 ∧ c.subs = []
  · simp only [if_pos h, decide_eq_true h]
    rfl
  · simp only [if_neg h, decide_eq_false h]
    rfl

theorem findSome?_of_first {α β : Type} {f : α → Option β} {before after : List α} {a : α} {b : β}
    (hbefore : ∀ x ∈ before, f x = none) (ha : f a = some b) : (before ++ a :: after).findSome? f = some b :=
  List.findSome?_eq_some_iff.2 ⟨before, a, after, rfl, ha, hbefore⟩

theorem exec_decode_of_first {s : State} (hlegal : s.cfg.legal = true) {before after : List Trial} {c : Trial}
    {k : Candidate} (horder : decodeOrder s = before ++ c :: after) (hbefore : ∀ b ∈ before, verdict s b = none)
    (hc : verdict s c = some k) : exec .decode s = .next (succeeded (reporting (decodedBy c k) s)) := by
  refine exec_decode_of_some ?_
  rw [decodeWord_eq_findSome? hlegal, horder]
  exact findSome?_of_first (fun b hb => by simp [foundBy, hbefore b hb]) (by simp [foundBy, hc, decodedBy])

theorem exec_decode_of_all_rejected {s : State} (hlegal : s.cfg.legal = true)
    (h : ∀ c ∈ decodeOrder s, verdict s c = none) : exec .decode s =
      .next (failed .uncorrectable { s with dstat := .uncorrectable, dinfo := DInfo.noneAccepted }) := by
  refine exec_decode_of_none ?_
  rw [decodeWord_eq_findSome? hlegal, List.findSome?_eq_none_iff]
  exact fun c hc => by simp [foundBy, h c hc]

/-- Settles O60: a decode is one search through the candidates in their order. -/
theorem firstAcceptedCandidateWins : Obligations.FirstAcceptedCandidateWins := by
  refine fun s hlegal => ⟨fun before c after k horder hbefore hc => ?_, exec_decode_of_all_rejected hlegal⟩
  rw [exec_decode_of_first hlegal horder hbefore hc, reporting_decodedBy]

/-- A decode takes a candidate of an initial part of its order if one is accepted there. -/
theorem exec_decode_of_initial {s : State} (hlegal : s.cfg.legal = true) {l rest : List Trial}
    (horder : decodeOrder s = l ++ rest) (h : ∃ c ∈ l, ∃ k, verdict s c = some k) :
    ∃ c ∈ l, ∃ k, verdict s c = some k ∧ exec .decode s = .next (succeeded (reporting (decodedBy c k) s)) := by
  obtain ⟨k, hk⟩ : ∃ k, l.findSome? (verdict s) = some k := by
    rw [← Option.isSome_iff_exists, List.findSome?_isSome_iff]
    simpa only [Option.isSome_iff_exists] using h
  obtain ⟨before, c, after, rfl, hc, hbefore⟩ := List.findSome?_eq_some_iff.1 hk
  exact ⟨c, by simp, k, hc, exec_decode_of_first hlegal (by simpa using horder) hbefore hc⟩

/-- A decode that accepts a candidate for the unmodified word takes one for it (44_decoder.md R238). -/
theorem exec_decode_of_first_attempt {s : State} (hlegal : s.cfg.legal = true)
    (h : ∃ c ∈ attemptOrder s [], ∃ k, verdict s c = some k) :
    ∃ c ∈ attemptOrder s [], ∃ k, verdict s c = some k ∧
      exec .decode s = .next (succeeded (reporting (decodedBy c k) s)) :=
  exec_decode_of_initial hlegal List.flatMap_cons h

/-- How a decode ends in a legal configuration: it rejects every candidate, or takes one. -/
theorem exec_decode_cases {s t : State} (hlegal : s.cfg.legal = true) (h : exec .decode s = .next t) :
    ((∀ c ∈ decodeOrder s, verdict s c = none) ∧
      t = failed .uncorrectable { s with dstat := .uncorrectable, dinfo := DInfo.noneAccepted }) ∨
    ∃ c ∈ decodeOrder s, ∃ k, verdict s c = some k ∧ t = succeeded (reporting (decodedBy c k) s) := by
  by_cases haccepted : ∃ c ∈ decodeOrder s, ∃ k, verdict s c = some k
  · obtain ⟨c, hc, k, hk, hexec⟩ := exec_decode_of_initial hlegal (List.append_nil _).symm haccepted
    exact .inr ⟨c, hc, k, hk, Host.Outcome.next.inj (h.symm.trans hexec)⟩
  · have hall : ∀ c ∈ decodeOrder s, verdict s c = none := fun c hc =>
      Option.eq_none_iff_forall_ne_some.2 fun k hk => haccepted ⟨c, hc, k, hk⟩
    exact .inl ⟨hall, Host.Outcome.next.inj (h.symm.trans (exec_decode_of_all_rejected hlegal hall))⟩

/-! ## With the trust policy off -/

theorem substitute_nil (ry : List F) : substitute ry [] = ry :=
  List.ext_getElem (by simp [substitute]) fun x _ hx => by simp [substitute, symbolAt, hx]

/-- Settles O38: the first attempt is one pass through the subsets, in any configuration. -/
theorem trustOffTakesTheFirstCandidate : Obligations.TrustOffTakesTheFirstCandidate := by
  intro s before S after k htrust horder hbefore hS
  have hattempt : attempt s.cfg s.tag s.received false = some ⟨k.c, k.m, S, 0⟩ := by
    rw [attempt, htrust, horder]
    exact findSome?_of_first (fun S' hS' => by simp [hbefore S' hS']) (by simp [hS])
  have hword : decodeWord s.cfg s.received s.tag = some (decodedBy ⟨[], S, 0⟩ k) := by
    have hturn : decodeWith s.cfg s.received s.tag [] = some (decodedBy ⟨[], S, 0⟩ k) := by
      rw [decodeWith, substitute_nil, List.isEmpty_nil, Bool.not_true, hattempt]
      rfl
    rw [decodeWord, List.findSome?_cons, hturn]
  rw [exec_decode_of_some hword, reporting_decodedBy]
  simp

/-! ## All candidates rejected -/

/-- Settles O39: the candidates of all attempts are those of the statement, in another order. -/
theorem uncorrectableIffAllRejected : Obligations.UncorrectableIffAllRejected := by
  intro s hlegal
  have hall : (∃ t, exec .decode s = .next t ∧ t.err = .uncorrectable) ↔
      ∀ c ∈ decodeOrder s, verdict s c = none := by
    constructor
    · rintro ⟨t, ht, herr⟩
      obtain ⟨hnone, -⟩ | ⟨c, -, k, -, rfl⟩ := exec_decode_cases hlegal ht
      · exact hnone
      · cases herr
    · exact fun h => ⟨_, exec_decode_of_all_rejected hlegal h, rfl⟩
  have hattempt (subs : List Nat) : (∀ c ∈ attemptOrder s subs, verdict s c = none) ↔
      ∀ S ∈ candidateSubsets s.cfg,
        consider s.cfg s.tag (substitute s.received subs) (!subs.isEmpty) S = none := by
    rw [substitute_received hlegal]
    constructor
    · intro h S hS
      obtain ⟨c, hc, rfl⟩ := (exists_trial_iff (subs := subs)).2 hS
      simpa [verdict, subs_of_mem_attemptOrder hc] using h c hc
    · intro h c hc
      simpa [verdict, subs_of_mem_attemptOrder hc] using h c.subset (subset_mem_candidateSubsets hc)
  rw [hall, decodeOrder, List.forall_mem_flatMap]
  exact forall₂_congr fun subs _ => hattempt subs

end Sys2Proof.Machine

/-! Candidates as polynomials (44_decoder.md R223): words as functions of the abscissa, the number of abscissas where two
words differ, and the one candidate through a subset. -/
namespace Sys2Proof.Machine

open Polynomial Sys2Proof.Safety

/-! ## Counting abscissas -/

theorem mem_range'_sub {lo hi x : Nat} : x ∈ List.range' lo (hi - lo) ↔ lo ≤ x ∧ x < hi := by
  rw [List.mem_range'_1]
  omega

theorem countIn_congr {lo hi : Nat} {P Q : Nat → Bool} (h : ∀ x, lo ≤ x → x < hi → P x = Q x) :
    countIn lo hi P = countIn lo hi Q :=
  List.countP_congr fun x hx => by rw [h x (mem_range'_sub.1 hx).1 (mem_range'_sub.1 hx).2]

theorem countIn_eq_zero_iff {lo hi : Nat} {P : Nat → Bool} :
    countIn lo hi P = 0 ↔ ∀ x, lo ≤ x → x < hi → P x = false := by
  simp only [countIn, List.countP_eq_zero, mem_range'_sub, Bool.not_eq_true, and_imp]

theorem countIn_le (lo hi : Nat) (P : Nat → Bool) : countIn lo hi P ≤ hi - lo := by
  simpa [countIn] using List.countP_le_length (p := P) (l := List.range' lo (hi - lo))

theorem countP_le_add {α : Type} {p q r : α → Bool} {l : List α}
    (h : ∀ a ∈ l, p a = true → q a = true ∨ r a = true) : l.countP p ≤ l.countP q + l.countP r := by
  have hor : l.countP p ≤ l.countP fun a => q a || r a :=
    List.countP_mono_left fun a ha hp => by simpa using h a ha hp
  have hsum : ∀ l : List α, (l.countP fun a => q a || r a) ≤ l.countP q + l.countP r := by
    intro l
    induction l with
    | nil => simp
    | cons a l ih => cases hq : q a <;> cases hr : r a <;> simp [hq, hr] <;> omega
  exact hor.trans (hsum l)

/-- At most as many abscissas of a range as a list names. -/
theorem countIn_mem_le (lo hi : Nat) (S : List Nat) : countIn lo hi (fun x => decide (x ∈ S)) ≤ S.length := by
  rw [countIn, List.countP_eq_length_filter]
  refine (List.subperm_of_subset ((List.nodup_range' (step := 1)).filter _) fun x hx => ?_).length_le
  simpa using List.of_mem_filter hx

/-! ## Words as functions of the abscissa -/

/-- The value of a polynomial at an abscissa, as a symbol. -/
def values (p : Coeffs) (x : Nat) : F := eval p (reduce x)

/-- The number of abscissas below `n` where two words differ. -/
def distance (n : Nat) (v w : Nat → F) : Nat := countIn 0 n fun x => decide (v x ≠ w x)

theorem distance_eq_zero_iff {n : Nat} {v w : Nat → F} : distance n v w = 0 ↔ ∀ x, x < n → v x = w x := by
  simp [distance, countIn_eq_zero_iff]

theorem distance_congr {n : Nat} {v v' w w' : Nat → F} (hv : ∀ x, x < n → v x = v' x)
    (hw : ∀ x, x < n → w x = w' x) : distance n v w = distance n v' w' := countIn_congr fun x _ hx => by rw [hv x hx, hw x hx]

theorem distance_comm (n : Nat) (v w : Nat → F) : distance n v w = distance n w v :=
  countIn_congr fun _ _ _ => decide_eq_decide.2 ne_comm

theorem distance_triangle (n : Nat) (u v w : Nat → F) : distance n u w ≤ distance n u v + distance n v w := by
  refine countP_le_add fun x _ hx => ?_
  by_cases huv : u x = v x
  · exact .inr (by simpa [huv] using hx)
  · exact .inl (by simpa using huv)

theorem val_values (p : Coeffs) {x : Nat} (hx : x < 257) : (values p x).val = valueAt p x := val_eval_reduce p hx

theorem values_eq_iff {p : Coeffs} {v : F} {x : Nat} (hx : x < 257) : values p x = v ↔ valueAt p x = v.val := by
  rw [Fin.ext_iff, val_values p hx]

theorem zmodOf_values (p : Coeffs) (x : Nat) : zmodOf (values p x) = (toPoly p).eval (x : ZMod 257) := by
  rw [values, zmodOf_eval, zmodOf_reduce]

theorem symbolAt_codeword (p : Coeffs) {n x : Nat} (hx : x < n) : symbolAt (codeword p n) x = values p x := by
  simp [symbolAt, codeword, hx, values]

theorem symbolAt_wordWith (s : State) (subs : List Nat) {x : Nat} (hx : x < s.cfg.codeLen) :
    symbolAt (wordWith s subs) x = if x ∈ subs then 256 else slot s.sym x := by
  simp [symbolAt, wordWith, hx]

theorem symbolAt_wordWith_nil (s : State) {x : Nat} (hx : x < s.cfg.codeLen) :
    symbolAt (wordWith s []) x = slot s.sym x := by simp [symbolAt_wordWith s [] hx]

/-! ## Uniqueness of a codeword -/

theorem values_unique {p q : Coeffs} {n : Nat} (hp : degreeBelow p n) (hq : degreeBelow q n) {S : List Nat}
    (hS : S.Nodup) (hlt : ∀ x ∈ S, x < 257) (hlen : n ≤ S.length)
    (h : ∀ x ∈ S, values p x = values q x) : p = q := by
  rw [degreeBelow_iff] at hp hq
  have hn : (n : WithBot Nat) ≤ S.length := by exact_mod_cast hlen
  refine toPoly_injective (poly_eq_of_eval_eq hS hlt (hp.trans_le hn) (hq.trans_le hn) fun x hx => ?_)
  rw [← zmodOf_values, ← zmodOf_values, h x hx]

/-- Two codewords that differ at no more than the redundant number of abscissas are equal
(43_interpolation_encoder.md R199). -/
theorem eq_of_distance_le {p q : Coeffs} {n L : Nat} (hp : degreeBelow p n) (hq : degreeBelow q n) (hL : L ≤ 257)
    (h : distance L (values p) (values q) + n ≤ L) : p = q := by
  have hcount := List.length_eq_countP_add_countP (fun x => decide (values p x = values q x)) (l := List.range L)
  have hdiffer : ((List.range L).countP fun x => decide ¬ decide (values p x = values q x) = true) =
      distance L (values p) (values q) := by simp [distance, countIn_zero]
  rw [List.length_range, hdiffer, List.countP_eq_length_filter] at hcount
  refine values_unique hp hq ((List.nodup_range (n := L)).filter fun x => decide (values p x = values q x))
    (fun x hx => ?_) (by omega) fun x hx => ?_
  · exact (List.mem_range.1 (List.mem_of_mem_filter hx)).trans_le hL
  · simpa using List.of_mem_filter hx

/-! ## The candidate through a subset -/

/-- `k` is the candidate through the symbols of `r` at the abscissas of `S`. -/
structure Fits (cfg : Cfg) (S : List Nat) (r : List F) (k : Candidate) : Prop where
  degree : degreeBelow k.p cfg.dataLen
  word : k.c = codeword k.p cfg.codeLen
  chosen : ∀ x ∈ S, values k.p x = symbolAt r x
  mismatches : k.m = distance cfg.codeLen (values k.p) (symbolAt r)
  trusted : k.tm = countIn cfg.dataLen cfg.codeLen fun x => decide (values k.p x ≠ symbolAt r x)

theorem mismatchAt_codeword {p : Coeffs} {S : List Nat} {r : List F} (hS : ∀ x ∈ S, values p x = symbolAt r x)
    {n x : Nat} (hx : x < n) : mismatchAt S (codeword p n) r x = decide (values p x ≠ symbolAt r x) := by
  rw [mismatchAt, symbolAt_codeword p hx]
  by_cases hxS : x ∈ S
  · simp [hS x hxS]
  · simp [hxS, bne, beq_eq_decide]

/-- The candidate of a subset exists and fits it (44_decoder.md R223). -/
theorem exists_cand_fits {cfg : Cfg} (hlegal : cfg.legal = true) {S : List Nat}
    (hS : S ∈ choose (List.range cfg.codeLen) cfg.dataLen) (r : List F) :
    ∃ k, cand cfg S r = some k ∧ Fits cfg S r k := by
  obtain ⟨hsub, hlen⟩ := mem_choose.1 hS
  have hL := codeLen_lt_16 hlegal
  have hlt : ∀ x ∈ S, x < 16 := fun x hx => (List.mem_range.1 (hsub.subset hx)).trans hL
  have hasc : S.Pairwise (· < ·) := List.pairwise_lt_range.sublist hsub
  have hcount : popcount (maskOf S) = cfg.dataLen := (popcount_maskOf hasc hlt).trans hlen
  obtain ⟨-, hN, -⟩ := legal_iff.1 hlegal
  obtain ⟨p, hp, hdeg, hzero, hval⟩ := interp_ok (m := maskOf S) (by omega) r
  have hchosen : ∀ x ∈ S, values p x = symbolAt r x := fun x hx => by
    rw [← zmodOf_inj, zmodOf_values]
    exact hval x ((bits_maskOf hasc hlt).symm ▸ hx)
  refine ⟨⟨p, codeword p cfg.codeLen, _, _⟩, by rw [cand, hp], ?_, rfl, hchosen, ?_, ?_⟩
  · exact degreeBelow_iff.2 (hcount ▸ degree_lt_of_interp hdeg hzero)
  · rw [distance, countIn_zero]
    exact List.countP_congr fun x hx => by rw [mismatchAt_codeword hchosen (List.mem_range.1 hx)]
  · have hE : cfg.codeLen - cfg.dataLen = cfg.redundantLen := Nat.add_sub_cancel_left ..
    rw [countIn, hE]
    exact List.countP_congr fun x hx => by
      rw [mismatchAt_codeword (n := cfg.codeLen) hchosen (List.mem_range'_1.1 hx).2]

theorem cand_fits {cfg : Cfg} (hlegal : cfg.legal = true) {S : List Nat}
    (hS : S ∈ choose (List.range cfg.codeLen) cfg.dataLen) {r : List F} {k : Candidate} (h : cand cfg S r = some k) :
    Fits cfg S r k := by
  obtain ⟨k', hk', hfits⟩ := exists_cand_fits hlegal hS r
  obtain rfl := Option.some.inj (hk'.symm.trans h)
  exact hfits

theorem Fits.counts_le {cfg : Cfg} {S : List Nat} {r : List F} {k : Candidate} (hfits : Fits cfg S r k) :
    k.m ≤ cfg.codeLen ∧ k.tm ≤ cfg.codeLen := by
  rw [hfits.mismatches, hfits.trusted]
  exact ⟨countIn_le 0 _ _, (countIn_le _ _ _).trans (Nat.sub_le ..)⟩

/-! ## `VALIDATE` -/

theorem subsetLegal_iff {cfg : Cfg} {m : BitVec 16} : subsetLegal cfg m = true ↔
    (∀ x, x < 16 → m.getLsbD x = true → x < cfg.codeLen) ∧ countBits m = cfg.dataLen := by
  simp [subsetLegal, countBits_eq_popcount, mem_bits, maskHas]

theorem bits_mem_choose {cfg : Cfg} {m : BitVec 16} (h : subsetLegal cfg m = true) :
    bits m ∈ choose (List.range cfg.codeLen) cfg.dataLen := by
  obtain ⟨hlt, hcount⟩ := subsetLegal_iff.1 h
  have hmem : ∀ x ∈ bits m, x ∈ List.range cfg.codeLen := fun x hx =>
    List.mem_range.2 (hlt x (mem_bits.1 hx).1 (mem_bits.1 hx).2)
  exact mem_choose.2 ⟨List.sublist_of_subperm_of_pairwise (List.subperm_of_subset (bits_nodup m) hmem)
    (bits_ascending m) List.pairwise_lt_range, by rw [← hcount, countBits_eq_popcount, popcount]⟩

/-- Two counts below 16 side by side in `R` (44_decoder.md R222). -/
theorem nibbles_setWidth_eq {hi lo : Nat} (hhi : hi < 16) (hlo : lo < 16) :
    (nibbles (BitVec.ofNat 4 hi) (BitVec.ofNat 4 lo)).setWidth 16 = BitVec.ofNat 16 (16 * hi + lo) := by
  rw [← BitVec.toNat_inj, BitVec.toNat_setWidth, nibbles_toNat, BitVec.toNat_ofNat, BitVec.toNat_ofNat,
    BitVec.toNat_ofNat, Nat.mod_eq_of_lt hhi, Nat.mod_eq_of_lt hlo]

theorem exec_validate_of_illegal {s : State} {m : BitVec 16} (h : ¬ subsetLegal s.cfg m = true) :
    exec (.validate m) s = .next (failed .badOperand s) := by
  rw [exec, execValidate, if_pos (by simpa using h)]
  exact finish_error (by decide) s

theorem exec_validate_of_legal {s : State} {m : BitVec 16} (h : subsetLegal s.cfg m = true) {k : Candidate}
    (hk : cand s.cfg (bits m) s.received = some k) : exec (.validate m) s = .next (succeeded { s with
      p := k.p, r := (nibbles (BitVec.ofNat 4 k.tm) (BitVec.ofNat 4 k.m)).setWidth 16 }) := by
  rw [exec, execValidate, h, hk]
  exact finish_success _

/-- Settles O27: the candidate through the selected symbols exists, and differs from them nowhere. -/
theorem validateReportsTheMismatches : Obligations.ValidateReportsTheMismatches := by
  refine fun s m hlegal => ⟨encode_eq_ofNat (i := .validate m) rfl, fun hbad => ?_, fun hlt hcount => ?_⟩
  · refine exec_validate_of_illegal fun h => ?_
    obtain ⟨hlt, hcount⟩ := subsetLegal_iff.1 h
    obtain ⟨x, hx, hx16, hm⟩ | hne := hbad
    · exact absurd (hlt x hx16 hm) (by omega)
    · exact hne hcount
  · have hsubset := subsetLegal_iff.2 ⟨hlt, hcount⟩
    obtain ⟨k, hk, hfits⟩ := exists_cand_fits hlegal (bits_mem_choose hsubset) s.received
    have hL := codeLen_lt_16 hlegal
    have hvalue {x : Nat} (hx : x < s.cfg.codeLen) :
        values k.p x = symbolAt s.received x ↔ valueAt k.p x = (slot s.sym x).val := by
      rw [symbolAt_received hx, values_eq_iff (by omega)]
    have hcounts (lo : Nat) : (countIn lo s.cfg.codeLen fun x => decide (values k.p x ≠ symbolAt s.received x)) =
        countIn lo s.cfg.codeLen fun x => decide (valueAt k.p x ≠ (slot s.sym x).val) :=
      countIn_congr fun x _ hx => decide_eq_decide.2 (not_congr (hvalue hx))
    obtain ⟨hm, htm⟩ := hfits.counts_le
    refine ⟨k.p, ?_, hfits.degree, fun x hx16 hx => (hvalue (hlt x hx16 hx)).1 ?_⟩
    · rw [exec_validate_of_legal hsubset hk, nibbles_setWidth_eq (by omega) (by omega), hfits.trusted,
        hfits.mismatches, distance, hcounts, hcounts]
    · exact hfits.chosen x (mem_bits_of_getLsbD hx)

end Sys2Proof.Machine

/-! What a decode does to a codeword with few errors, and what it leaves behind (44_decoder.md R223, R231 to R241). -/
namespace Sys2Proof.Machine

open Sys2Proof.Safety

/-! ## The candidate subsets -/

/-- A subset of an attempt has `N` abscissas of the codeword, with the whole trusted side if the trust policy is on
(44_decoder.md R225, R226). -/
theorem mem_candidateSubsets {cfg : Cfg} (hlegal : cfg.legal = true) {S : List Nat} (hS : S ∈ candidateSubsets cfg) :
    S ∈ choose (List.range cfg.codeLen) cfg.dataLen ∧
      (cfg.trust = true → ∀ x, cfg.dataLen ≤ x → x < cfg.codeLen → x ∈ S) := by
  unfold candidateSubsets at hS
  split at hS
  next htrust =>
    obtain ⟨-, -, -, -, hE⟩ := legal_iff.1 hlegal
    have hle : cfg.redundantLen ≤ cfg.dataLen := by simpa [htrust] using hE
    obtain ⟨D, hD, rfl⟩ := List.mem_map.1 hS
    obtain ⟨hsub, hlen⟩ := mem_choose.1 hD
    have hrange : List.range cfg.codeLen = dataSide cfg ++ trustedSide cfg := by
      rw [dataSide, trustedSide, List.range_eq_range', List.range_eq_range', Cfg.codeLen, ← List.range'_append]
      simp
    refine ⟨mem_choose.2 ⟨hrange ▸ hsub.append (List.Sublist.refl _), ?_⟩, fun _ x hx hxL => ?_⟩
    · rw [List.length_append, hlen, trustedSide, List.length_range']
      omega
    · exact List.mem_append_right _ (List.mem_range'_1.2 ⟨hx, hxL⟩)
  next htrust => exact ⟨hS, fun h => absurd h htrust⟩

/-- A list with few bad elements has a good sublist of a given length. -/
theorem exists_good_choice {U : List Nat} {k : Nat} {bad : Nat → Bool} (h : k + U.countP bad ≤ U.length) :
    ∃ S ∈ choose U k, ∀ x ∈ S, bad x = false := by
  have hcount := List.length_eq_countP_add_countP bad (l := U)
  rw [List.countP_eq_length_filter (p := fun x => decide ¬ bad x = true)] at hcount
  refine ⟨(U.filter fun x => decide ¬ bad x = true).take k,
    mem_choose.2 ⟨(List.take_sublist k _).trans List.filter_sublist, ?_⟩, fun x hx => ?_⟩
  · rw [List.length_take]
    omega
  · simpa using List.of_mem_filter (List.mem_of_mem_take hx)

/-- Fewer than `E` bad abscissas, none on the side that every subset contains, leave a subset that avoids them
(44_decoder.md R241 item 3). -/
theorem exists_candidateSubset_avoiding {cfg : Cfg} (hlegal : cfg.legal = true) {bad : Nat → Bool}
    (hfew : countIn 0 cfg.codeLen bad < cfg.redundantLen)
    (htrusted : cfg.trust = true → ∀ x, cfg.dataLen ≤ x → x < cfg.codeLen → bad x = false) :
    ∃ S ∈ candidateSubsets cfg, ∀ x ∈ S, bad x = false := by
  rw [countIn_zero] at hfew
  unfold candidateSubsets
  split
  next htrust =>
    obtain ⟨-, -, -, -, hE⟩ := legal_iff.1 hlegal
    have hle : cfg.redundantLen ≤ cfg.dataLen := by simpa [htrust] using hE
    have hdata : (List.range cfg.dataLen).countP bad ≤ (List.range cfg.codeLen).countP bad :=
      (List.range_sublist.2 (dataLen_le_codeLen cfg)).countP_le
    obtain ⟨D, hD, hgood⟩ := exists_good_choice (U := dataSide cfg) (k := cfg.dataLen - cfg.redundantLen)
      (bad := bad) (by rw [dataSide, List.length_range]; omega)
    refine ⟨_, List.mem_map.2 ⟨D, hD, rfl⟩, fun x hx => ?_⟩
    obtain hx | hx := List.mem_append.1 hx
    · exact hgood x hx
    · obtain ⟨hN, hL⟩ := List.mem_range'_1.1 hx
      exact htrusted htrust x hN hL
  next =>
    refine exists_good_choice ?_
    rw [List.length_range, Cfg.codeLen] at *
    omega

/-! ## The accepted candidates -/

/-- An accepted candidate of a decode passes through its word at its subset. -/
theorem verdict_fits {s : State} (hlegal : s.cfg.legal = true) {subs : List Nat} {c : Trial}
    (hc : c ∈ attemptOrder s subs) {k : Candidate} (hk : verdict s c = some k) :
    Fits s.cfg c.subset (wordWith s c.subs) k :=
  cand_fits hlegal (mem_candidateSubsets hlegal (subset_mem_candidateSubsets hc)).1 (consider_eq_some.1 hk).1

theorem verdict_lt {s : State} {c : Trial} {k : Candidate} (hk : verdict s c = some k) : k.m < s.cfg.redundantLen :=
  accepts_lt (consider_eq_some.1 hk).2

theorem mem_attemptOrder_subs {s : State} {c : Trial} (hc : c ∈ decodeOrder s) : c ∈ attemptOrder s c.subs := by
  obtain ⟨subs, -, hc⟩ := List.mem_flatMap.1 hc
  rwa [subs_of_mem_attemptOrder hc]

/-- The first attempt reads the received word (44_decoder.md R238). -/
theorem symbolAt_first_attempt {s : State} {c : Trial} (hc : c ∈ attemptOrder s []) {x : Nat}
    (hx : x < s.cfg.codeLen) : symbolAt (wordWith s c.subs) x = slot s.sym x := by
  rw [subs_of_mem_attemptOrder hc, symbolAt_wordWith_nil s hx]

/-- Only symbols received as 0 are read as 256 (44_decoder.md R236). -/
theorem slot_eq_zero_of_mem_subs {s : State} {c : Trial} (hc : c ∈ decodeOrder s) {x : Nat} (hx : x ∈ c.subs) :
    slot s.sym x = 0 := by
  obtain ⟨subs, hsubs, hc⟩ := List.mem_flatMap.1 hc
  rw [subs_of_mem_attemptOrder hc] at hx
  obtain rfl | hdfs := List.mem_cons.1 hsubs
  · cases hx
  · simpa using List.of_mem_filter ((mem_dfs.1 hdfs).1.subset hx)

/-- The word of the attempt differs from the received word only where it is substituted. -/
theorem distance_wordWith_le (s : State) (subs : List Nat) :
    distance s.cfg.codeLen (symbolAt (wordWith s subs)) (slot s.sym) ≤ subs.length := by
  refine le_trans (List.countP_mono_left fun x hx h => ?_) (countIn_mem_le 0 s.cfg.codeLen subs)
  have hxL := (mem_range'_sub.1 hx).2
  by_contra hnot
  have hnot' : x ∉ subs := by simpa using hnot
  simp [symbolAt_wordWith s subs hxL, hnot'] at h

/-- After an accepted decode the codeword is that of the candidate, whether it was rewritten or was exact
(44_decoder.md R238). -/
theorem slot_reporting {s : State} (hlegal : s.cfg.legal = true) {c : Trial} {k : Candidate}
    (hfits : Fits s.cfg c.subset (wordWith s c.subs) k) {x : Nat} (hx : x < s.cfg.codeLen) :
    slot (reporting (decodedBy c k) s).sym x = values k.p x := by
  have hL := codeLen_lt_16 hlegal
  rw [reporting_decodedBy]
  dsimp only
  split
  next hclean =>
    have hexact := distance_eq_zero_iff.1 (hfits.mismatches.symm.trans hclean.1) x hx
    rw [hexact, hclean.2, symbolAt_wordWith_nil s hx]
  next => rw [hfits.word, slot_writeSymbols_codeword _ _ _ (by omega), if_pos hx, values]

/-! ## Words close to a codeword -/

/-- The candidate through abscissas where the word agrees with a codeword is that codeword's polynomial. -/
theorem Fits.p_eq_of_agree {cfg : Cfg} (hlegal : cfg.legal = true) {S : List Nat} {r : List F} {k : Candidate}
    (hfits : Fits cfg S r k) (hS : S ∈ choose (List.range cfg.codeLen) cfg.dataLen) {d : Coeffs}
    (hd : degreeBelow d cfg.dataLen) (h : ∀ x ∈ S, values d x = symbolAt r x) : k.p = d := by
  obtain ⟨hsub, hlen⟩ := mem_choose.1 hS
  have hL := codeLen_lt_16 hlegal
  refine values_unique hfits.degree hd (List.nodup_range.sublist hsub) (fun x hx => ?_) hlen.ge fun x hx => ?_
  · exact (List.mem_range.1 (hsub.subset hx)).trans (by omega)
  · rw [hfits.chosen x hx, h x hx]

/-- A candidate of few mismatches is the polynomial of any codeword close to the word. -/
theorem Fits.p_eq_of_close {cfg : Cfg} (hlegal : cfg.legal = true) {S : List Nat} {r : List F} {k : Candidate}
    (hfits : Fits cfg S r k) {d : Coeffs} (hd : degreeBelow d cfg.dataLen)
    (h : k.m + distance cfg.codeLen (values d) (symbolAt r) ≤ cfg.redundantLen) : k.p = d := by
  have hL := codeLen_lt_16 hlegal
  have htriangle := distance_triangle cfg.codeLen (values k.p) (symbolAt r) (values d)
  rw [← hfits.mismatches, distance_comm _ (symbolAt r)] at htriangle
  refine eq_of_distance_le hfits.degree hd (L := cfg.codeLen) (by omega) ?_
  have hsum : cfg.codeLen = cfg.dataLen + cfg.redundantLen := rfl
  omega

/-- A codeword with fewer than `E` errors, on the data side if the trust policy is on, has an accepted candidate in the
first attempt, if it has no error or the codeword passes the checks on a correction (44_decoder.md R224, R241). -/
theorem exists_verdict_of_close {s : State} (hlegal : s.cfg.legal = true) {d : Coeffs}
    (hd : degreeBelow d s.cfg.dataLen)
    (hfew : distance s.cfg.codeLen (values d) (slot s.sym) < s.cfg.redundantLen)
    (htrusted : s.cfg.trust = true → ∀ x, s.cfg.dataLen ≤ x → x < s.cfg.codeLen → values d x = slot s.sym x)
    (hchecks : distance s.cfg.codeLen (values d) (slot s.sym) = 0 ∨
      (∀ x, x < s.cfg.dataLen → values d x ≠ 256) ∧ tagOf s.cfg.dataLen (codeword d s.cfg.codeLen) = s.tag) :
    ∃ c ∈ attemptOrder s [], ∃ k, verdict s c = some k := by
  obtain ⟨S, hS, hgood⟩ := exists_candidateSubset_avoiding hlegal hfew
    fun htrust x hN hL => by simp [htrusted htrust x hN hL]
  obtain ⟨c, hc, rfl⟩ := exists_trial_iff.2 hS
  have hchoose := (mem_candidateSubsets hlegal hS).1
  have hword : ∀ x, x < s.cfg.codeLen → symbolAt (wordWith s c.subs) x = slot s.sym x := fun x =>
    symbolAt_first_attempt hc
  obtain ⟨k, hcand, hfits⟩ := exists_cand_fits hlegal hchoose (wordWith s c.subs)
  have hp : k.p = d := hfits.p_eq_of_agree hlegal hchoose hd fun x hx => by
    rw [hword x (List.mem_range.1 ((mem_choose.1 hchoose).1.subset hx))]
    simpa using hgood x hx
  have hm : k.m = distance s.cfg.codeLen (values d) (slot s.sym) := by
    rw [hfits.mismatches, hp]
    exact distance_congr (fun _ _ => rfl) hword
  have htm : s.cfg.trust = true → k.tm = 0 := fun htrust => by
    rw [hfits.trusted, countIn_eq_zero_iff]
    intro x hN hL
    rw [hp, hword x hL, htrusted htrust x hN hL]
    simp
  refine ⟨c, hc, k, consider_eq_some.2 ⟨hcand, accepts_iff.2 ⟨fun h => ?_, hm ▸ hfew, ?_⟩⟩⟩
  · exact h.2.ne' (htm h.1)
  · rw [← hm] at hchecks
    refine hchecks.imp (fun h => ⟨h, by simp [subs_of_mem_attemptOrder hc]⟩) fun ⟨hbytes, htag⟩ =>
      ⟨fun x hx _ => ?_, fun _ => ?_⟩
    · rw [hfits.word, hp, symbolAt_codeword d (hx.trans_le (dataLen_le_codeLen _))]
      exact hbytes x hx
    · rw [hfits.word, hp, htag]

/-- A candidate that the first attempt accepts has fewer than `E` mismatches; so a codeword with at most one wrong symbol
is its codeword, and its mismatches are the wrong symbols (44_decoder.md R241). -/
theorem verdict_of_close {s : State} (hlegal : s.cfg.legal = true) {c : Trial} (hc : c ∈ attemptOrder s [])
    {k : Candidate} (hk : verdict s c = some k) {d : Coeffs} (hd : degreeBelow d s.cfg.dataLen)
    (hclose : distance s.cfg.codeLen (values d) (slot s.sym) ≤ 1) :
    k.p = d ∧ k.m = distance s.cfg.codeLen (values d) (slot s.sym) := by
  have hfits := verdict_fits hlegal hc hk
  have hm := verdict_lt hk
  have hword : distance s.cfg.codeLen (values d) (symbolAt (wordWith s c.subs)) =
      distance s.cfg.codeLen (values d) (slot s.sym) :=
    distance_congr (fun _ _ => rfl) fun _ => symbolAt_first_attempt hc
  have hp : k.p = d := hfits.p_eq_of_close hlegal hd (by omega)
  exact ⟨hp, by rw [hfits.mismatches, hp, hword]⟩

/-- Settles O29: the first accepted candidate is the codeword's polynomial, which differs nowhere. -/
theorem codewordsDecodeClean : Obligations.CodewordsDecodeClean := by
  rintro s hlegal ⟨d, hd, hvalue⟩
  obtain ⟨-, -, hE, -⟩ := legal_iff.1 hlegal
  have hL := codeLen_lt_16 hlegal
  have heq : ∀ x, x < s.cfg.codeLen → values d x = slot s.sym x := fun x hx =>
    (values_eq_iff (by omega)).2 (hvalue x hx).symm
  have hzero : distance s.cfg.codeLen (values d) (slot s.sym) = 0 := distance_eq_zero_iff.2 heq
  obtain ⟨c, hc, k, hk, hexec⟩ := exec_decode_of_first_attempt hlegal
    (exists_verdict_of_close hlegal hd (by omega) (fun _ x _ => heq x) (.inl hzero))
  obtain ⟨-, hm⟩ := verdict_of_close hlegal hc hk hd (by omega)
  obtain ⟨-, hpass⟩ := mem_attemptOrder hlegal hc
  refine ⟨maskOf c.subset, c.pass, hpass, ?_⟩
  rw [hexec, reporting_decodedBy]
  simp [hm, hzero, subs_of_mem_attemptOrder hc]

/-! ## What `ENCODE` leaves behind -/

/-- `t` holds the codeword of `d` and its tag, as `ENCODE` leaves them. -/
structure Encoded (t : State) (d : Coeffs) : Prop where
  legal : t.cfg.legal = true
  degree : degreeBelow d t.cfg.dataLen
  symbols : ∀ x, x < t.cfg.codeLen → slot t.sym x = values d x
  bytes : dataAreBytes t
  tag : t.tag = tagOf t.cfg.dataLen (codeword d t.cfg.codeLen)

theorem take_toList_eq_codeword {b : SymbolBuf} {d : Coeffs} {n : Nat} (hn : n ≤ 16)
    (h : ∀ x, x < n → slot b x = values d x) : b.toList.take n = codeword d n := by
  refine List.ext_getElem (by simp [hn]) fun x _ hx => ?_
  have hxn : x < n := by simpa using hx
  have hval := h x hxn
  rw [slot_of_lt _ (by omega)] at hval
  simpa [codeword, values] using hval

theorem exec_encode_encoded {s : State} (hlegal : s.cfg.legal = true) (hbytes : dataAreBytes s) :
    ∃ t d, exec .encode s = .next t ∧ t.cfg = s.cfg ∧ Encoded t d := by
  obtain ⟨-, hencode⟩ := encodeWritesTheCodeword
  obtain ⟨-, hcodeword⟩ := hencode s hlegal
  obtain ⟨b, d, hexec, hd, hvalue, hdata, -⟩ := hcodeword hbytes
  have hL := codeLen_lt_16 hlegal
  have hsymbols : ∀ x, x < s.cfg.codeLen → slot b x = values d x := fun x hx =>
    ((values_eq_iff (by omega)).2 (hvalue x hx).symm).symm
  refine ⟨_, d, hexec, rfl, hlegal, hd, hsymbols, fun x hx => ?_, ?_⟩
  · exact (hdata x hx).symm ▸ hbytes x hx
  · exact congrArg (tagOf s.cfg.dataLen) (take_toList_eq_codeword hL.le hsymbols)

/-- Settles O30: the encoded block holds a codeword. -/
theorem encodedBlocksDecodeClean : Obligations.EncodedBlocksDecodeClean := by
  intro s hlegal hbytes
  obtain ⟨t, d, hencode, -, ht⟩ := exec_encode_encoded hlegal hbytes
  have hL := codeLen_lt_16 ht.legal
  have hcodeword : holdsCodeword t := ⟨d, ht.degree, fun x hx => by rw [ht.symbols x hx, val_values d (by omega)]⟩
  obtain ⟨mask, pass, -, hdecode⟩ := codewordsDecodeClean t ht.legal hcodeword
  exact ⟨t, _, hencode, hdecode, rfl, rfl, rfl⟩

/-- The errors of a word are where it differs from the encoded block. -/
theorem Encoded.distance_eq {t : State} {d : Coeffs} (ht : Encoded t d) (b : SymbolBuf) :
    distance t.cfg.codeLen (values d) (slot b) = distance t.cfg.codeLen (slot b) (slot t.sym) := by
  rw [distance_comm]
  exact distance_congr (fun _ _ => rfl) fun x hx => (ht.symbols x hx).symm

/-- An encoded block with fewer than `E` errors, on the data side if the trust policy is on, decodes under a candidate
for the received word. -/
theorem Encoded.exec_decode {t : State} {d : Coeffs} (ht : Encoded t d) {b : SymbolBuf}
    (hfew : distance t.cfg.codeLen (slot b) (slot t.sym) < t.cfg.redundantLen)
    (htrusted : t.cfg.trust = true → ∀ x, t.cfg.dataLen ≤ x → x < t.cfg.codeLen → slot b x = slot t.sym x) :
    ∃ c ∈ attemptOrder { t with sym := b } [], ∃ k, verdict { t with sym := b } c = some k ∧
      exec .decode { t with sym := b } = .next (succeeded (reporting (decodedBy c k) { t with sym := b })) := by
  refine exec_decode_of_first_attempt ht.legal (exists_verdict_of_close ht.legal ht.degree (ht.distance_eq b ▸ hfew)
    (fun htrust x hN hL => ?_) (.inr ⟨fun x hx => ?_, ht.tag.symm⟩))
  · exact (ht.symbols x hL).symm.trans (htrusted htrust x hN hL).symm
  · rw [← ht.symbols x (hx.trans_le (dataLen_le_codeLen _))]
    exact ht.bytes x hx

/-- Settles O32: an accepted candidate exists, so the decode ends with status 0 or 1. -/
theorem fewErrorsAreNotUncorrectable : Obligations.FewErrorsAreNotUncorrectable := by
  intro s hlegal hbytes
  obtain ⟨t, d, hencode, hcfg, ht⟩ := exec_encode_encoded hlegal hbytes
  rw [← hcfg]
  refine ⟨t, hencode, fun b hfew htrusted => ?_⟩
  obtain ⟨c, -, k, -, hexec⟩ := ht.exec_decode hfew htrusted
  refine ⟨_, hexec, rfl, ?_⟩
  rw [reporting_decodedBy]
  dsimp only [succeeded]
  split <;> decide

theorem slot_set (b : SymbolBuf) (e : Fin 16) (v : F) (x : Nat) :
    slot (b.set e v) x = if e.val = x then v else slot b x := by
  by_cases hx : x < 16
  · rw [slot_of_lt _ hx, slot_of_lt _ hx, Vector.getElem_set]
  · have hne : ¬ e.val = x := by omega
    simp [slot, hx, hne]

/-- One written symbol differs from the received word at no other abscissa. -/
theorem distance_set_le (n : Nat) (b : SymbolBuf) (e : Fin 16) (v : F) :
    distance n (slot (b.set e v)) (slot b) ≤ 1 := by
  refine le_trans (List.countP_mono_left fun x _ hx => ?_) (countIn_mem_le 0 n [e.val])
  by_contra hne
  have hne' : ¬ e.val = x := fun h => hne (by simp [h])
  simp [slot_set, hne'] at hx

/-- A written symbol makes a difference if it is another. -/
theorem distance_set_ne_zero {n : Nat} {b : SymbolBuf} {e : Fin 16} {v : F} (he : e.val < n) (hv : v ≠ b[e]) :
    distance n (slot (b.set e v)) (slot b) ≠ 0 := fun hzero => by
  have heq := distance_eq_zero_iff.1 hzero e.val he
  rw [slot_set, if_pos rfl, slot_fin] at heq
  exact hv heq

/-- Settles O31: an accepted candidate is the codeword's polynomial, since the word has one wrong symbol, which is its one
mismatch. -/
theorem oneWrongDataSymbolIsCorrected : Obligations.OneWrongDataSymbolIsCorrected := by
  intro s hlegal hbytes hE
  obtain ⟨t, d, hencode, hcfg, ht⟩ := exec_encode_encoded hlegal hbytes
  rw [← hcfg] at hE ⊢
  refine ⟨t, hencode, fun e v he _ hv => ?_⟩
  have heL : e.val < t.cfg.codeLen := he.trans_le (dataLen_le_codeLen _)
  have hone := distance_set_le t.cfg.codeLen t.sym e v
  obtain ⟨c, hc, k, hk, hexec⟩ := ht.exec_decode (b := t.sym.set e v) (by omega)
    fun _ x hN _ => by rw [slot_set, if_neg (by omega)]
  have hlegal' : ({ t with sym := t.sym.set e v } : State).cfg.legal = true := ht.legal
  have hfits := verdict_fits hlegal' hc hk
  obtain ⟨hp, hm⟩ := verdict_of_close hlegal' hc hk ht.degree ((ht.distance_eq _).trans_le hone)
  have hstatus : ¬ (k.m = 0 ∧ c.subs = []) := fun h =>
    distance_set_ne_zero heL hv ((ht.distance_eq _).symm.trans (hm.symm.trans h.1))
  refine ⟨_, hexec, rfl, ?_, symbolBuf_ext fun i => ?_⟩
  · rw [reporting_decodedBy]
    exact if_neg hstatus
  · rw [← slot_fin, ← slot_fin]
    by_cases hi : i.val < t.cfg.codeLen
    · exact (slot_reporting hlegal' hfits hi).trans (by rw [hp, ht.symbols _ hi])
    · rw [reporting_decodedBy]
      dsimp only [succeeded]
      rw [if_neg hstatus, hfits.word, slot_writeSymbols_codeword _ _ _ i.isLt, if_neg hi, slot_set, if_neg (by omega)]

/-! ## What an accepted decode guarantees -/

/-- Settles O34: the codeword left is that of the accepted candidate, which differs from the attempt's word at its
mismatches, and the attempt's word from the received word at the substitutions. -/
theorem decodedWordsAreCodewords : Obligations.DecodedWordsAreCodewords := by
  intro s t hlegal hexec herr
  obtain ⟨-, rfl⟩ | ⟨c, hc, k, hk, rfl⟩ := exec_decode_cases hlegal hexec
  · cases herr
  have hL := codeLen_lt_16 hlegal
  obtain ⟨-, -, -, hE, -⟩ := legal_iff.1 hlegal
  have hfits := verdict_fits hlegal (mem_attemptOrder_subs hc) hk
  have hslot : ∀ x, x < s.cfg.codeLen → slot (reporting (decodedBy c k) s).sym x = values k.p x := fun x =>
    slot_reporting hlegal hfits
  have hm := verdict_lt hk
  obtain ⟨-, -, hsubs⟩ := mem_decodeOrder hlegal hc
  have hreportM : (reporting (decodedBy c k) s).dinfo.m.toNat = k.m := Nat.mod_eq_of_lt (by omega : k.m < 2 ^ 4)
  have hreportSubs : (reporting (decodedBy c k) s).dinfo.subs.toNat = c.subs.length :=
    Nat.mod_eq_of_lt (by omega : c.subs.length < 2 ^ 3)
  refine ⟨⟨k.p, hfits.degree, fun x hx => ?_⟩, hreportM.trans_lt hm, ?_⟩
  · exact (congrArg Fin.val (hslot x hx)).trans (val_values k.p (hx.trans (hL.trans (by decide))))
  · calc distance s.cfg.codeLen (slot (reporting (decodedBy c k) s).sym) (slot s.sym)
      _ = distance s.cfg.codeLen (values k.p) (slot s.sym) := distance_congr hslot fun _ _ => rfl
      _ ≤ k.m + c.subs.length := by
        rw [hfits.mismatches]
        exact (distance_triangle _ _ _ _).trans (Nat.add_le_add_left (distance_wordWith_le s c.subs) _)
      _ = _ := by
        rw [← hreportM, ← hreportSubs]
        rfl

/-- Settles O33: a status-1 candidate has passed the checks on a correction, and its subset contains the trusted side. -/
theorem trustedCorrectionsAreVerified : Obligations.TrustedCorrectionsAreVerified := by
  intro s t hlegal htrust hexec hcorrected
  obtain ⟨-, rfl⟩ | ⟨c, hc, k, hk, rfl⟩ := exec_decode_cases hlegal hexec
  · cases hcorrected
  have hL := codeLen_lt_16 hlegal
  have hattempt := mem_attemptOrder_subs hc
  have hfits := verdict_fits hlegal hattempt hk
  have hslot : ∀ x, x < s.cfg.codeLen → slot (reporting (decodedBy c k) s).sym x = values k.p x := fun x =>
    slot_reporting hlegal hfits
  have hstatus : ¬ (k.m = 0 ∧ c.subs = []) := fun h => by
    rw [reporting_decodedBy] at hcorrected
    simp [succeeded, h] at hcorrected
  obtain ⟨-, -, hexact | ⟨hbytes, htag⟩⟩ := accepts_iff.1 (consider_eq_some.1 hk).2
  · exact absurd ⟨hexact.1, by simpa using hexact.2⟩ hstatus
  refine ⟨rfl, ?_, fun x hx => ?_, fun x hN hxL => ?_⟩
  · rw [← htag htrust, hfits.word]
    exact congrArg (tagOf s.cfg.dataLen) (take_toList_eq_codeword hL.le hslot)
  · have hxL : x < s.cfg.codeLen := hx.trans_le (dataLen_le_codeLen _)
    have h256 := hbytes x hx (by rw [hfits.word, codeword_length]; exact hxL)
    rw [hfits.word, symbolAt_codeword _ hxL] at h256
    exact fun h => h256 ((hslot x hxL).symm.trans h)
  · obtain ⟨-, htrusted⟩ := mem_candidateSubsets hlegal (subset_mem_candidateSubsets hattempt)
    have hvalue : slot (reporting (decodedBy c k) s).sym x = if x ∈ c.subs then 256 else slot s.sym x := by
      rw [hslot x hxL, hfits.chosen x (htrusted htrust x hN hxL), symbolAt_wordWith s c.subs hxL]
    by_cases hsub : x ∈ c.subs
    · exact .inr ⟨slot_eq_zero_of_mem_subs hc hsub, hvalue.trans (if_pos hsub)⟩
    · exact .inl (hvalue.trans (if_neg hsub))

end Sys2Proof.Machine

/-! The block codec: how `SBEGIN`, `BENC`, `BDEC` and `SEND` end, check by check (45_block_codec.md R260 to R266). -/
namespace Sys2Proof.Machine

open Sys2Proof.Safety

/-- A command whose check fails ends with the check's code and changes nothing else (60_exceptions.md R320). -/
theorem finish_of_failed_check {p : Prop} [Decidable p] (hp : p) {e : ErrCode} (he : e ≠ .none) (s : State)
    (rest : Result) : (if p then finish e s else rest) = .next (failed e s) :=
  (if_pos hp).trans (finish_error he s)

/-! ## The padded block -/

theorem padded_eq_padBlock (k : Nat) (s : State) : padded k s = padBlock k s := rfl

theorem padBlock_countBlock (k : Nat) (s : State) : padBlock k (countBlock k s) = countBlock k (padBlock k s) := by
  unfold padBlock countBlock
  rfl

theorem slot_padBlock (k : Nat) (s : State) (x : Nat) :
    slot (padBlock k s).sym x = if k ≤ x ∧ x < s.cfg.dataLen then 0 else slot s.sym x := by
  by_cases hx : x < 16
  · rw [slot_of_lt _ hx, slot_of_lt _ hx]
    exact getElem_padBlock k s ⟨x, hx⟩
  · simp [slot, hx]

/-- Only the chunk itself has to be bytes: the padding above it is. -/
theorem dataAreBytes_padBlock {k : Nat} {s : State} (h : ∀ x, x < k → slot s.sym x ≠ 256) :
    dataAreBytes (padBlock k s) := by
  intro x hx
  rw [padBlock_cfg] at hx
  rw [slot_padBlock]
  by_cases hk : x < k
  · rw [if_neg (by omega)]
    exact h x hk
  · rw [if_pos ⟨by omega, hx⟩]
    decide

/-! ## `BENC` -/

theorem encode_benc {k : Nat} (hk : k < 16) : encode (.benc k 0) = BitVec.ofNat 32 (256 * k + 0x41) := by
  simpa [maskField, f1Field, f2Field, opcodeOf] using
    encode_eq_ofNat ((Instr.wellFormed_iff (.benc k 0)).2 ⟨hk, Nat.zero_lt_succ 15⟩)

/-- With operands that fit the session and the configuration, a symbol 256 in the chunk decides. -/
theorem execBenc_of_operands {s : State} {k f2 : Nat} (henc : s.sess = .enc) (hf2 : f2 = 0) (hk : 1 ≤ k)
    (hN : k ≤ s.cfg.dataLen) : execBenc k f2 s =
      if s.dataHas256 k then finish .badOperand s
      else finish (encodeBody (padBlock k s)).1
        (logBlock s.bytecnt (encodeBody (padBlock k s)).1 (countBlock k (encodeBody (padBlock k s)).2)) := by
  rw [execBenc, if_neg (not_not.2 henc), if_neg (by omega)]

theorem encodeBody_counters {s u : State} {e : ErrCode} (h : encodeBody s = (e, u)) :
    u.blkcnt = s.blkcnt ∧ u.bytecnt = s.bytecnt := by
  obtain ⟨b, g, rfl⟩ := encodeBody_writes h
  exact ⟨rfl, rfl⟩

/-- Settles O42: the body of `ENCODE` succeeds on the padded chunk, and writes neither counter. -/
theorem bencEncodesThePaddedChunk : Obligations.BencEncodesThePaddedChunk := by
  refine fun s k f2 => ⟨encode_benc, fun hsess => finish_of_failed_check hsess (by decide) s _, fun henc hop => ?_,
    fun henc hf2 hk hN h256 => ?_, fun hlegal henc hf2 hk hN hchunk => ?_⟩
  · rw [exec, execBenc, if_neg (not_not.2 henc)]
    exact finish_of_failed_check hop (by decide) s _
  · rw [exec, execBenc_of_operands henc hf2 hk hN]
    exact finish_of_failed_check ((dataHas256_iff s k).2 h256) (by decide) s _
  · have h256 : ¬ s.dataHas256 k = true := by simpa [dataHas256_iff] using hchunk
    obtain ⟨e, u, hbody⟩ : ∃ e u, encodeBody (padBlock k s) = (e, u) := ⟨_, _, rfl⟩
    obtain rfl : e = .none := by simpa [hbody] using encodeBody_fst (s := padBlock k s) (by rwa [padBlock_cfg])
    obtain ⟨hblk, hbyte⟩ := encodeBody_counters hbody
    rw [padded_eq_padBlock]
    refine ⟨complete .none u, ?_, rfl, ?_⟩
    · rw [exec, execEncode_of_bytes (dataAreBytes_padBlock hchunk), hbody]
      rfl
    · rw [exec, execBenc_of_operands henc hf2 hk hN, if_neg h256, hbody, ← padBlock_blkcnt k s, ← padBlock_bytecnt k s,
        ← hblk, ← hbyte]
      rfl

/-! ## `BDEC` -/

theorem encode_bdec {k h : Nat} (hk : k < 16) (hh : h < 16) :
    encode (.bdec k h) = BitVec.ofNat 32 (4096 * h + 256 * k + 0x42) := by
  simpa [maskField, f1Field, f2Field, opcodeOf] using
    encode_eq_ofNat ((Instr.wellFormed_iff (.bdec k h)).2 ⟨hk, hh⟩)

theorem badBlockOperands_iff {cfg : Cfg} {k h : Nat} : badBlockOperands cfg k h = true ↔
    h = 0 ∨ 3 < h ∨ (h = 2 ∧ k ≠ 0) ∨ (h ≠ 2 ∧ (k < 1 ∨ cfg.dataLen < k)) := by
  simp [badBlockOperands, or_assoc]

/-- A decode neither reads nor writes the two counters of blocks, so a block may be counted before it or after it. -/
theorem decodeBody_countBlock (k : Nat) (s : State) :
    decodeBody (countBlock k s) = ((decodeBody s).1, countBlock k (decodeBody s).2) := by
  have hread : (countBlock k s).received = s.received := rfl
  unfold decodeBody
  rw [countBlock_cfg, hread, countBlock_tag]
  cases decodeWord s.cfg s.received s.tag <;> rfl

/-- With operands that fit the session and the configuration, `h` selects what is done. -/
theorem execBdec_of_operands {s : State} {k h : Nat} (hdec : s.sess = .dec)
    (hop : (h = 2 ∧ k = 0) ∨ ((h = 1 ∨ h = 3) ∧ 1 ≤ k ∧ k ≤ s.cfg.dataLen)) : execBdec k h s =
      if h = 2 then finish .none { s with mis := true }
      else if h = 1 then finish .none { countBlock k s with mis := true }
      else finish (decodeBody (padBlock k s)).1
        (logBlock s.bytecnt (decodeBody (padBlock k s)).1 (countBlock k (decodeBody (padBlock k s)).2)) := by
  have hgood : ¬ badBlockOperands s.cfg k h = true := by
    rw [badBlockOperands_iff]
    omega
  rw [execBdec, if_neg (not_not.2 hdec), if_neg hgood, padBlock_countBlock, decodeBody_countBlock]

theorem decodeBody_counters {s u : State} {e : ErrCode} (h : decodeBody s = (e, u)) :
    u.blkcnt = s.blkcnt ∧ u.bytecnt = s.bytecnt ∧ u.failcnt = s.failcnt ∧ u.lastfail = s.lastfail := by
  obtain ⟨b, st, di, rfl⟩ := decodeBody_writes h
  exact ⟨rfl, rfl, rfl, rfl⟩

/-- Settles O43: the checks as conditions on `k` and `h`; with both halves, a decode ends in one of two codes, and only
`UNCORRECTABLE` is logged. -/
theorem bdecDecodesThePaddedBlock : Obligations.BdecDecodesThePaddedBlock := by
  refine fun s k h => ⟨encode_bdec, fun hsess => finish_of_failed_check hsess (by decide) s _, fun hdec hop => ?bad,
    fun hdec hh hk => ?record, fun hdec hh hk hN => ?data, fun hdec hh hk hN => ?both⟩
  case bad =>
    rw [exec, execBdec, if_neg (not_not.2 hdec)]
    exact finish_of_failed_check (badBlockOperands_iff.2 hop) (by decide) s _
  case record =>
    rw [exec, execBdec_of_operands hdec (by omega), if_pos hh]
    exact finish_success _
  case data =>
    rw [exec, execBdec_of_operands hdec (by omega), if_neg (by omega), if_pos hh]
    exact finish_success _
  case both =>
    obtain ⟨e, u, hbody⟩ : ∃ e u, decodeBody (padBlock k s) = (e, u) := ⟨_, _, rfl⟩
    obtain ⟨hblk, hbyte, hfail, hlast⟩ := decodeBody_counters hbody
    rw [padded_eq_padBlock]
    refine ⟨complete e u, by rw [exec, execDecode, hbody]; rfl, ?_⟩
    rw [exec, execBdec_of_operands hdec (by omega), if_neg (by omega), if_neg (by omega), hbody,
      ← padBlock_blkcnt k s, ← padBlock_bytecnt k s, ← padBlock_failcnt k s, ← padBlock_lastfail k s, ← hblk, ← hbyte,
      ← hfail, ← hlast]
    obtain rfl | ⟨rfl, -⟩ := decodeBody_code hbody <;> rfl

/-! ## `SBEGIN` -/

/-- Settles O41: the two checks, in their order, and the opened session. -/
theorem sbeginOpensASession : Obligations.SbeginOpensASession := by
  refine ⟨rfl, rfl, fun s mode f2 => ⟨fun hopen => finish_of_failed_check hopen (by decide) s _, fun hidle hop => ?_,
    fun hidle hmode hf2 => ?_⟩⟩
  · rw [exec, execSbegin, if_neg (not_not.2 hidle)]
    exact finish_of_failed_check hop (by decide) s _
  · rw [exec, execSbegin, if_neg (not_not.2 hidle), if_neg (by omega)]
    exact finish_success _

/-! ## `SEND` -/

theorem execSend_of_open {s : State} {e : ErrCode} (hopen : s.sess ≠ .idle) (hreport : sessionReport s = e) :
    execSend s = finish e { s with sess := .idle } := by
  rw [execSend, if_neg hopen, hreport]

/-- Settles O44: an open session is closed with its report, whose first test is for misalignment. -/
theorem sendClosesAndReports : Obligations.SendClosesAndReports := by
  refine ⟨rfl, fun s => ⟨fun hidle => finish_of_failed_check hidle (by decide) s _, fun hopen hmis => ?_,
    fun hdec hmis hfail => ?_, fun henc hmis hfail => ?_, fun hopen hmis hfail => ?_⟩⟩
  · have hreport : sessionReport s = .fileMisaligned := by simp [sessionReport, hmis]
    exact (execSend_of_open hopen hreport).trans (finish_error (by decide) _)
  · have hreport : sessionReport s = .uncorrectable := by simpa [sessionReport, hmis, hdec] using hfail
    exact (execSend_of_open (by simp [hdec]) hreport).trans (finish_error (by decide) _)
  · have hreport : sessionReport s = .encodingFailed := by simpa [sessionReport, hmis, henc] using hfail
    exact (execSend_of_open (by simp [henc]) hreport).trans (finish_error (by decide) _)
  · have hreport : sessionReport s = .none := by simp [sessionReport, hmis, hfail]
    exact (execSend_of_open hopen hreport).trans (finish_success _)

end Sys2Proof.Machine

/-! The `CFG` write and the interrupt level (60_exceptions.md R306, R310). -/
namespace Sys2Proof.Machine

/-! ## The `CFG` write -/

theorem step_write_cfg {s : State} {rest : List BusAccess} {v : Word} (hbus : s.bus = .write 0x004 4 v :: rest) :
    step s = .next (writeCfg v { s with bus := rest }) := by
  rw [step_write hbus (by decide) (by decide), busWrite_of_ne_cmd (by decide)]
  rfl

theorem writeCfg_of_open (v : Word) (s : State) (hopen : s.sess ≠ .idle) : writeCfg v s = rejectCfg .sequence s :=
  if_pos hopen

theorem writeCfg_of_illegal (v : Word) (s : State) (hidle : s.sess = .idle) (hillegal : ¬ (cfgOfWord v).legal = true) :
    writeCfg v s = rejectCfg .config s := by
  simp [writeCfg, hidle, hillegal]

theorem writeCfg_of_legal (v : Word) (s : State) (hidle : s.sess = .idle) (hlegal : (cfgOfWord v).legal = true) :
    writeCfg v s = { s with cfg := cfgOfWord v } := by
  simp [writeCfg, hidle, hlegal]

theorem cfgOfWord_dataLen (v : Word) : (cfgOfWord v).dataLen = v.toNat % 16 := by
  simp [cfgOfWord, Cfg.dataLen]

theorem cfgOfWord_redundantLen (v : Word) : (cfgOfWord v).redundantLen = v.toNat / 16 % 8 := by
  simp [cfgOfWord, Cfg.redundantLen, Nat.shiftRight_eq_div_pow]

theorem cfgOfWord_trust (v : Word) : (cfgOfWord v).trust = decide (v.toNat / 256 % 2 = 1) :=
  Nat.testBit_eq_decide_div_mod_eq

theorem cfgOfWord_eq (v : Word) : cfgOfWord v =
    ⟨BitVec.ofNat 4 (v.toNat % 16), BitVec.ofNat 3 (v.toNat / 16 % 8), decide (v.toNat / 256 % 2 = 1)⟩ := by
  rw [← cfgOfWord_dataLen, ← cfgOfWord_redundantLen, ← cfgOfWord_trust, Cfg.dataLen, Cfg.redundantLen,
    BitVec.ofNat_toNat, BitVec.ofNat_toNat, BitVec.setWidth_eq, BitVec.setWidth_eq]

/-- The legality of a written word as arithmetic on the word (10_state.md R25, 00_scope.md R10). -/
theorem cfgOfWord_legal_iff (v : Word) : (cfgOfWord v).legal = true ↔
    1 ≤ v.toNat % 16 ∧ v.toNat % 16 ≤ 10 ∧ 1 ≤ v.toNat / 16 % 8 ∧ v.toNat / 16 % 8 ≤ 5 ∧
      (v.toNat / 256 % 2 = 0 ∨ v.toNat / 16 % 8 ≤ v.toNat % 16) := by
  rw [legal_iff, cfgOfWord_dataLen, cfgOfWord_redundantLen, cfgOfWord_trust, decide_eq_false_iff_not,
    Nat.mod_two_not_eq_one]

/-- Settles O53: the three endings of a `CFG` write, with the written word's fields and legality as arithmetic. -/
theorem cfgWriteIsValidated : Obligations.CfgWriteIsValidated := by
  intro s rest v hbus
  dsimp only
  rw [step_write_cfg hbus, ← cfgOfWord_legal_iff, ← cfgOfWord_eq]
  exact ⟨fun hopen => congrArg _ (writeCfg_of_open v _ hopen),
    fun hidle hillegal => congrArg _ (writeCfg_of_illegal v _ hidle hillegal),
    fun hidle hlegal => congrArg _ (writeCfg_of_legal v _ hidle hlegal)⟩

/-! ## The interrupt level -/

theorem irq_iff (s : State) :
    s.irq = true ↔ (s.pendDone = true ∧ s.enDone = true) ∨ (s.pendErr = true ∧ s.enErr = true) := by
  simp [State.irq]

theorem irq_eq_false_of_not_pending {s : State} (hdone : s.pendDone = false) (herr : s.pendErr = false) :
    s.irq = false := by
  simp [State.irq, hdone, herr]

theorem irq_eq_false_of_not_enabled {s : State} (hdone : s.enDone = false) (herr : s.enErr = false) :
    s.irq = false := by
  simp [State.irq, hdone, herr]

/-- Settles O55: ones written to `INT_PEND` leave nothing pending, zeros written to `INT_EN` leave nothing enabled. -/
theorem irqIsTheMaskedPendingLevel : Obligations.IrqIsTheMaskedPendingLevel := fun s =>
  ⟨irq_iff s, irq_eq_false_of_not_pending (Bool.and_false s.pendDone) (Bool.and_false s.pendErr),
    irq_eq_false_of_not_enabled rfl rfl, irq_eq_false_of_not_pending rfl rfl⟩

end Sys2Proof.Machine

/-! The reset record and the reset event (70_reset_and_hazards.md R340). -/
namespace Sys2Proof.Machine

open Sys2Proof.Safety

theorem step_reset {s : State} {rest : List BusAccess} (hbus : s.bus = .reset :: rest) :
    step s = .next { State.reset with bus := rest } := by
  rw [step_cons hbus]
  rfl

/-- Every register below `SYM` but `ID`, `CFG`, `STATUS` and `DINFO` (70_reset_and_hazards.md R340). -/
theorem readReg_reset_eq_zero :
    ∀ reg ∈ [WinReg.cmd, .intPend, .intEn, .a, .b, .r, .tag, .blkcnt, .bytecnt, .failcnt, .lastfail, .degs],
      readReg State.reset reg = 0 := by decide

/-- A slot of a cleared array reads as 0. -/
theorem wordOfF_getElem_replicate_zero {n : Nat} (i : Fin n) : wordOfF (Vector.replicate n (0 : F))[i] = 0 := by
  rw [Fin.getElem_fin, Vector.getElem_replicate]
  rfl

/-- Settles O1: the packed words and the registers at 0 by evaluation, the three arrays as cleared vectors, and the reset
event by its step. -/
theorem resetGivesTheRecord : Obligations.ResetGivesTheRecord :=
  ⟨by decide, by decide, by decide, by decide, readReg_reset_eq_zero, wordOfF_getElem_replicate_zero,
    wordOfF_getElem_replicate_zero, wordOfF_getElem_replicate_zero, irq_eq_false_of_not_enabled rfl rfl,
    fun _ _ => step_reset⟩

/-- Settles O58: the base case of the invariant that O59 carries along every step. -/
theorem resetSatisfiesTheInvariant : Obligations.ResetSatisfiesTheInvariant := coreInv_reset

end Sys2Proof.Machine
